-- ==== Sys2Proof/Word.lean ====
section
/-! DEFINITION. The word types of the mysql-aes CORE (spec/00_scope.md R7 to R10): bytes, 16-byte blocks, 4-byte cipher
words, and the 16-bit command and response words, with the plainest operations on them. -/

namespace Sys2Proof

/-- A byte, 0 to 255, bit 0 the least significant (R8, R9). -/
abbrev Byte := BitVec 8

/-- A 16-byte sequence indexed 0 to 15: a cipher block, a cipher key, a round key, the register file `KREG` (R7, R111). -/
abbrev Block := Vector Byte 16

/-- A 4-byte sequence: a word of the key schedule, or a column of the cipher state (R111, R116). -/
abbrev Quad := Vector Byte 4

/-- A command word, 16 bits (R60, R61). -/
abbrev CommandWord := BitVec 16

/-- A response word, 16 bits (R64). -/
abbrev ResponseWord := BitVec 16

/-- The 16-byte sequence whose byte `i` is `f i`. -/
def Block.make (f : Nat → Byte) : Block :=
  #v[f 0, f 1, f 2, f 3, f 4, f 5, f 6, f 7, f 8, f 9, f 10, f 11, f 12, f 13, f 14, f 15]

/-- The 4-byte sequence whose byte `i` is `f i`. -/
def Quad.make (f : Nat → Byte) : Quad := #v[f 0, f 1, f 2, f 3]

/-- `s[i]` of R8, for `i` in 0..15; no rule indexes a block elsewhere. -/
def Block.byte (s : Block) (i : Nat) : Byte := s.toArray.toList.getD i 0x00#8

/-- `s[i]` of R8, for `i` in 0..3; no rule indexes a 4-byte word elsewhere. -/
def Quad.byte (s : Quad) (i : Nat) : Byte := s.toArray.toList.getD i 0x00#8

/-- `s[p] <- v`: the block with byte `p` replaced. -/
def Block.put (s : Block) (p : Nat) (v : Byte) : Block := Block.make fun i => if i = p then v else s.byte i

/-- `rep(v, 16)` of R8. -/
def Block.rep (v : Byte) : Block := Block.make fun _ => v

/-- `a xor b` on 16-byte sequences, byte by byte (R10). -/
def Block.xor (a b : Block) : Block := Block.make fun i => a.byte i ^^^ b.byte i

/-- `a xor b` on 4-byte sequences, byte by byte (R10). -/
def Quad.xor (a b : Quad) : Quad := Quad.make fun i => a.byte i ^^^ b.byte i

/-- The sixteen bytes of a block, index 0 first. -/
def Block.bytes (s : Block) : List Byte := s.toArray.toList

end Sys2Proof
end

