-- ==== Sys2Proof/Syntax.lean ====
section
/-! DEFINITION. The fifteen commands of spec/30_encoding.md R63 as syntax, their mnemonics, and the assembler lines with
the pseudo-instructions of R70 and R71. -/

namespace Sys2Proof

/-- A command (R63): one constructor for each row of spec/opcode_table.json, with the operand byte where the row has one. -/
inductive Instr where
  | nop
  | rst
  | stat
  | rdlen (i : Byte)
  | kclr
  | kpush (b : Byte)
  | dclr
  | dpush (b : Byte)
  | dpop
  | pad
  | unpad
  | ecbenc
  | ecbdec
  | encrypt
  | decrypt
  deriving DecidableEq, Repr

/-- The names of the rows of R63. -/
inductive Mnemonic where
  | NOP | RST | STAT | RDLEN | KCLR | KPUSH | DCLR | DPUSH | DPOP | PAD | UNPAD | ECBENC | ECBDEC | ENCRYPT | DECRYPT
  deriving DecidableEq, Repr

/-- The row a command belongs to. -/
def Instr.mnemonic : Instr → Mnemonic
  | .nop => .NOP
  | .rst => .RST
  | .stat => .STAT
  | .rdlen _ => .RDLEN
  | .kclr => .KCLR
  | .kpush _ => .KPUSH
  | .dclr => .DCLR
  | .dpush _ => .DPUSH
  | .dpop => .DPOP
  | .pad => .PAD
  | .unpad => .UNPAD
  | .ecbenc => .ECBENC
  | .ecbdec => .ECBDEC
  | .encrypt => .ENCRYPT
  | .decrypt => .DECRYPT

/-- One line of assembler source (R70, R71): a mnemonic with or without an operand, or a pseudo-instruction. Numbers are
as written; `WellFormed.lean` checks that they are bytes. -/
inductive Line where
  | command (m : Mnemonic) (operand : Option Nat)
  | key (bytes : List Nat)
  | data (bytes : List Nat)
  | read (n : Nat)
  | len32
  deriving DecidableEq, Repr

end Sys2Proof
end

