-- ==== Sys2Proof/WellFormed.lean ====
section
/-! DEFINITION. The checks that make syntax well formed (spec/30_encoding.md R61, R62, R70, R71). -/

namespace Sys2Proof

/-- Which commands are well formed: all of them, since the operand is a byte by its type and R62 accepts all 256 values
of it for `RDLEN`, `KPUSH` and `DPUSH`, and R67 gives the other twelve no operand at all. -/
def Instr.wellFormed : Instr → Bool
  | .nop => true
  | .rst => true
  | .stat => true
  | .rdlen _ => true
  | .kclr => true
  | .kpush _ => true
  | .dclr => true
  | .dpush _ => true
  | .dpop => true
  | .pad => true
  | .unpad => true
  | .ecbenc => true
  | .ecbdec => true
  | .encrypt => true
  | .decrypt => true

/-- A number written in assembler source is a byte (R70: "the operand a byte"). -/
def isByte (n : Nat) : Bool := decide (n < 256)

/-- Which assembler lines are well formed: every number that stands for a byte is one (R70, R71). An operand written
after a no-operand mnemonic is well formed as text; the word it assembles to is a reserved encoding (R67). -/
def Line.wellFormed : Line → Bool
  | .command _ none => true
  | .command _ (some n) => isByte n
  | .key bytes => bytes.all isByte
  | .data bytes => bytes.all isByte
  | .read _ => true
  | .len32 => true

end Sys2Proof
end

