-- ==== Sys2Proof/Decode.lean ====
section
/-! DEFINITION. Decoding and encoding of command words (spec/30_encoding.md R61 to R71): the opcode map, `decode`, total
on every 16-bit word and rejecting by name, `encode`, the assembler, and the host's `decodeTableWord`. -/

namespace Sys2Proof

/-! ## Fields of a command word (R61) -/

/-- `opc = word[15:8]` (R61). -/
def opcodeField (w : CommandWord) : Byte := w.extractLsb' 8 8

/-- `opd = word[7:0]` (R61); used as it stands, unsigned, unscaled (R62). -/
def operandField (w : CommandWord) : Byte := w.extractLsb' 0 8

/-- `word = opc * 256 + opd` (R61). -/
def wordOf (opc opd : Byte) : CommandWord := opc ++ opd

/-! ## The opcode map (R63) -/

/-- One row of R63: a word `w` selects it when `w & mask == match`. -/
structure OpcodeRow where
  mnemonic : Mnemonic
  matchBits : CommandWord
  maskBits : CommandWord
  deriving DecidableEq, Repr

/-- The columns `mnemonic`, `match`, `mask` of R63, in the spec's order. -/
def opcodeMap : List OpcodeRow :=
  [⟨.NOP, 0x0000#16, 0xFFFF#16⟩, ⟨.RST, 0x0100#16, 0xFFFF#16⟩, ⟨.STAT, 0x0200#16, 0xFFFF#16⟩,
   ⟨.RDLEN, 0x0300#16, 0xFF00#16⟩, ⟨.KCLR, 0x1000#16, 0xFFFF#16⟩] ++
  [⟨.KPUSH, 0x1100#16, 0xFF00#16⟩, ⟨.DCLR, 0x2000#16, 0xFFFF#16⟩, ⟨.DPUSH, 0x2100#16, 0xFF00#16⟩,
   ⟨.DPOP, 0x2200#16, 0xFFFF#16⟩, ⟨.PAD, 0x3000#16, 0xFFFF#16⟩] ++
  [⟨.UNPAD, 0x3100#16, 0xFFFF#16⟩, ⟨.ECBENC, 0x4000#16, 0xFFFF#16⟩, ⟨.ECBDEC, 0x4100#16, 0xFFFF#16⟩,
   ⟨.ENCRYPT, 0x5000#16, 0xFFFF#16⟩, ⟨.DECRYPT, 0x5100#16, 0xFFFF#16⟩]

/-- `w & mask == match` (R63). -/
def OpcodeRow.selects (r : OpcodeRow) (w : CommandWord) : Bool := w &&& r.maskBits == r.matchBits

/-- The column `opc` of R63. -/
def opcodeOf : Mnemonic → Byte
  | .NOP => 0x00#8
  | .RST => 0x01#8
  | .STAT => 0x02#8
  | .RDLEN => 0x03#8
  | .KCLR => 0x10#8
  | .KPUSH => 0x11#8
  | .DCLR => 0x20#8
  | .DPUSH => 0x21#8
  | .DPOP => 0x22#8
  | .PAD => 0x30#8
  | .UNPAD => 0x31#8
  | .ECBENC => 0x40#8
  | .ECBDEC => 0x41#8
  | .ENCRYPT => 0x50#8
  | .DECRYPT => 0x51#8

/-- The command of a row, with the operand byte of the word that selected it (R61). -/
def instrOf : Mnemonic → Byte → Instr
  | .NOP, _ => .nop
  | .RST, _ => .rst
  | .STAT, _ => .stat
  | .RDLEN, opd => .rdlen opd
  | .KCLR, _ => .kclr
  | .KPUSH, opd => .kpush opd
  | .DCLR, _ => .dclr
  | .DPUSH, opd => .dpush opd
  | .DPOP, _ => .dpop
  | .PAD, _ => .pad
  | .UNPAD, _ => .unpad
  | .ECBENC, _ => .ecbenc
  | .ECBDEC, _ => .ecbdec
  | .ENCRYPT, _ => .encrypt
  | .DECRYPT, _ => .decrypt

/-! ## Decoding (R66 step 1, R67) -/

/-- Why a word is a reserved encoding (R67). -/
inductive ReservedWhy where
  /-- `opc` is not one of the fifteen of R63. -/
  | unassignedOpcode
  /-- `opc` is one of the twelve no-operand commands and `opd != 0x00`. -/
  | operandNotZero
  deriving DecidableEq, Repr

/-- What a command word is: exactly one command, or `RESERVED` (R66). -/
inductive Decoded where
  | command (i : Instr)
  | reserved (why : ReservedWhy)
  deriving DecidableEq, Repr

/-- Which of R67's two kinds a reserved word is. -/
def reservedWhy (w : CommandWord) : ReservedWhy :=
  if opcodeMap.any (fun r => opcodeOf r.mnemonic == opcodeField w) then .operandNotZero else .unassignedOpcode

/-- `decode(w)` of R66: the row of R63 that `w` selects, or `RESERVED` if none. -/
def decode (w : CommandWord) : Decoded :=
  match opcodeMap.find? (fun r => r.selects w) with
  | some r => .command (instrOf r.mnemonic (operandField w))
  | none => .reserved (reservedWhy w)

/-! ## Encoding (R61, R63) and the assembler (R70, R71) -/

/-- The operand byte of a command: its key byte, data byte or byte index, and 0x00 in every other command (R61). -/
def operandOf : Instr → Byte
  | .nop => 0x00#8
  | .rst => 0x00#8
  | .stat => 0x00#8
  | .rdlen i => i
  | .kclr => 0x00#8
  | .kpush b => b
  | .dclr => 0x00#8
  | .dpush b => b
  | .dpop => 0x00#8
  | .pad => 0x00#8
  | .unpad => 0x00#8
  | .ecbenc => 0x00#8
  | .ecbdec => 0x00#8
  | .encrypt => 0x00#8
  | .decrypt => 0x00#8

/-- The word of a command, `opc * 256 + opd` (R61, R63). -/
def encode (i : Instr) : CommandWord := wordOf (opcodeOf i.mnemonic) (operandOf i)

/-- The words one assembler line stands for, in order (R70, R71). -/
def assemble : Line → List CommandWord
  | .command m operand => [wordOf (opcodeOf m) (BitVec.ofNat 8 (operand.getD 0))]
  | .key bytes => bytes.map fun b => encode (.kpush (BitVec.ofNat 8 b))
  | .data bytes => bytes.map fun b => encode (.dpush (BitVec.ofNat 8 b))
  | .read n => List.replicate n (encode .dpop)
  | .len32 => [encode (.rdlen 0), encode (.rdlen 1), encode (.rdlen 2), encode (.rdlen 3)]

/-! ## The host's view -/

/-- The 16-bit word of a table row's bits: a command is one 16-bit word with no byte order of its own (R61), and every
bit at or above `nbits` is 0. -/
def tableWord (nbits w : Nat) : CommandWord := BitVec.ofNat 16 (w % 2 ^ nbits)

/-- The command `decode` reads from a word numbered as spec/opcode_table.json numbers it. -/
def decodeTableWord (nbits w : Nat) : Option Instr :=
  match decode (tableWord nbits w) with
  | .command i => some i
  | .reserved _ => none

end Sys2Proof
end

