-- ==== Sys2Proof/Config.lean ====
section
/-! DEFINITION. The one open parameter of the CORE, `DCAP` (spec/00_scope.md R7, spec/92_eei_decisions.md D7). The spec
leaves no value undefined (spec/93_implementation_defined.md part 1), so there is no free value here. -/

namespace Sys2Proof

/-- The parameters of one CORE. R7: `DCAP` is "a named parameter the model takes as an argument". -/
structure Config where
  /-- `DCAP`, the capacity of the data buffer in bytes; `none` is the unbounded buffer R7 also allows. -/
  dcap : Option Nat
  deriving DecidableEq, Repr

/-- R7's constraint: `DCAP` is a multiple of 16 and at least 16, or it is unbounded. -/
def Config.legal (c : Config) : Bool :=
  match c.dcap with
  | none => true
  | some n => decide (16 ≤ n) && n % 16 == 0

/-- `n <= DCAP`; true of every `n` when `DCAP` is unbounded. -/
def Config.holds (c : Config) (n : Nat) : Bool :=
  match c.dcap with
  | none => true
  | some m => decide (n ≤ m)

/-- The capacity the spec's examples use, `DCAP = 64` (R7). DESIGN CHOICE (log 1): the machine `State.reset` stands for. -/
def Config.standard : Config := { dcap := some 64 }

end Sys2Proof
end

