-- ==== Sys2Proof/Machine/State.lean ====
section
/-! DEFINITION. The state of the CORE (spec/10_state.md R20 to R33), the inputs the host gives it, the kinds of its
faults, the reasons a step can stop, and the reset state. -/

namespace Sys2Proof.Machine

/-- The fault kinds of R190. They are architectural faults: raising one gives a NEXT state with `ERR` set (R198). -/
inductive FaultKind where
  /-- 0x01: `ENCRYPT`, `DECRYPT`, `ECBENC`, `ECBDEC` (R191). -/
  | invalidInput
  /-- 0x02: `UNPAD`, `DECRYPT` (R192). -/
  | invalidPadding
  /-- 0x03: raised by nothing in the CORE (R193). -/
  | invalidEncoding
  /-- 0x04: raised by nothing in the CORE (R194). -/
  | cipherConstructionFailure
  /-- 0x08: `DPUSH`, `PAD`, `ENCRYPT` (R195). -/
  | bufferOverflow
  /-- 0x09: any reserved encoding (R196). -/
  | illegalCommand
  deriving DecidableEq, Repr

/-- What the outside world does to the CORE, one item a step (R14, R215, R216). -/
inductive HostInput where
  /-- The host sends a command word on the command port (R60). -/
  | command (w : CommandWord)
  /-- The hardware reset input is asserted: between commands (`none`), or while the command `w` executes, which
  abandons it (`some w`, R216). -/
  | reset (abandoned : Option CommandWord)
  deriving DecidableEq, Repr

/-- The data buffer as data: (address, byte) cells, addresses strictly rising, no cell holding 0x00, which is what an
unlisted address reads as (R33: `DMEM` is all 0x00 after reset). `Memory.wf` in Machine/Memory.lean is that form. -/
abbrev Memory := List Host.Cell

/-- The whole architectural state of the CORE (R20), with the parameter `DCAP`, which no step changes (R15, log 1), and
the two ports as lists the host fills and reads (R60, log 2). -/
structure State where
  /-- The parameters of this CORE: `DCAP`. Not architectural state (R15). -/
  cfg : Config
  /-- `KREG[0..15]`, the key-fold accumulator (R21). -/
  kreg : Block
  /-- `KIDX`, 4 bits, where the next key byte is folded (R22). -/
  kidx : BitVec 4
  /-- `KVALID`, 1 bit, at least one key byte since the last key clear (R23). -/
  kvalid : Bool
  /-- `DMEM[0..DCAP-1]`, the data buffer (R24). -/
  dmem : Memory
  /-- `DLEN`, the number of valid bytes (R25). -/
  dlen : Nat
  /-- `RPTR`, the index of the next byte `DPOP` returns (R26). -/
  rptr : Nat
  /-- `ERR`, 8 bits, 0x00 or the code of the first fault since reset (R28). -/
  err : Byte
  /-- The host's inputs still to come, the next one first (R15: they belong to the host). -/
  inputs : List HostInput
  /-- The responses given so far, the first one first (R16, R60). -/
  responses : List ResponseWord
  deriving DecidableEq, Repr

/-- Reasons the model's machine stops with a fault. There is none: R229 makes `step` a total function, and every fault
of the spec is a next state with `ERR` set (R198). -/
inductive Fault where
  deriving DecidableEq, Repr

/-- Reasons the model gives no meaning. -/
inductive Refusal where
  /-- Raised by no arm: every command has its meaning. It would be safe: the model stops where the hardware goes on. -/
  | notModelled (mnemonic : String)
  deriving DecidableEq, Repr

/-- The outcome of a step of this machine. -/
abbrev Out := Host.Outcome State Fault Refusal

/-- The reset state of R33 of a CORE with the given parameters: all seven items zero. No input is waiting and no
response has been given (log 2). -/
def State.resetOf (cfg : Config) : State where
  cfg := cfg
  kreg := Block.rep 0x00#8
  kidx := 0x0#4
  kvalid := false
  dmem := []
  dlen := 0
  rptr := 0
  err := 0x00#8
  inputs := []
  responses := []

/-- The machine right after reset (R33), with the capacity the spec's examples use (log 1). -/
def State.reset : State := State.resetOf Config.standard

end Sys2Proof.Machine
end

