-- ==== Sys2Proof/Machine/Flags.lean ====
section
/-! DEFINITION. The derived flag byte `flags()` (spec/10_state.md R29): computed from the state, stored nowhere. There
are no arithmetic flags (R29). -/

namespace Sys2Proof.Machine

/-- A condition as the bit it sets. -/
def flagBit (p : Bool) : Nat := if p then 1 else 0

/-- `DNE`: data not empty (R29). -/
def flagDNE (s : State) : Bool := s.dlen != 0

/-- `ALN`: the length is a multiple of 16, so also when it is 0 (R29). -/
def flagALN (s : State) : Bool := s.dlen % 16 == 0

/-- `RAV`: a `DPOP` would return a byte (R29). -/
def flagRAV (s : State) : Bool := decide (s.rptr < s.dlen)

/-- `flags() = KVALID + 2*DNE + 4*ALN + 8*RAV + 16*KIDX` (R29). -/
def flags (s : State) : Byte :=
  BitVec.ofNat 8 (flagBit s.kvalid + 2 * flagBit (flagDNE s) + 4 * flagBit (flagALN s) + 8 * flagBit (flagRAV s) +
    16 * s.kidx.toNat)

end Sys2Proof.Machine
end

