-- ==== Sys2Proof/Machine/Aes.lean ====
section
/-! DEFINITION. The AES-128 block cipher, one 16-byte block, both directions (spec/43_aes128_block.md R110 to R127):
field arithmetic, the two tables, the key expansion, the round functions, `AesEncBlock` and `AesDecBlock`. -/

namespace Sys2Proof.Machine

/-! ## Field arithmetic (R112) -/

/-- `xtime(a)` of R112: multiplication by `x` in GF(2^8), modulo the bit pattern 0x11B. -/
def xtime (a : Byte) : Byte := if 0x80#8 ≤ a then (a <<< 1) ^^^ 0x1B#8 else a <<< 1

/-- The loop of `gmul` (R112): `n` iterations are left, `i` is the bit of `b` the next one tests, `p` the product so far. -/
def gmulLoop (b : Byte) : Nat → Nat → Byte → Byte → Byte
  | 0, _, _, p => p
  | n + 1, i, a, p => gmulLoop b n (i + 1) (xtime a) (if b.getLsbD i then p ^^^ a else p)

/-- `gmul(a, b)` of R112: multiplication in GF(2^8). -/
def gmul (a b : Byte) : Byte := gmulLoop b 8 0 a 0x00#8

/-! ## Tables (R113 to R115) -/

/-- `rotl8(y, n)` of R113: the 8 bits of `y` rotated left by `n`. -/
def rotl8 (y : Byte) (n : Nat) : Byte := y.rotateLeft n

/-- `x^(2^n)` in GF(2^8), by `n` squarings. -/
def gsquare : Nat → Byte → Byte
  | 0, x => x
  | n + 1, x => gsquare n (gmul x x)

/-- The multiplicative inverse in GF(2^8), and 0x00 for 0x00 (R113): `x^254`, as 2 + 4 + ... + 128 = 254.
DEDUCED (log 6): R112 says every non-zero byte has exactly one inverse; that this power is that inverse is the statement
`Obligations.CipherTablesMatchTheirDefinitions`. -/
def ginv (x : Byte) : Byte :=
  gmul (gsquare 1 x) (gmul (gsquare 2 x) (gmul (gsquare 3 x) (gmul (gsquare 4 x) (gmul (gsquare 5 x)
    (gmul (gsquare 6 x) (gsquare 7 x))))))

/-- `SBOX[x]` by the formula of R113, which R113 makes the definition should the table differ from it. -/
def sboxFormula (x : Byte) : Byte :=
  let y := ginv x
  y ^^^ rotl8 y 1 ^^^ rotl8 y 2 ^^^ rotl8 y 3 ^^^ rotl8 y 4 ^^^ 0x63#8

/-- The rows `0x` to `fx` of R113's table of `SBOX`; the entry of column `x0` is a row's most significant byte. -/
def sboxRows : List (BitVec 128) :=
  [0x637c777bf26b6fc53001672bfed7ab76#128, 0xca82c97dfa5947f0add4a2af9ca472c0#128,
   0xb7fd9326363ff7cc34a5e5f171d83115#128, 0x04c723c31896059a071280e2eb27b275#128] ++
  [0x09832c1a1b6e5aa0523bd6b329e32f84#128, 0x53d100ed20fcb15b6acbbe394a4c58cf#128,
   0xd0efaafb434d338545f9027f503c9fa8#128, 0x51a3408f929d38f5bcb6da2110fff3d2#128] ++
  [0xcd0c13ec5f974417c4a77e3d645d1973#128, 0x60814fdc222a908846eeb814de5e0bdb#128,
   0xe0323a0a4906245cc2d3ac629195e479#128, 0xe7c8376d8dd54ea96c56f4ea657aae08#128] ++
  [0xba78252e1ca6b4c6e8dd741f4bbd8b8a#128, 0x703eb5664803f60e613557b986c11d9e#128,
   0xe1f8981169d98e949b1e87e9ce5528df#128, 0x8ca1890dbfe6426841992d0fb054bb16#128]

/-- The rows `0x` to `fx` of R114's table of `INV_SBOX`, laid out as `sboxRows`. -/
def invSboxRows : List (BitVec 128) :=
  [0x52096ad53036a538bf40a39e81f3d7fb#128, 0x7ce339829b2fff87348e4344c4dee9cb#128,
   0x547b9432a6c2233dee4c950b42fac34e#128, 0x082ea16628d924b2765ba2496d8bd125#128] ++
  [0x72f8f66486689816d4a45ccc5d65b692#128, 0x6c704850fdedb9da5e154657a78d9d84#128,
   0x90d8ab008cbcd30af7e45805b8b34506#128, 0xd02c1e8fca3f0f02c1afbd0301138a6b#128] ++
  [0x3a9111414f67dcea97f2cfcef0b4e673#128, 0x96ac7422e7ad3585e2f937e81c75df6e#128,
   0x47f11a711d29c5896fb7620eaa18be1b#128, 0xfc563e4bc6d279209adbc0fe78cd5af4#128] ++
  [0x1fdda8338807c731b11210592780ec5f#128, 0x60517fa919b54a0d2de57a9f93c99cef#128,
   0xa0e03b4dae2af5b0c8ebbb3c83539961#128, 0x172b047eba77d626e169146355210c7d#128]

/-- The entry of a 256-entry table at `x`: row = high hex digit of `x`, column = low hex digit (R113). -/
def tableEntry (rows : List (BitVec 128)) (x : Byte) : Byte :=
  (rows.getD (x.toNat / 16) 0#128).extractLsb' (8 * (15 - x.toNat % 16)) 8

/-- `SBOX[x]`, read from R113's table. -/
def sbox (x : Byte) : Byte := tableEntry sboxRows x

/-- `INV_SBOX[x]`, read from R114's table. -/
def invSbox (x : Byte) : Byte := tableEntry invSboxRows x

/-- `RCON[j + 1]` of R115: `RCON[1] = 0x01` and `RCON[j + 1] = xtime(RCON[j])`. -/
def rconSucc : Nat → Byte
  | 0 => 0x01#8
  | j + 1 => xtime (rconSucc j)

/-- `RCON[j]` for `j >= 1` (R115); R116 uses 1 to 10 only. -/
def rcon (j : Nat) : Byte := rconSucc (j - 1)

/-! ## Key expansion (R116) -/

/-- `RotWord` of R116: rotate left by one byte. -/
def rotWord (t : Quad) : Quad := #v[t.byte 1, t.byte 2, t.byte 3, t.byte 0]

/-- `SubWord` of R116. -/
def subWord (t : Quad) : Quad := Quad.make fun i => sbox (t.byte i)

/-- The round constant goes into the first byte only (R116). -/
def addRcon (t : Quad) (c : Byte) : Quad := #v[t.byte 0 ^^^ c, t.byte 1, t.byte 2, t.byte 3]

/-- The 4-byte word of zeros, what a word index outside `w[0..43]` answers (R116 never uses one). -/
def zeroQuad : Quad := Quad.make fun _ => 0x00#8

/-- `w[i]` for `i >= 4` from `w[i-4]` and `w[i-1]` (the loop body of R116). -/
def nextKeyWord (i : Nat) (wBack4 wBack1 : Quad) : Quad :=
  Quad.xor wBack4 (if i % 4 = 0 then addRcon (subWord (rotWord wBack1)) (rcon (i / 4)) else wBack1)

/-- The loop of R116 over `w`: `n` words are still to be made, `ws` holds `w[0..i)`. -/
def keyWordsLoop : Nat → List Quad → List Quad
  | 0, ws => ws
  | n + 1, ws =>
    keyWordsLoop n (ws ++ [nextKeyWord ws.length (ws.getD (ws.length - 4) zeroQuad) (ws.getD (ws.length - 1) zeroQuad)])

/-- Column `c` of a 16-byte state: the bytes `s[4c .. 4c+4)` (R111). -/
def column (s : Block) (c : Nat) : Quad := Quad.make fun r => s.byte (4 * c + r)

/-- The 16-byte state whose column `c` is `f c` (R111). -/
def ofColumns (f : Nat → Quad) : Block := Block.make fun i => (f (i / 4)).byte (i % 4)

/-- The words `w[0..43]` of `KeyExpansion(k)` (R116). -/
def keyWords (k : Block) : List Quad := keyWordsLoop 40 [column k 0, column k 1, column k 2, column k 3]

/-- Round key `rk[r]` for `r` in 0..10 (R116): the words `w[4r .. 4r+4)` end to end. -/
def roundKey (ws : List Quad) (r : Nat) : Block := ofColumns fun c => ws.getD (4 * r + c) zeroQuad

/-! ## Round functions (R117 to R120) -/

/-- `AddRoundKey(s, rk_r)` of R117. -/
def addRoundKey (s rk : Block) : Block := Block.xor s rk

/-- `SubBytes(s)` of R118. -/
def subBytes (s : Block) : Block := Block.make fun i => sbox (s.byte i)

/-- `InvSubBytes(s)` of R118. -/
def invSubBytes (s : Block) : Block := Block.make fun i => invSbox (s.byte i)

/-- `ShiftRows(s)` of R119: `s'[r + 4c] = s[r + 4((c + r) mod 4)]`. -/
def shiftRows (s : Block) : Block :=
  Block.make fun i => s.byte (i % 4 + 4 * ((i / 4 + i % 4) % 4))

/-- `InvShiftRows(s)` of R119: `s'[r + 4c] = s[r + 4((c - r) mod 4)]`; the remainder is in 0..3 (R10), so `c - r` is
taken as `c + 4 - r`. -/
def invShiftRows (s : Block) : Block :=
  Block.make fun i => s.byte (i % 4 + 4 * ((i / 4 + 4 - i % 4) % 4))

/-- One column of `MixColumns` (R120). -/
def mixColumn (a : Quad) : Quad :=
  #v[gmul (a.byte 0) 2 ^^^ gmul (a.byte 1) 3 ^^^ a.byte 2 ^^^ a.byte 3,
     a.byte 0 ^^^ gmul (a.byte 1) 2 ^^^ gmul (a.byte 2) 3 ^^^ a.byte 3,
     a.byte 0 ^^^ a.byte 1 ^^^ gmul (a.byte 2) 2 ^^^ gmul (a.byte 3) 3,
     gmul (a.byte 0) 3 ^^^ a.byte 1 ^^^ a.byte 2 ^^^ gmul (a.byte 3) 2]

/-- One column of `InvMixColumns` (R120). -/
def invMixColumn (a : Quad) : Quad :=
  #v[gmul (a.byte 0) 14 ^^^ gmul (a.byte 1) 11 ^^^ gmul (a.byte 2) 13 ^^^ gmul (a.byte 3) 9,
     gmul (a.byte 0) 9 ^^^ gmul (a.byte 1) 14 ^^^ gmul (a.byte 2) 11 ^^^ gmul (a.byte 3) 13,
     gmul (a.byte 0) 13 ^^^ gmul (a.byte 1) 9 ^^^ gmul (a.byte 2) 14 ^^^ gmul (a.byte 3) 11,
     gmul (a.byte 0) 11 ^^^ gmul (a.byte 1) 13 ^^^ gmul (a.byte 2) 9 ^^^ gmul (a.byte 3) 14]

/-- `MixColumns(s)` of R120. -/
def mixColumns (s : Block) : Block := ofColumns fun c => mixColumn (column s c)

/-- `InvMixColumns(s)` of R120. -/
def invMixColumns (s : Block) : Block := ofColumns fun c => invMixColumn (column s c)

/-! ## The block functions (R121, R125) -/

/-- One of the rounds 1 to 9 of R121. -/
def encRound (rk s : Block) : Block := addRoundKey (mixColumns (shiftRows (subBytes s))) rk

/-- The rounds 1 to `n` of R121, in that order. -/
def encRounds (ws : List Quad) : Nat → Block → Block
  | 0, s => s
  | n + 1, s => encRound (roundKey ws (n + 1)) (encRounds ws n s)

/-- `AesEncBlock(k, b)` of R121. -/
def aesEncBlock (k b : Block) : Block :=
  let ws := keyWords k
  addRoundKey (shiftRows (subBytes (encRounds ws 9 (addRoundKey b (roundKey ws 0))))) (roundKey ws 10)

/-- One of the rounds 9 down to 1 of R125. -/
def decRound (rk s : Block) : Block := invMixColumns (addRoundKey (invSubBytes (invShiftRows s)) rk)

/-- The rounds `n` down to 1 of R125, in that order. -/
def decRounds (ws : List Quad) : Nat → Block → Block
  | 0, s => s
  | n + 1, s => decRounds ws n (decRound (roundKey ws (n + 1)) s)

/-- `AesDecBlock(k, b)` of R125. -/
def aesDecBlock (k b : Block) : Block :=
  let ws := keyWords k
  addRoundKey (invSubBytes (invShiftRows (decRounds ws 9 (addRoundKey b (roundKey ws 10))))) (roundKey ws 0)

end Sys2Proof.Machine
end

