-- ==== Sys2Proof/Machine/Functions.lean ====
section
/-! DEFINITION. The pure functions the source defines, on byte sequences: `fold_key` (spec/40_key_fold.md R80), `pad` and
`unpad` (spec/42_pkcs7.md R100, R102), `EcbEnc` and `EcbDec` (spec/44_ecb_sequencer.md R140, R141), `Encrypt` and `Decrypt`
(spec/45_encrypt_decrypt.md R150, R151). No command calls them: the commands follow their own rules, and statements say
that the two agree. -/

namespace Sys2Proof.Machine

/-- What a pure function answers: a byte sequence or `error <Kind>` (R12). -/
inductive CallResult where
  | bytes (d : List Byte)
  | error (k : FaultKind)
  deriving DecidableEq, Repr

/-- One iteration of R80's loop: the copy step for `i < 16`, the fold step from 16 on. -/
def foldKeyStep (buf : Block) (i : Nat) (b : Byte) : Block :=
  if i < 16 then buf.put i b else buf.put (i % 16) (buf.byte (i % 16) ^^^ b)

/-- R80's loop from index `i` on. -/
def foldKeyLoop : List Byte → Nat → Block → Block
  | [], _, buf => buf
  | b :: rest, i, buf => foldKeyLoop rest (i + 1) (foldKeyStep buf i b)

/-- `fold_key(key)` (R80). -/
def foldKey (key : List Byte) : Block := foldKeyLoop key 0 (Block.rep 0x00#8)

/-- `padLen` of a length: `16 - (len mod 16)`, in 1..16 (R100). -/
def padLen (n : Nat) : Nat := 16 - n % 16

/-- The pad bytes of a length: `rep(padLen, padLen)` (R100). -/
def padBytes (n : Nat) : List Byte := List.replicate (padLen n) (BitVec.ofNat 8 (padLen n))

/-- `pad(data)` (R100). -/
def pad (d : List Byte) : List Byte := d ++ padBytes d.length

/-- `unpad(data)` (R102). -/
def unpad (d : List Byte) : CallResult :=
  let n := d.length
  if n = 0 then .error .invalidPadding
  else
    let last := d.getD (n - 1) 0x00#8
    if last.toNat = 0 ∨ n < last.toNat then .error .invalidPadding
    else if (List.range last.toNat).all (fun i => d.getD (n - 1 - i) 0x00#8 == last) then .bytes (d.take (n - last.toNat))
    else .error .invalidPadding

/-- Block `j` of a byte sequence, `d[16j .. 16j+16)` (R140). -/
def blockAt (d : List Byte) (j : Nat) : Block := Block.make fun i => d.getD (16 * j + i) 0x00#8

/-- The sequence whose block `j` is `f` of block `j` of `d` (R140). -/
def ecbMap (f : Block → Block) (d : List Byte) : List Byte :=
  (List.range (d.length / 16)).flatMap fun j => (f (blockAt d j)).bytes

/-- `EcbEnc(k, d)` (R140), for `d` whose length is a multiple of 16. -/
def ecbEnc (k : Block) (d : List Byte) : List Byte := ecbMap (aesEncBlock k) d

/-- `EcbDec(k, d)` (R141), for `d` whose length is a multiple of 16. -/
def ecbDec (k : Block) (d : List Byte) : List Byte := ecbMap (aesDecBlock k) d

/-- `Encrypt(plaintext, key)` (R150). -/
def encryptCall (plaintext key : List Byte) : CallResult :=
  if plaintext.length = 0 ∨ key.length = 0 then .error .invalidInput
  else .bytes (ecbEnc (foldKey key) (pad plaintext))

/-- `Decrypt(ciphertext, key)` (R151). -/
def decryptCall (ciphertext key : List Byte) : CallResult :=
  if ciphertext.length = 0 ∨ key.length = 0 ∨ ciphertext.length % 16 ≠ 0 then .error .invalidInput
  else unpad (ecbDec (foldKey key) ciphertext)

end Sys2Proof.Machine
end

