-- ==== Sys2Proof/Machine/Memory.lean ====
section
/-! DEFINITION. Reading and writing the data buffer (spec/20_memory.md R40 to R57): one byte, byte sequences
(`MemRead`, `MemWrite`), whole blocks, and the canonical form of the cell list. No access faults (R42, R43, log 4). -/

namespace Sys2Proof.Machine

/-- What an address that no cell lists reads as: the reset content of `DMEM` (R33). -/
def Memory.unlisted : Byte := 0x00#8

/-- `DMEM[addr]` (R24). -/
def Memory.read : Memory → Nat → Byte
  | [], _ => Memory.unlisted
  | (b, v) :: m, a => if a = b then v else Memory.read m a

/-- The cells of every address but one. -/
def Memory.without (m : Memory) (a : Nat) : Memory := m.filter fun cell => cell.1 != a

/-- Put a cell before the first cell of a higher address. -/
def Memory.place : Memory → Nat → Byte → Memory
  | [], a, v => [(a, v)]
  | (b, u) :: m, a, v => if a < b then (a, v) :: (b, u) :: m else (b, u) :: Memory.place m a v

/-- `DMEM[addr] <- v`; writing what an unlisted address reads as removes the cell, so the canonical form is kept. -/
def Memory.write (m : Memory) (a : Nat) (v : Byte) : Memory :=
  if v = Memory.unlisted then m.without a else (m.without a).place a v

/-- `MemRead(addr, n)` (R42). -/
def Memory.readSeq (m : Memory) (addr n : Nat) : List Byte := (List.range n).map fun i => m.read (addr + i)

/-- `MemWrite(addr, n, v)` with `n = len(v)` (R43). -/
def Memory.writeSeq : Memory → Nat → List Byte → Memory
  | m, _, [] => m
  | m, addr, v :: vs => Memory.writeSeq (m.write addr v) (addr + 1) vs

/-- Block `j`: the 16 bytes `DMEM[16j .. 16j+16)` (R45, R144). -/
def Memory.readBlock (m : Memory) (j : Nat) : Block := Block.make fun i => m.read (16 * j + i)

/-- Write block `j` back to the same 16 addresses (R144). -/
def Memory.writeBlock (m : Memory) (j : Nat) (b : Block) : Memory := m.writeSeq (16 * j) b.bytes

/-- Transform the blocks `0 .. n-1` in place, block index ascending (R144). -/
def Memory.mapBlocks (f : Block → Block) : Nat → Memory → Memory
  | 0, m => m
  | n + 1, m =>
    let m' := Memory.mapBlocks f n m
    m'.writeBlock n (f (m'.readBlock n))

/-- Every listed address is at least `lo`, addresses strictly rise, and no cell holds what an unlisted address reads as. -/
def Memory.wfFrom : Nat → Memory → Bool
  | _, [] => true
  | lo, (a, v) :: m => decide (lo ≤ a) && decide (v ≠ Memory.unlisted) && Memory.wfFrom (a + 1) m

/-- The canonical form, in which equal memories are equal lists. -/
def Memory.wf (m : Memory) : Bool := Memory.wfFrom 0 m

/-- Every listed address exists: it is below `DCAP` (R40). -/
def Memory.within (c : Config) (m : Memory) : Bool := m.all fun cell => c.holds (cell.1 + 1)

end Sys2Proof.Machine
end

