-- ==== Sys2Proof/Machine/Operands.lean ====
section
/-! DEFINITION. The operands the commands act on (spec/30_encoding.md R62, spec/41_data_buffer.md R93,
spec/20_memory.md R41): the length byte `RDLEN` selects, the valid data, the processed key. The one operand form a word
carries is its byte `opd`, which the constructors of `Instr` hold as it stands. -/

namespace Sys2Proof.Machine

/-- `(DLEN div 256^i) mod 256`, byte `i` of a length, byte 0 the least significant (R46, R93). -/
def lengthByte (n : Nat) (i : Byte) : Byte := BitVec.ofNat 8 (n / 256 ^ i.toNat % 256)

/-- `data()`: the valid region `DMEM[0..DLEN)` (R41). -/
def data (s : State) : List Byte := s.dmem.readSeq 0 s.dlen

/-- The cipher key `k[0..16)`: `KREG[0], ..., KREG[15]` in that order (R21). -/
def cipherKey (s : State) : Block := s.kreg

/-- The number of whole blocks in the valid data, `DLEN div 16` (R144). -/
def blockCount (s : State) : Nat := s.dlen / 16

end Sys2Proof.Machine
end

