-- ==== Sys2Proof/Machine/Ops.lean ====
section
/-! DEFINITION. The shared operations the commands are made of: taking an input, answering, the updates of each register,
fault entry and the way out of the faulted state (spec/60_exceptions.md R190 to R200), and the engines that several
commands share (padding, unpadding, the block sequencer). -/

namespace Sys2Proof.Machine

/-! ## Codes and responses (R64, R65, R190) -/

/-- The code of a fault kind (R65, R190). -/
def FaultKind.code : FaultKind → Byte
  | .invalidInput => 0x01#8
  | .invalidPadding => 0x02#8
  | .invalidEncoding => 0x03#8
  | .cipherConstructionFailure => 0x04#8
  | .bufferOverflow => 0x08#8
  | .illegalCommand => 0x09#8

/-- `OK` (R65), also the no-fault value of `ERR`. -/
def codeOK : Byte := 0x00#8

/-- `EMPTY` (R65, R197): information, not a fault. -/
def codeEMPTY : Byte := 0x40#8

/-- `code * 256 + data` (R64). -/
def responseWord (code data : Byte) : ResponseWord := code ++ data

/-! ## Updates -/

/-- `respond(code, data)` (R12, R64): the one response of a command, after all earlier ones. -/
def answer (code data : Byte) (s : State) : State := { s with responses := s.responses ++ [responseWord code data] }

/-- The answer of a command that succeeds and returns no byte (R64). -/
def answerOK (s : State) : State := answer codeOK 0x00#8 s

/-- `ERR <- c` (R28). -/
def setErr (c : Byte) (s : State) : State := { s with err := c }

/-- Write the key state: `KREG`, `KIDX`, `KVALID` (R21 to R23). -/
def setKey (kreg : Block) (kidx : BitVec 4) (kvalid : Bool) (s : State) : State :=
  { s with kreg := kreg, kidx := kidx, kvalid := kvalid }

/-- Write `DMEM` (R24). -/
def setDmem (m : Memory) (s : State) : State := { s with dmem := m }

/-- `DLEN <- n` (R25). -/
def setDlen (n : Nat) (s : State) : State := { s with dlen := n }

/-- `RPTR <- n` (R26). -/
def setRptr (n : Nat) (s : State) : State := { s with rptr := n }

/-- The host's remaining inputs. -/
def setInputs (l : List HostInput) (s : State) : State := { s with inputs := l }

/-- Take the next input off the host's list, if there is one (R52: strictly one at a time, in order). -/
def takeInput (s : State) : Option (HostInput × State) :=
  match s.inputs with
  | [] => none
  | x :: rest => some (x, setInputs rest s)

/-- Put a command word where the next step takes it from. -/
def offerWord (w : CommandWord) (s : State) : State := setInputs (.command w :: s.inputs) s

/-! ## Faults (R198 to R200) -/

/-- Fault entry, `raise <Kind>` (R198): `ERR <- c`, `respond(c, 0x00)`, and nothing else. -/
def raiseFault (k : FaultKind) (s : State) : State := answer k.code 0x00#8 (setErr k.code s)

/-- The answer to a word that is ignored in the faulted state: `respond(ERR, 0x00)`, no state change (R199). -/
def ignoreWord (s : State) : State := answer s.err 0x00#8 s

/-- Run a command's own rule in the non-faulted state, ignore the word in the faulted state (R66 step 3, R199). -/
def unlessFaulted (body : State → State) (s : State) : State := if s.err = 0x00#8 then body s else ignoreWord s

/-- A reserved encoding: `raise IllegalCommand` (R66 step 4, R67, R196), ignored in the faulted state (R66 step 3). -/
def reservedWord (s : State) : State := unlessFaulted (raiseFault .illegalCommand) s

/-- The way out of the faulted state, and the wipe of all seven items (R33, R166, R200, R215). The host's inputs still
to come and the responses already given are not touched (R216). -/
def wipe (s : State) : State :=
  { State.resetOf s.cfg with inputs := s.inputs, responses := s.responses }

/-- The hardware reset input (R215, R216): the reset state, and no response word. -/
def hardwareReset (s : State) : State := wipe s

/-- What a step does when the host has sent nothing: no step happens without a command (R14), the CORE is idle (R210). -/
def idle (s : State) : State := s

/-! ## Engines -/

/-- `DLEN == DCAP` (R91, R104, R152); never true of an unbounded buffer (R7). -/
def bufferFull (s : State) : Bool := s.cfg.dcap == some s.dlen

/-- Fold one key byte: `KREG[KIDX] <- KREG[KIDX] xor b`, `KIDX <- (KIDX + 1) mod 16`, `KVALID <- 1` (R83). -/
def foldByte (b : Byte) (s : State) : State :=
  setKey (s.kreg.put s.kidx.toNat (s.kreg.byte s.kidx.toNat ^^^ b)) (s.kidx + 1#4) true s

/-- Clear the key state (R82). -/
def clearKey (s : State) : State := setKey (Block.rep 0x00#8) 0x0#4 false s

/-- Write the pad bytes at `DLEN`, raise `DLEN` by `padLen`, and `RPTR <- 0` (R104). -/
def padInPlace (s : State) : State :=
  setRptr 0 (setDlen (s.dlen + padLen s.dlen) (setDmem (s.dmem.writeSeq s.dlen (padBytes s.dlen)) s))

/-- The length of the padding trailer that ends `DMEM[0..n)`, if the three tests of R105 pass. -/
def trailer (m : Memory) (n : Nat) : Option Nat :=
  if n = 0 then none
  else
    let last := m.read (n - 1)
    if last.toNat = 0 ∨ n < last.toNat then none
    else if (List.range last.toNat).all (fun i => m.read (n - 1 - i) == last) then some last.toNat
    else none

/-- The tests and the effect of R105: drop the trailer and `RPTR <- 0`, or `raise InvalidPadding`. -/
def unpadInPlace (s : State) : State :=
  match trailer s.dmem s.dlen with
  | none => raiseFault .invalidPadding s
  | some p => answerOK (setRptr 0 (setDlen (s.dlen - p) s))

/-- The block sequencer: transform every block of the valid data in place, and `RPTR <- 0` (R142 to R144). -/
def ecbInPlace (f : Block → Block) (s : State) : State :=
  setRptr 0 (setDmem (s.dmem.mapBlocks f (blockCount s)) s)

end Sys2Proof.Machine
end

