-- ==== Sys2Proof/Machine/Composite.lean ====
section
/-! DEFINITION. The composite commands `ENCRYPT`, `DECRYPT` (spec/45_encrypt_decrypt.md R152, R153). -/

namespace Sys2Proof.Machine

/-- The rule of `ENCRYPT` in the non-faulted state (R152): the two tests, then exactly as `PAD`, then exactly as
`ECBENC`. -/
def encryptBody (s : State) : State :=
  if s.dlen = 0 ∨ s.kvalid = false then raiseFault .invalidInput s
  else if bufferFull s then raiseFault .bufferOverflow s
  else answerOK (ecbInPlace (aesEncBlock (cipherKey s)) (padInPlace s))

/-- `ENCRYPT` (R152). -/
def execEncrypt (s : State) : Out := .next (unlessFaulted encryptBody s)

/-- The rule of `DECRYPT` in the non-faulted state (R153): the tests, then exactly as `ECBDEC`, then exactly as `UNPAD`.
When the padding is bad the decrypted blocks stay and `RPTR` is 0 (R153, R198, spec/90_conflicts.md C8). -/
def decryptBody (s : State) : State :=
  if s.dlen = 0 ∨ s.kvalid = false ∨ s.dlen % 16 ≠ 0 then raiseFault .invalidInput s
  else unpadInPlace (ecbInPlace (aesDecBlock (cipherKey s)) s)

/-- `DECRYPT` (R153). -/
def execDecrypt (s : State) : Out := .next (unlessFaulted decryptBody s)

end Sys2Proof.Machine
end

