-- ==== Sys2Proof/Machine/Control.lean ====
section
/-! DEFINITION. The control commands `NOP`, `RST`, `STAT` (spec/46_control.md R165 to R167). -/

namespace Sys2Proof.Machine

/-- `NOP` (R165): `respond(OK, 0x00)`, no state change. -/
def execNop (s : State) : Out := .next (unlessFaulted answerOK s)

/-- `RST` (R166): all state to reset, in every state, the faulted one too (R66 step 2). -/
def execRst (s : State) : Out := .next (answerOK (wipe s))

/-- `STAT` (R167): `respond(ERR, flags())`, in the faulted state too (R199). -/
def execStat (s : State) : Out := .next (answer s.err (flags s) s)

end Sys2Proof.Machine
end

