-- ==== Sys2Proof/Machine/DataBuffer.lean ====
section
/-! DEFINITION. The data buffer commands `DCLR`, `DPUSH`, `DPOP`, `RDLEN` (spec/41_data_buffer.md R90 to R93). -/

namespace Sys2Proof.Machine

/-- `DCLR` (R90): the bytes of `DMEM` are kept. -/
def execDclr (s : State) : Out := .next (unlessFaulted (fun s => answerOK (setRptr 0 (setDlen 0 s))) s)

/-- The rule of `DPUSH b` in the non-faulted state (R91). -/
def dpushBody (b : Byte) (s : State) : State :=
  if bufferFull s then raiseFault .bufferOverflow s
  else answerOK (setDlen (s.dlen + 1) (setDmem (s.dmem.write s.dlen b) s))

/-- `DPUSH b` (R91). -/
def execDpush (b : Byte) (s : State) : Out := .next (unlessFaulted (dpushBody b) s)

/-- The rule of `DPOP` in the non-faulted state (R92). -/
def dpopBody (s : State) : State :=
  if s.dlen ≤ s.rptr then answer codeEMPTY 0x00#8 s
  else answer codeOK (s.dmem.read s.rptr) (setRptr (s.rptr + 1) s)

/-- `DPOP` (R92). -/
def execDpop (s : State) : Out := .next (unlessFaulted dpopBody s)

/-- `RDLEN i` (R93). -/
def execRdlen (i : Byte) (s : State) : Out := .next (unlessFaulted (fun s => answer codeOK (lengthByte s.dlen i) s) s)

end Sys2Proof.Machine
end

