-- ==== Sys2Proof/Machine/KeyFold.lean ====
section
/-! DEFINITION. The key-folding commands `KCLR`, `KPUSH` (spec/40_key_fold.md R82, R83). -/

namespace Sys2Proof.Machine

/-- `KCLR` (R82). -/
def execKclr (s : State) : Out := .next (unlessFaulted (fun s => answerOK (clearKey s)) s)

/-- `KPUSH b` (R83). -/
def execKpush (b : Byte) (s : State) : Out := .next (unlessFaulted (fun s => answerOK (foldByte b s)) s)

end Sys2Proof.Machine
end

