-- ==== Sys2Proof/Machine/Padding.lean ====
section
/-! DEFINITION. The PKCS#7 commands `PAD`, `UNPAD` (spec/42_pkcs7.md R104, R105). -/

namespace Sys2Proof.Machine

/-- The rule of `PAD` in the non-faulted state (R104). -/
def padBody (s : State) : State :=
  if bufferFull s then raiseFault .bufferOverflow s else answerOK (padInPlace s)

/-- `PAD` (R104). -/
def execPad (s : State) : Out := .next (unlessFaulted padBody s)

/-- `UNPAD` (R105). -/
def execUnpad (s : State) : Out := .next (unlessFaulted unpadInPlace s)

end Sys2Proof.Machine
end

