-- ==== Sys2Proof/Machine/Sequencer.lean ====
section
/-! DEFINITION. The ECB sequencer commands `ECBENC`, `ECBDEC` (spec/44_ecb_sequencer.md R142, R143). -/

namespace Sys2Proof.Machine

/-- The two tests and the effect R142 and R143 share; `f` is the block function under the cipher key. -/
def sequencerBody (f : Block → Block → Block) (s : State) : State :=
  if s.kvalid = false ∨ s.dlen % 16 ≠ 0 then raiseFault .invalidInput s
  else answerOK (ecbInPlace (f (cipherKey s)) s)

/-- `ECBENC` (R142). -/
def execEcbenc (s : State) : Out := .next (unlessFaulted (sequencerBody aesEncBlock) s)

/-- `ECBDEC` (R143). -/
def execEcbdec (s : State) : Out := .next (unlessFaulted (sequencerBody aesDecBlock) s)

end Sys2Proof.Machine
end

