-- ==== Sys2Proof/Machine/Dispatch.lean ====
section
/-! DEFINITION. The meaning of each command, one arm per constructor of `Instr`. -/

namespace Sys2Proof.Machine

def exec (i : Instr) (s : State) : Host.Outcome State Fault Refusal :=
  match i with
  | .nop => Sys2Proof.Machine.execNop s
  | .rst => Sys2Proof.Machine.execRst s
  | .stat => Sys2Proof.Machine.execStat s
  | .rdlen n => Sys2Proof.Machine.execRdlen n s
  | .kclr => Sys2Proof.Machine.execKclr s
  | .kpush b => Sys2Proof.Machine.execKpush b s
  | .dclr => Sys2Proof.Machine.execDclr s
  | .dpush b => Sys2Proof.Machine.execDpush b s
  | .dpop => Sys2Proof.Machine.execDpop s
  | .pad => Sys2Proof.Machine.execPad s
  | .unpad => Sys2Proof.Machine.execUnpad s
  | .ecbenc => Sys2Proof.Machine.execEcbenc s
  | .ecbdec => Sys2Proof.Machine.execEcbdec s
  | .encrypt => Sys2Proof.Machine.execEncrypt s
  | .decrypt => Sys2Proof.Machine.execDecrypt s

end Sys2Proof.Machine
end

