-- ==== Sys2Proof/Machine/Step.lean ====
section
/-! DEFINITION. One step of the CORE (spec/30_encoding.md R66, spec/20_memory.md R52): take the host's next input, decode
a command word, run the command or the reserved encoding; and the host's way to place a word. -/

namespace Sys2Proof.Machine

/-- One step: a command is performed whole, with its one response, before the next is looked at (R52). The order of
R66 is: decode here, `RST` in `execRst`, the faulted state in `unlessFaulted`, the reserved encoding in `reservedWord`. -/
def step (s : State) : Host.Outcome State Fault Refusal :=
  match takeInput s with
  | none => .next (idle s)
  | some (.reset _, t) => .next (hardwareReset t)
  | some (.command w, t) =>
    match decode w with
    | .command i => exec i t
    | .reserved _ => .next (reservedWord t)

/-- The state whose next step takes the given word off the command port (log 2). -/
def State.withFetchWord (s : State) (nbits w : Nat) : State := offerWord (tableWord nbits w) s

end Sys2Proof.Machine
end

