-- ==== Sys2Proof/Safety.lean ====
section
/-! DEFINITION. The terms claims are stated in: the invariant of spec/10_state.md R30, what two states share, what a
command answers, how a list of words is run, and the byte sequences a list of commands pushes. -/

namespace Sys2Proof.Machine

/-! ## The invariant -/

/-- The values `ERR` may hold (R28, R30 (d)). -/
def legalErr (c : Byte) : Bool := c == 0x00#8 || c == 0x01#8 || c == 0x02#8 || c == 0x08#8 || c == 0x09#8

/-- R30, with the capacity legal (R7) and the cell list in canonical form and below `DCAP` (R40, log 3). R30 (b) holds
by the type of `KIDX`. -/
structure CoreInv (s : State) : Prop where
  capacityLegal : s.cfg.legal = true
  memoryCanonical : s.dmem.wf = true
  memoryWithin : s.dmem.within s.cfg = true
  readPointerInData : s.rptr ≤ s.dlen
  dataFits : s.cfg.holds s.dlen = true
  emptyKeyIsZero : s.kvalid = false → s.kidx = 0x0#4 ∧ s.kreg = Block.rep 0x00#8
  errLegal : legalErr s.err = true

/-! ## What two states share -/

/-- The key state is the same. -/
def SameKey (s t : State) : Prop := t.kreg = s.kreg ∧ t.kidx = s.kidx ∧ t.kvalid = s.kvalid

/-- Every byte of `DMEM` reads the same. -/
def SameBytes (s t : State) : Prop := ∀ a, t.dmem.read a = s.dmem.read a

/-- The data buffer is the same: every byte, `DLEN` and `RPTR`. -/
def SameBuffer (s t : State) : Prop := SameBytes s t ∧ t.dlen = s.dlen ∧ t.rptr = s.rptr

/-- The command that led from `s` to `t` gave the one response `r`; the inputs still to come and the capacity are the
same. -/
def Answered (s t : State) (r : ResponseWord) : Prop :=
  t.responses = s.responses ++ [r] ∧ t.inputs = s.inputs ∧ t.cfg = s.cfg

/-- The seven items of R20 are at the values of R33. -/
def WipedClean (t : State) : Prop :=
  (∀ i < 16, t.kreg.byte i = 0x00#8) ∧ t.kidx = 0x0#4 ∧ t.kvalid = false ∧ (∀ a, t.dmem.read a = 0x00#8) ∧
    t.dlen = 0 ∧ t.rptr = 0 ∧ t.err = 0x00#8

/-- The state in which the last command only gave the response `r`. -/
def withResponse (s : State) (r : ResponseWord) : State := { s with responses := s.responses ++ [r] }

/-- The state in which the last command raised the fault of code `c` and did nothing else (R198). -/
def withFault (s : State) (c : Byte) : State := { s with err := c, responses := s.responses ++ [c ++ 0x00#8] }

/-- In the faulted state the command is ignored and answers with the fault code and data 0x00 (R199). -/
def IgnoredWhenFaulted (i : Instr) : Prop := ∀ s, s.err ≠ 0x00#8 → exec i s = .next (withResponse s (s.err ++ 0x00#8))

/-! ## Runs -/

/-- The host sends the words and takes the responses (R14, R52): one step a word, from `s`, with nothing else to come. -/
def submit (ws : List CommandWord) (s : State) : Out :=
  Host.Core.run Sys2Proof.core ws.length { s with inputs := ws.map .command }

/-- The bytes a list of commands pushes into the key, in order. -/
def keyPushed : List Instr → List Byte
  | [] => []
  | .kpush b :: is => b :: keyPushed is
  | _ :: is => keyPushed is

/-- The bytes a list of commands pushes into the data buffer, in order. -/
def dataPushed : List Instr → List Byte
  | [] => []
  | .dpush b :: is => b :: dataPushed is
  | _ :: is => dataPushed is

/-- The words of `KEY key` (R71). -/
def keyWordsFor (key : List Byte) : List CommandWord := key.map fun b => encode (.kpush b)

/-- The words of `DATA d` (R71). -/
def dataWordsFor (d : List Byte) : List CommandWord := d.map fun b => encode (.dpush b)

/-- The words of `READ n` (R71). -/
def readWords (n : Nat) : List CommandWord := List.replicate n (encode .dpop)

/-- The words of `LEN32` (R71). -/
def len32Words : List CommandWord := [encode (.rdlen 0), encode (.rdlen 1), encode (.rdlen 2), encode (.rdlen 3)]

/-- The responses that carry the bytes `d`, each with code `OK` (R64). -/
def okBytes (d : List Byte) : List ResponseWord := d.map fun b => 0x00#8 ++ b

/-! ## Padding -/

/-- The causes of `InvalidPadding` on a byte sequence (R192): it is empty, its last byte is 0 or more than its length,
or one of its last `padLen` bytes differs from `padLen`. -/
def BadTrailer (d : List Byte) : Prop :=
  d.length = 0 ∨ (d.getD (d.length - 1) 0x00#8).toNat = 0 ∨ d.length < (d.getD (d.length - 1) 0x00#8).toNat ∨
    ∃ i < (d.getD (d.length - 1) 0x00#8).toNat, d.getD (d.length - 1 - i) 0x00#8 ≠ d.getD (d.length - 1) 0x00#8

end Sys2Proof.Machine
end

