-- ==== Sys2Proof/Certificates/Slice0/Obligations.lean ====
section
/-! DEFINITION. The statements for the provers, from the numbered rules of spec/. -/

open Sys2Proof Sys2Proof.Machine

/-! ## Encoding (spec/30_encoding.md) -/

/-- R61, R63: decoding the word of a command gives the command back, and a word that decodes to a command is the word of
that command. -/
def Obligations.DecodeAndEncodeAgree : Prop :=
  (∀ i : Instr, i.wellFormed = true → decode (encode i) = .command i) ∧
  ∀ (w : CommandWord) (i : Instr), decode w = .command i → i.wellFormed = true ∧ encode i = w

/-- R63: the fifteen rows, written out here as (match, mask, command of the operand byte): a word is a command's exactly
when `w & mask == match`, no two rows select one word, and a word no row selects is reserved. -/
def Obligations.OpcodeMapRowsSelectTheCommands : Prop :=
  let rows : List (CommandWord × CommandWord × (Byte → Instr)) :=
    [(0x0000#16, 0xFFFF#16, fun _ => .nop), (0x0100#16, 0xFFFF#16, fun _ => .rst),
     (0x0200#16, 0xFFFF#16, fun _ => .stat), (0x0300#16, 0xFF00#16, fun i => .rdlen i),
     (0x1000#16, 0xFFFF#16, fun _ => .kclr), (0x1100#16, 0xFF00#16, fun b => .kpush b),
     (0x2000#16, 0xFFFF#16, fun _ => .dclr), (0x2100#16, 0xFF00#16, fun b => .dpush b),
     (0x2200#16, 0xFFFF#16, fun _ => .dpop), (0x3000#16, 0xFFFF#16, fun _ => .pad),
     (0x3100#16, 0xFFFF#16, fun _ => .unpad), (0x4000#16, 0xFFFF#16, fun _ => .ecbenc),
     (0x4100#16, 0xFFFF#16, fun _ => .ecbdec), (0x5000#16, 0xFFFF#16, fun _ => .encrypt),
     (0x5100#16, 0xFFFF#16, fun _ => .decrypt)]
  (∀ w : CommandWord, ∀ r ∈ rows, w &&& r.2.1 = r.1 ↔ decode w = .command (r.2.2 (w.extractLsb' 0 8))) ∧
  rows.Pairwise (fun a b => ∀ w : CommandWord, ¬ (w &&& a.2.1 = a.1 ∧ w &&& b.2.1 = b.1)) ∧
  ∀ w : CommandWord, (∀ r ∈ rows, w &&& r.2.1 ≠ r.1) ↔ ∃ why, decode w = .reserved why

/-- R67: the reserved encodings are the words with an unassigned opcode (241 opcode values) and the words of the twelve
no-operand commands with a non-zero operand byte (255 each); in the non-faulted state each raises `IllegalCommand`:
`ERR <- 0x09`, response `0x0900`, no other state change. -/
def Obligations.ReservedEncodingsRaiseIllegalCommand : Prop :=
  let opcodes : List Byte :=
    [0x00#8, 0x01#8, 0x02#8, 0x03#8, 0x10#8, 0x11#8, 0x20#8, 0x21#8, 0x22#8, 0x30#8, 0x31#8, 0x40#8, 0x41#8, 0x50#8, 0x51#8]
  let noOperand : List Byte :=
    [0x00#8, 0x01#8, 0x02#8, 0x10#8, 0x20#8, 0x22#8, 0x30#8, 0x31#8, 0x40#8, 0x41#8, 0x50#8, 0x51#8]
  (∀ opc opd : Byte, decode (opc ++ opd) = .reserved .unassignedOpcode ↔ opc ∉ opcodes) ∧
  (∀ opc opd : Byte, decode (opc ++ opd) = .reserved .operandNotZero ↔ opc ∈ noOperand ∧ opd ≠ 0x00#8) ∧
  ((List.range 256).filter fun n => decide (BitVec.ofNat 8 n ∉ opcodes)).length = 241 ∧ 241 * 256 = 61696 ∧
  noOperand.length * 255 = 3060 ∧
  ∀ (s : State) (w : CommandWord) (rest : List HostInput) (why : ReservedWhy),
    s.inputs = .command w :: rest → decode w = .reserved why → s.err = 0x00#8 →
      step s = .next { s with inputs := rest, err := 0x09#8, responses := s.responses ++ [0x0900#16] }

/-- Words written out from the encodings of R61 and R63, one for each family, decode to the commands they stand for. -/
def Obligations.WordsOfEachFamilyDecode : Prop :=
  decode 0x0000#16 = .command .nop ∧ decode 0x0302#16 = .command (.rdlen 0x02#8) ∧
  decode 0x116D#16 = .command (.kpush 0x6D#8) ∧ decode 0x2148#16 = .command (.dpush 0x48#8) ∧
  decode 0x3100#16 = .command .unpad ∧ decode 0x4000#16 = .command .ecbenc ∧ decode 0x5100#16 = .command .decrypt ∧
  decode 0x0101#16 = .reserved .operandNotZero ∧ decode 0xFFFF#16 = .reserved .unassignedOpcode

/-! ## Steps and runs -/

/-- A command word the host sends that decodes to a command is executed as that command, with the word taken off the
host's list (R66 steps 1 and 5; the list is the model's, log 2). -/
def Obligations.StepRunsTheDecodedCommand : Prop :=
  ∀ (s : State) (w : CommandWord) (rest : List HostInput) (i : Instr),
    s.inputs = .command w :: rest → decode w = .command i → step s = exec i { s with inputs := rest }

/-- R229, R60: every step completes in a next state. It takes exactly one input; it gives exactly one response if that is
a command word and none otherwise; earlier responses and the capacity stay. With no input nothing changes (log 2). -/
def Obligations.EveryStepCompletesWithOneResponsePerCommand : Prop :=
  ∀ s : State, ∃ t : State, step s = .next t ∧ t.inputs = s.inputs.tail ∧ t.cfg = s.cfg ∧
    (s.inputs = [] → t = s) ∧
    (∀ w rest, s.inputs = .command w :: rest → ∃ r, t.responses = s.responses ++ [r]) ∧
    (∀ a rest, s.inputs = .reset a :: rest → t.responses = s.responses)

/-- R52: commands are executed strictly one at a time in the order received, so running `u ++ v` is running `u` and then
`v` from the state it leaves. -/
def Obligations.RunningAListIsRunningItsPartsInOrder : Prop :=
  ∀ (u v : List CommandWord) (s : State),
    ∃ t t' : State, submit u s = .next t ∧ submit v t = .next t' ∧ submit (u ++ v) s = .next t' ∧
      t'.responses.length = s.responses.length + u.length + v.length

/-! ## Reset and the invariant -/

/-- R33: the reset state has all seven items zero, for a CORE of any capacity and so for the model's `State.reset`; and both
resets, the `RST` command and the hardware reset input, leave them so. -/
def Obligations.ResetStateHoldsTheSpecValues : Prop :=
  (∀ c : Config, WipedClean (State.resetOf c)) ∧ WipedClean State.reset ∧
  (∀ s : State, ∃ t, exec .rst s = .next t ∧ WipedClean t) ∧
  ∀ (s : State) (a : Option CommandWord) (rest : List HostInput), s.inputs = .reset a :: rest →
    ∃ t, step s = .next t ∧ WipedClean t

/-- The invariant holds at reset, for every capacity R7 allows. R30's clauses are the spec's; that the cell list is in
canonical form and lists no address at or above `DCAP` is the model's choice (log 3, DESIGN CHOICE). -/
def Obligations.ResetStateMeetsTheInvariant : Prop := ∀ c : Config, c.legal = true → CoreInv (State.resetOf c)

/-- Every step, whatever the input, keeps the invariant, from every state that meets it; and so it holds in every state
reachable from reset, whatever the host does, for every capacity R7 allows. R30's clauses are the spec's; that the cell list
is in canonical form and lists no address at or above `DCAP` is the model's choice (log 3, DESIGN CHOICE). -/
def Obligations.EveryStepKeepsTheInvariant : Prop :=
  (∀ s t : State, CoreInv s → step s = .next t → CoreInv t) ∧
  ∀ (c : Config) (l : List HostInput) (k : Nat) (t : State), c.legal = true →
    Host.Core.run Sys2Proof.core k { State.resetOf c with inputs := l } = .next t → CoreInv t

/-- R215: the hardware reset input and the `RST` command have the same effect, the reset state; the hardware reset gives
no response word and `RST` gives `0x0000`. -/
def Obligations.HardwareResetAndRstLeaveTheSameState : Prop :=
  ∀ (s : State) (rest : List HostInput),
    (∀ a, s.inputs = .reset a :: rest → ∃ t, step s = .next t ∧ WipedClean t ∧ t.responses = s.responses ∧
      step { s with inputs := .command 0x0100#16 :: rest } = .next (withResponse t 0x0000#16))

/-- R216: a hardware reset asserted while a command executes abandons that command: the state afterwards is the reset
state, the command gives no response, and responses already given are not recalled. That the host's further inputs stay is
the model's choice (log 2, DESIGN CHOICE), and so is that the command is dropped whole (log 5, DEDUCED). -/
def Obligations.HardwareResetAbandonsTheCommand : Prop :=
  WipedClean State.reset ∧
  ∀ (s : State) (abandoned : Option CommandWord) (rest : List HostInput), s.inputs = .reset abandoned :: rest →
    step s = .next { State.resetOf s.cfg with inputs := rest, responses := s.responses }

/-! ## Control commands (spec/46_control.md) -/

/-- R165: `NOP`. -/
def Obligations.NopOnlyAnswers : Prop :=
  encode .nop = 0x0000#16 ∧ (∀ s : State, s.err = 0x00#8 → exec .nop s = .next (withResponse s 0x0000#16)) ∧
  IgnoredWhenFaulted .nop ∧ decode 0x0000#16 = .command .nop ∧ ∃ why, decode 0xFFFF#16 = .reserved why

/-- R166: `RST`, in every state. -/
def Obligations.RstWipesAllStateInEveryState : Prop :=
  encode .rst = 0x0100#16 ∧
  (∀ s : State, ∃ t, exec .rst s = .next t ∧ WipedClean t ∧ Answered s t 0x0000#16 ∧ flags t = 0x04#8 ∧
    exec .rst t = .next (withResponse t 0x0000#16)) ∧
  ∀ xx : Byte, xx ≠ 0x00#8 → ∃ why, decode (0x01#8 ++ xx) = .reserved why

/-- R167: `STAT` reports `ERR` and the flag byte in every state, and changes nothing. -/
def Obligations.StatReportsErrAndFlags : Prop :=
  encode .stat = 0x0200#16 ∧
  (∀ s : State, exec .stat s = .next (withResponse s (s.err ++ flags s))) ∧
  ∀ c : Config, exec .stat (State.resetOf c) = .next (withResponse (State.resetOf c) 0x0004#16)

/-- R29: the bits of the flag byte, and its value after reset. -/
def Obligations.FlagByteBits : Prop :=
  ∀ s : State, (flags s).getLsbD 0 = s.kvalid ∧ (flags s).getLsbD 1 = decide (s.dlen ≠ 0) ∧
    (flags s).getLsbD 2 = decide (s.dlen % 16 = 0) ∧ (flags s).getLsbD 3 = decide (s.rptr < s.dlen) ∧
    (flags s).extractLsb' 4 4 = s.kidx ∧
    (flags s).toNat = s.kvalid.toNat + 2 * (decide (s.dlen ≠ 0)).toNat + 4 * (decide (s.dlen % 16 = 0)).toNat +
      8 * (decide (s.rptr < s.dlen)).toNat + 16 * s.kidx.toNat ∧
    flags (State.resetOf s.cfg) = 0x04#8

/-! ## Key folding (spec/40_key_fold.md) -/

/-- R82: `KCLR`. -/
def Obligations.KclrClearsTheKeyState : Prop :=
  encode .kclr = 0x1000#16 ∧ IgnoredWhenFaulted .kclr ∧
  ∀ s : State, s.err = 0x00#8 → ∃ t, exec .kclr s = .next t ∧ (∀ i < 16, t.kreg.byte i = 0x00#8) ∧ t.kidx = 0x0#4 ∧
    t.kvalid = false ∧ SameBuffer s t ∧ t.err = 0x00#8 ∧ Answered s t 0x0000#16 ∧
    (∃ u, exec .kclr t = .next u ∧ SameKey t u) ∧
    ∀ i ∈ [Instr.ecbenc, .ecbdec, .encrypt, .decrypt], exec i t = .next (withFault t 0x01#8)

/-- R83: `KPUSH b`, for every byte. -/
def Obligations.KpushFoldsOneKeyByte : Prop :=
  ∀ b : Byte, (encode (.kpush b)).toNat = 0x1100 + b.toNat ∧ IgnoredWhenFaulted (.kpush b) ∧
  ∀ s : State, s.err = 0x00#8 → ∃ t, exec (.kpush b) s = .next t ∧
    t.kreg.byte s.kidx.toNat = s.kreg.byte s.kidx.toNat ^^^ b ∧
    (∀ i < 16, i ≠ s.kidx.toNat → t.kreg.byte i = s.kreg.byte i) ∧ t.kidx.toNat = (s.kidx.toNat + 1) % 16 ∧
    t.kvalid = true ∧ SameBuffer s t ∧ t.err = 0x00#8 ∧ Answered s t 0x0000#16

/-- R81: each byte of `fold_key(key)` is the exclusive-or of all `key[i]` with `i mod 16 == p`, 0x00 when there is none. -/
def Obligations.FoldKeyIsTheXorOfItsColumns : Prop :=
  ∀ (key : List Byte) (p : Nat), p < 16 → (foldKey key).byte p =
    ((List.range key.length).filter fun i => i % 16 == p).foldl (fun x i => x ^^^ key.getD i 0x00#8) 0x00#8

/-- R86: the corner cases of `fold_key`. -/
def Obligations.FoldKeyCornerCases : Prop :=
  (∀ K : Block, foldKey K.bytes = K) ∧
  (∀ b : Byte, (foldKey [b]).bytes = b :: List.replicate 15 0x00#8) ∧
  (∀ (K : Block) (b : Byte), foldKey (K.bytes ++ [b]) = K.put 0 (K.byte 0 ^^^ b)) ∧
  (∀ K : Block, foldKey (K.bytes ++ K.bytes) = Block.rep 0x00#8) ∧
  (∀ p : List Byte, ∀ K : Block, encryptCall p (K.bytes ++ K.bytes) = encryptCall p (List.replicate 16 0x00#8)) ∧
  (∀ A B : Block, foldKey (A.bytes ++ B.bytes) = A.xor B) ∧
  ∀ key : List Byte, foldKey (key ++ [0x00#8]) = foldKey key

/-- R84: after `KCLR` or a reset, the key state is `fold_key` of the bytes pushed, whatever other commands stand between
the pushes, as long as none of them faults. -/
def Obligations.KeyStreamLeavesTheFoldedKey : Prop :=
  ∀ (s : State) (first : Instr) (is : List Instr), first = .rst ∨ (first = .kclr ∧ s.err = 0x00#8) →
    (∀ i ∈ is, i ≠ .rst ∧ i ≠ .kclr) →
    ∃ t, submit (encode first :: is.map encode) s = .next t ∧
      (t.err = 0x00#8 → t.kreg = foldKey (keyPushed is) ∧ t.kidx.toNat = (keyPushed is).length % 16 ∧
        t.kvalid = decide (1 ≤ (keyPushed is).length)) ∧
      ((∀ i ∈ is, ∃ b, i = .kpush b) → t.err = 0x00#8)

/-! ## Data buffer (spec/41_data_buffer.md) -/

/-- R90: `DCLR`; the bytes of `DMEM` are not changed. -/
def Obligations.DclrEmptiesTheBuffer : Prop :=
  encode .dclr = 0x2000#16 ∧ IgnoredWhenFaulted .dclr ∧
  ∀ s : State, s.err = 0x00#8 → ∃ t, exec .dclr s = .next t ∧ t.dlen = 0 ∧ t.rptr = 0 ∧ SameBytes s t ∧ SameKey s t ∧
    t.err = 0x00#8 ∧ Answered s t 0x0000#16 ∧ (flags t).getLsbD 1 = false ∧ (flags t).getLsbD 2 = true ∧
    (flags t).getLsbD 3 = false

/-- R91: `DPUSH b` writes `b` at the address `DLEN` and nowhere else, or raises `BufferOverflow` when the buffer is full. -/
def Obligations.DpushAppendsOneByteOrOverflows : Prop :=
  ∀ b : Byte, (encode (.dpush b)).toNat = 0x2100 + b.toNat ∧ IgnoredWhenFaulted (.dpush b) ∧
  ∀ s : State, s.err = 0x00#8 →
    (s.cfg.dcap = some s.dlen → exec (.dpush b) s = .next (withFault s 0x08#8)) ∧
    (s.cfg.dcap ≠ some s.dlen → ∃ t, exec (.dpush b) s = .next t ∧ t.dmem.read s.dlen = b ∧
      (∀ a, a ≠ s.dlen → t.dmem.read a = s.dmem.read a) ∧ t.dlen = s.dlen + 1 ∧ data t = data s ++ [b] ∧
      t.rptr = s.rptr ∧ SameKey s t ∧ t.err = 0x00#8 ∧ Answered s t 0x0000#16)

/-- R92: `DPOP` returns `DMEM[RPTR]` and moves on, or answers `EMPTY` and changes nothing. -/
def Obligations.DpopReturnsTheNextByteOrEmpty : Prop :=
  encode .dpop = 0x2200#16 ∧ IgnoredWhenFaulted .dpop ∧
  ∀ s : State, s.err = 0x00#8 →
    (s.dlen ≤ s.rptr → exec .dpop s = .next (withResponse s 0x4000#16)) ∧
    (s.rptr < s.dlen → ∃ t, exec .dpop s = .next t ∧ Answered s t (0x00#8 ++ s.dmem.read s.rptr) ∧
      t.rptr = s.rptr + 1 ∧ SameBytes s t ∧ t.dlen = s.dlen ∧ SameKey s t ∧ t.err = 0x00#8)

/-- R93: `RDLEN i` returns byte `i` of `DLEN` for all 256 values of `i`, and changes nothing. -/
def Obligations.RdlenReturnsOneLengthByte : Prop :=
  ∀ i : Byte, (encode (.rdlen i)).toNat = 0x0300 + i.toNat ∧ IgnoredWhenFaulted (.rdlen i) ∧
  ∀ s : State, s.err = 0x00#8 →
    (∃ v : Byte, exec (.rdlen i) s = .next (withResponse s (0x00#8 ++ v)) ∧ v.toNat = s.dlen / 256 ^ i.toNat % 256) ∧
    (s.dlen < 256 ^ i.toNat → exec (.rdlen i) s = .next (withResponse s 0x0000#16))

/-- R46: a host that reads the length bytes 0, 1, 2, 3 assembles a little-endian 32-bit length. -/
def Obligations.LengthBytesAreLittleEndian : Prop :=
  ∀ s : State, s.err = 0x00#8 → s.dlen < 2 ^ 32 → ∃ b0 b1 b2 b3 : Byte,
    submit len32Words s =
      .next { s with inputs := [], responses := s.responses ++ okBytes [b0, b1, b2, b3] } ∧
    s.dlen = b0.toNat + 256 * b1.toNat + 65536 * b2.toNat + 16777216 * b3.toNat

/-- R94: pushing a byte sequence that fits into an emptied buffer leaves it as `data()`, whatever key commands, `STAT`,
`RDLEN` and `NOP` stand between; reading it out from `RPTR == 0` returns its bytes in order and then `EMPTY`; and those
commands do not disturb a read-out either: its `DPOP`s answer the same bytes, and then `EMPTY`. -/
def Obligations.DataStreamLoadsAndReadsBack : Prop :=
  let aside : Instr → Prop := fun i => i = .nop ∨ i = .stat ∨ (∃ n, i = .rdlen n) ∨ i = .kclr ∨ ∃ b, i = .kpush b
  (∀ (s : State) (first : Instr) (is : List Instr), first = .rst ∨ (first = .dclr ∧ s.err = 0x00#8) →
    (∀ i ∈ is, aside i ∨ ∃ b, i = .dpush b) → s.cfg.holds (dataPushed is).length = true →
    ∃ t, submit (encode first :: is.map encode) s = .next t ∧ data t = dataPushed is ∧
      t.dlen = (dataPushed is).length ∧ t.rptr = 0 ∧ t.err = 0x00#8) ∧
  (∀ s : State, s.err = 0x00#8 → s.rptr = 0 →
    ∃ t, submit (readWords (s.dlen + 1)) s = .next t ∧
      t.responses = s.responses ++ okBytes (data s) ++ [0x4000#16] ∧ data t = data s ∧ t.rptr = s.dlen) ∧
  ∀ (s : State) (is : List Instr), s.err = 0x00#8 → s.rptr = 0 → (∀ i ∈ is, aside i ∨ i = .dpop) →
    ∃ t rs, submit (is.map encode) s = .next t ∧ data t = data s ∧ t.err = 0x00#8 ∧
      t.rptr = min s.dlen (is.filter fun i => i == .dpop).length ∧
      t.responses = s.responses ++ rs ∧ rs.length = is.length ∧
      (((is.zip rs).filter fun x => x.1 == .dpop).map fun x => x.2) =
        (okBytes (data s) ++ List.replicate is.length 0x4000#16).take (is.filter fun i => i == .dpop).length

/-! ## Padding (spec/42_pkcs7.md) -/

/-- R101: the properties of `pad`. -/
def Obligations.PadLengthAndShape : Prop :=
  (∀ d : List Byte, ∃ n, 1 ≤ n ∧ n ≤ 16 ∧ (pad d).length = d.length + n ∧
    pad d = d ++ List.replicate n (BitVec.ofNat 8 n) ∧ (pad d).length = 16 * (d.length / 16 + 1) ∧
    (d.length % 16 = 0 → n = 16)) ∧
  pad [] = List.replicate 16 0x10#8

/-- R102, R103: `unpad` accepts exactly the sequences that end in `padLen` bytes equal to `padLen`, `padLen` from 1 to
255 with no other bound and at any length, returns what stands before them, and fails with `InvalidPadding` otherwise. -/
def Obligations.UnpadAcceptsExactlyTheTrailers : Prop :=
  (∀ d r : List Byte, unpad d = .bytes r ↔
    ∃ n, 1 ≤ n ∧ n ≤ 255 ∧ d = r ++ List.replicate n (BitVec.ofNat 8 n)) ∧
  (∀ d : List Byte, unpad d = .error .invalidPadding ↔ BadTrailer d) ∧
  (∀ (d : List Byte) (k : FaultKind), unpad d = .error k → k = .invalidPadding) ∧
  unpad (List.replicate 15 0x41#8 ++ List.replicate 17 0x11#8) = .bytes (List.replicate 15 0x41#8)

/-- R106: `unpad(pad(data)) == data` for all `data`; the converse does not hold. -/
def Obligations.UnpadUndoesPad : Prop :=
  (∀ d : List Byte, unpad (pad d) = .bytes d) ∧ ∃ x y : List Byte, unpad x = .bytes y ∧ pad y ≠ x

/-- R104: `PAD` writes the pad bytes at the addresses `DLEN .. DLEN + padLen - 1` and nowhere else, or raises
`BufferOverflow` when the buffer is full; it needs no key. -/
def Obligations.PadCommandAppendsThePadding : Prop :=
  encode .pad = 0x3000#16 ∧ IgnoredWhenFaulted .pad ∧
  ∀ s : State, s.err = 0x00#8 →
    (s.cfg.dcap = some s.dlen → exec .pad s = .next (withFault s 0x08#8)) ∧
    (s.cfg.dcap ≠ some s.dlen → ∃ t n, n = 16 - s.dlen % 16 ∧ exec .pad s = .next t ∧ t.dlen = s.dlen + n ∧
      (∀ a, t.dmem.read a =
        if s.dlen ≤ a ∧ a < s.dlen + n then BitVec.ofNat 8 n else s.dmem.read a) ∧
      data t = pad (data s) ∧ t.rptr = 0 ∧ SameKey s t ∧ t.err = 0x00#8 ∧ Answered s t 0x0000#16 ∧
      (flags t).getLsbD 1 = true ∧ (flags t).getLsbD 2 = true ∧
      (s.cfg.legal = true → s.cfg.holds s.dlen = true → t.cfg.holds t.dlen = true))

/-- R105: `UNPAD` drops a well-formed trailer from the length only, or raises `InvalidPadding`; no byte of `DMEM` changes. -/
def Obligations.UnpadCommandDropsTheTrailer : Prop :=
  encode .unpad = 0x3100#16 ∧ IgnoredWhenFaulted .unpad ∧
  ∀ s : State, s.err = 0x00#8 →
    (BadTrailer (data s) → exec .unpad s = .next (withFault s 0x02#8)) ∧
    (¬ BadTrailer (data s) → ∃ t, exec .unpad s = .next t ∧
      t.dlen + (s.dmem.read (s.dlen - 1)).toNat = s.dlen ∧ unpad (data s) = .bytes (data t) ∧ t.rptr = 0 ∧
      SameBytes s t ∧ SameKey s t ∧ t.err = 0x00#8 ∧ Answered s t 0x0000#16)

/-! ## The block cipher (spec/43_aes128_block.md) -/

/-- R112: the laws and the check values of multiplication in GF(2^8). -/
def Obligations.FieldMultiplicationLaws : Prop :=
  (∀ a b : Byte, gmul a b = gmul b a) ∧ (∀ a b c : Byte, gmul (gmul a b) c = gmul a (gmul b c)) ∧
  (∀ a b c : Byte, gmul a (b ^^^ c) = gmul a b ^^^ gmul a c) ∧ (∀ a : Byte, gmul a 0x01#8 = a) ∧
  (∀ a : Byte, gmul a 0x00#8 = 0x00#8) ∧ (∀ a : Byte, a ≠ 0x00#8 → ∃! b : Byte, gmul a b = 0x01#8) ∧
  (∀ a : Byte, gmul a 0x02#8 = xtime a) ∧
  (∀ a : Byte, (xtime a).toNat = if a.toNat < 0x80 then a.toNat * 2 % 256 else (a.toNat * 2 % 256) ^^^ 0x1B) ∧
  gmul 0x57#8 0x83#8 = 0xC1#8 ∧ gmul 0x57#8 0x13#8 = 0xFE#8 ∧ gmul 0x57#8 0x02#8 = 0xAE#8 ∧
  gmul 0x80#8 0x02#8 = 0x1B#8 ∧ gmul 0x53#8 0xCA#8 = 0x01#8 ∧ gmul 0xFF#8 0xFF#8 = 0x13#8

/-- R113, R114, R115: `SBOX` by the formula over the field inverse, a permutation without fixed point; `INV_SBOX` its
inverse; the ten round constants. -/
def Obligations.CipherTablesMatchTheirDefinitions : Prop :=
  (∀ x : Byte, ∃ y : Byte, (if x = 0x00#8 then y = 0x00#8 else gmul x y = 0x01#8) ∧
    sbox x = y ^^^ y.rotateLeft 1 ^^^ y.rotateLeft 2 ^^^ y.rotateLeft 3 ^^^ y.rotateLeft 4 ^^^ 0x63#8) ∧
  Function.Bijective sbox ∧ (∀ x : Byte, sbox x ≠ x) ∧ sbox 0x53#8 = 0xED#8 ∧
  (∀ x : Byte, invSbox (sbox x) = x ∧ sbox (invSbox x) = x) ∧ invSbox 0xED#8 = 0x53#8 ∧
  (List.range 10).map (fun j => rcon (j + 1)) =
    [0x01#8, 0x02#8, 0x04#8, 0x08#8, 0x10#8, 0x20#8, 0x40#8, 0x80#8, 0x1B#8, 0x36#8] ∧
  ∀ j, 1 ≤ j → rcon (j + 1) = xtime (rcon j)

/-- R116: the 44 words of the key expansion byte by byte, the eleven round keys, `rk[0] == k`, and R116's example. -/
def Obligations.KeyExpansionFollowsTheRecurrence : Prop :=
  (∀ k : Block, ∃ w : Nat → Nat → Byte,
    (∀ i < 4, ∀ r < 4, w i r = k.byte (4 * i + r)) ∧
    (∀ i, 4 ≤ i → i < 44 → i % 4 = 0 →
      w i 0 = w (i - 4) 0 ^^^ (sbox (w (i - 1) 1) ^^^ rcon (i / 4)) ∧ w i 1 = w (i - 4) 1 ^^^ sbox (w (i - 1) 2) ∧
      w i 2 = w (i - 4) 2 ^^^ sbox (w (i - 1) 3) ∧ w i 3 = w (i - 4) 3 ^^^ sbox (w (i - 1) 0)) ∧
    (∀ i, 4 ≤ i → i < 44 → i % 4 ≠ 0 → ∀ r < 4, w i r = w (i - 4) r ^^^ w (i - 1) r) ∧
    (∀ r ≤ 10, ∀ i < 16, (roundKey (keyWords k) r).byte i = w (4 * r + i / 4) (i % 4)) ∧
    roundKey (keyWords k) 0 = k) ∧
  let k : Block := Block.make (BitVec.ofNat 8)
  (roundKey (keyWords k) 1).bytes =
    [0xD6#8, 0xAA#8, 0x74#8, 0xFD#8, 0xD2#8, 0xAF#8, 0x72#8, 0xFA#8, 0xDA#8, 0xA6#8, 0x78#8, 0xF1#8, 0xD6#8, 0xAB#8, 0x76#8, 0xFE#8] ∧
  (roundKey (keyWords k) 10).bytes =
    [0x13#8, 0x11#8, 0x1D#8, 0x7F#8, 0xE3#8, 0x94#8, 0x4A#8, 0x17#8, 0xF3#8, 0x07#8, 0xA7#8, 0x8B#8, 0x4D#8, 0x2B#8, 0x30#8, 0xC5#8]

/-- R117, R118, R119: `AddRoundKey`, `SubBytes`, `ShiftRows` and their inverses byte by byte, with the permutations `P`
and `Q` of R119, and that each undoes its inverse. -/
def Obligations.RoundFunctionsActByteByByte : Prop :=
  let P : List Nat := [0, 5, 10, 15, 4, 9, 14, 3, 8, 13, 2, 7, 12, 1, 6, 11]
  let Q : List Nat := [0, 13, 10, 7, 4, 1, 14, 11, 8, 5, 2, 15, 12, 9, 6, 3]
  (∀ s k : Block, (∀ i < 16, (addRoundKey s k).byte i = s.byte i ^^^ k.byte i) ∧ addRoundKey (addRoundKey s k) k = s) ∧
  (∀ s : Block, ∀ i < 16, (subBytes s).byte i = sbox (s.byte i) ∧ (invSubBytes s).byte i = invSbox (s.byte i)) ∧
  (∀ s : Block, ∀ r < 4, ∀ c < 4, (shiftRows s).byte (r + 4 * c) = s.byte (r + 4 * ((c + r) % 4)) ∧
    (invShiftRows s).byte (r + 4 * ((c + r) % 4)) = s.byte (r + 4 * c)) ∧
  (∀ s : Block, ∀ i < 16, (shiftRows s).byte i = s.byte (P.getD i 0) ∧ (invShiftRows s).byte i = s.byte (Q.getD i 0)) ∧
  (∀ s : Block, invShiftRows (shiftRows s) = s ∧ shiftRows (invShiftRows s) = s) ∧
  shiftRows (Block.make (BitVec.ofNat 8)) = Block.make fun i => BitVec.ofNat 8 (P.getD i 0)

/-- R120: `MixColumns` and `InvMixColumns` column by column, that the second undoes the first, and R120's examples. -/
def Obligations.MixColumnsAndItsInverse : Prop :=
  (∀ s : Block, ∀ c < 4, ∀ a0 a1 a2 a3 : Byte, a0 = s.byte (4 * c) → a1 = s.byte (4 * c + 1) → a2 = s.byte (4 * c + 2) →
    a3 = s.byte (4 * c + 3) →
    (mixColumns s).byte (4 * c) = gmul a0 2 ^^^ gmul a1 3 ^^^ a2 ^^^ a3 ∧
    (mixColumns s).byte (4 * c + 1) = a0 ^^^ gmul a1 2 ^^^ gmul a2 3 ^^^ a3 ∧
    (mixColumns s).byte (4 * c + 2) = a0 ^^^ a1 ^^^ gmul a2 2 ^^^ gmul a3 3 ∧
    (mixColumns s).byte (4 * c + 3) = gmul a0 3 ^^^ a1 ^^^ a2 ^^^ gmul a3 2 ∧
    (invMixColumns s).byte (4 * c) = gmul a0 14 ^^^ gmul a1 11 ^^^ gmul a2 13 ^^^ gmul a3 9 ∧
    (invMixColumns s).byte (4 * c + 1) = gmul a0 9 ^^^ gmul a1 14 ^^^ gmul a2 11 ^^^ gmul a3 13 ∧
    (invMixColumns s).byte (4 * c + 2) = gmul a0 13 ^^^ gmul a1 9 ^^^ gmul a2 14 ^^^ gmul a3 11 ∧
    (invMixColumns s).byte (4 * c + 3) = gmul a0 11 ^^^ gmul a1 13 ^^^ gmul a2 9 ^^^ gmul a3 14) ∧
  (∀ s : Block, invMixColumns (mixColumns s) = s) ∧
  (mixColumns #v[0xDB#8, 0x13#8, 0x53#8, 0x45#8, 0xF2#8, 0x0A#8, 0x22#8, 0x5C#8, 0x01#8, 0x01#8, 0x01#8, 0x01#8,
      0xC6#8, 0xC6#8, 0xC6#8, 0xC6#8]).bytes =
    [0x8E#8, 0x4D#8, 0xA1#8, 0xBC#8, 0x9F#8, 0xDC#8, 0x58#8, 0x9D#8, 0x01#8, 0x01#8, 0x01#8, 0x01#8,
      0xC6#8, 0xC6#8, 0xC6#8, 0xC6#8]

/-- R121, R125, R126: the two block functions round by round, `x r` the state after round `r` of `AesEncBlock` and `y r` the
state after step `r` of `AesDecBlock`, counted down from 10; the examples of R121 and R125; and for every key the two undo
each other and `AesEncBlock(k, .)` is a permutation of the blocks. -/
def Obligations.BlockCipherDirectionsUndoEachOther : Prop :=
  (∀ k b : Block, ∃ x : Nat → Block,
    x 0 = addRoundKey b (roundKey (keyWords k) 0) ∧
    (∀ r, 1 ≤ r → r ≤ 9 →
      x r = addRoundKey (mixColumns (shiftRows (subBytes (x (r - 1))))) (roundKey (keyWords k) r)) ∧
    aesEncBlock k b = addRoundKey (shiftRows (subBytes (x 9))) (roundKey (keyWords k) 10)) ∧
  (∀ k b : Block, ∃ y : Nat → Block,
    y 10 = addRoundKey b (roundKey (keyWords k) 10) ∧
    (∀ r, 1 ≤ r → r ≤ 9 →
      y r = invMixColumns (addRoundKey (invSubBytes (invShiftRows (y (r + 1)))) (roundKey (keyWords k) r))) ∧
    aesDecBlock k b = addRoundKey (invSubBytes (invShiftRows (y 1))) (roundKey (keyWords k) 0)) ∧
  (∀ k : Block, (∀ b : Block, aesDecBlock k (aesEncBlock k b) = b) ∧ (∀ b : Block, aesEncBlock k (aesDecBlock k b) = b) ∧
    Function.Bijective (aesEncBlock k)) ∧
  let k : Block := Block.make (BitVec.ofNat 8)
  let b : Block := Block.make fun i => BitVec.ofNat 8 (0x11 * i)
  (aesEncBlock k b).bytes =
    [0x69#8, 0xC4#8, 0xE0#8, 0xD8#8, 0x6A#8, 0x7B#8, 0x04#8, 0x30#8, 0xD8#8, 0xCD#8, 0xB7#8, 0x80#8, 0x70#8, 0xB4#8, 0xC5#8, 0x5A#8] ∧
  (aesEncBlock (Block.rep 0x00#8) (Block.rep 0x00#8)).bytes =
    [0x66#8, 0xE9#8, 0x4B#8, 0xD4#8, 0xEF#8, 0x8A#8, 0x2C#8, 0x3B#8, 0x88#8, 0x4C#8, 0xFA#8, 0x59#8, 0xCA#8, 0x34#8, 0x2B#8, 0x2E#8] ∧
  aesDecBlock k #v[0x69#8, 0xC4#8, 0xE0#8, 0xD8#8, 0x6A#8, 0x7B#8, 0x04#8, 0x30#8, 0xD8#8, 0xCD#8, 0xB7#8, 0x80#8, 0x70#8, 0xB4#8, 0xC5#8, 0x5A#8] = b

/-! ## The block sequencer (spec/44_ecb_sequencer.md) -/

/-- R140, R145: `EcbEnc` keeps the length and works block by block: block `j` of the output is `AesEncBlock` of block `j`
of the input and depends on nothing else, so equal blocks give equal blocks. -/
def Obligations.EcbWorksBlockByBlock : Prop :=
  ∀ (k : Block) (d : List Byte), d.length % 16 = 0 → (ecbEnc k d).length = d.length ∧
    (∀ j < d.length / 16, blockAt (ecbEnc k d) j = aesEncBlock k (blockAt d j)) ∧
    ∀ e : List Byte, e.length % 16 = 0 → ∀ i < d.length / 16, ∀ j < e.length / 16, blockAt d i = blockAt e j →
      blockAt (ecbEnc k d) i = blockAt (ecbEnc k e) j

/-- R141: `EcbDec` is `AesDecBlock` block by block, and it and `EcbEnc` undo each other on aligned sequences. -/
def Obligations.EcbDirectionsUndoEachOther : Prop :=
  ∀ (k : Block) (d : List Byte), d.length % 16 = 0 →
    (∀ j < d.length / 16, blockAt (ecbDec k d) j = aesDecBlock k (blockAt d j)) ∧ (ecbDec k d).length = d.length ∧
    ecbDec k (ecbEnc k d) = d ∧ ecbEnc k (ecbDec k d) = d

/-- R142: `ECBENC` encrypts every block of the valid data in place and touches no byte at or above `DLEN`, or raises
`InvalidInput` for an empty key or a misaligned length; `DLEN == 0` is legal. -/
def Obligations.EcbencEncryptsTheDataInPlace : Prop :=
  encode .ecbenc = 0x4000#16 ∧ IgnoredWhenFaulted .ecbenc ∧
  ∀ s : State, s.err = 0x00#8 →
    (s.kvalid = false ∨ s.dlen % 16 ≠ 0 → exec .ecbenc s = .next (withFault s 0x01#8)) ∧
    (s.kvalid = true → s.dlen % 16 = 0 → ∃ t, exec .ecbenc s = .next t ∧ data t = ecbEnc s.kreg (data s) ∧
      (∀ j < s.dlen / 16, t.dmem.readBlock j = aesEncBlock s.kreg (s.dmem.readBlock j)) ∧
      (∀ a, s.dlen ≤ a → t.dmem.read a = s.dmem.read a) ∧ t.dlen = s.dlen ∧ t.rptr = 0 ∧ SameKey s t ∧
      t.err = 0x00#8 ∧ Answered s t 0x0000#16)

/-- R143: `ECBDEC` decrypts every block of the valid data in place and touches no byte at or above `DLEN`, or raises
`InvalidInput`; after `ECBENC` with the same key it restores `data()`. -/
def Obligations.EcbdecDecryptsTheDataInPlace : Prop :=
  encode .ecbdec = 0x4100#16 ∧ IgnoredWhenFaulted .ecbdec ∧
  ∀ s : State, s.err = 0x00#8 →
    (s.kvalid = false ∨ s.dlen % 16 ≠ 0 → exec .ecbdec s = .next (withFault s 0x01#8)) ∧
    (s.kvalid = true → s.dlen % 16 = 0 → ∃ t, exec .ecbdec s = .next t ∧ data t = ecbDec s.kreg (data s) ∧
      (∀ j < s.dlen / 16, t.dmem.readBlock j = aesDecBlock s.kreg (s.dmem.readBlock j)) ∧
      (∀ a, s.dlen ≤ a → t.dmem.read a = s.dmem.read a) ∧ t.dlen = s.dlen ∧ t.rptr = 0 ∧ SameKey s t ∧
      t.err = 0x00#8 ∧ Answered s t 0x0000#16 ∧
      ∃ u v, exec .ecbenc s = .next u ∧ exec .ecbdec u = .next v ∧ data v = data s)

/-! ## The composite operations (spec/45_encrypt_decrypt.md) -/

/-- R152: `ENCRYPT`: the faults in their order; otherwise `data()` is the encryption of the padded data under the folded
key, the bytes stored to are those below the new `DLEN`, and it is `Encrypt(p, key)` for every key that folds to `KREG`. -/
def Obligations.EncryptCommandComputesEncrypt : Prop :=
  encode .encrypt = 0x5000#16 ∧ IgnoredWhenFaulted .encrypt ∧
  ∀ s : State, s.err = 0x00#8 →
    (s.dlen = 0 ∨ s.kvalid = false → exec .encrypt s = .next (withFault s 0x01#8)) ∧
    (s.dlen ≠ 0 → s.kvalid = true → s.cfg.dcap = some s.dlen → exec .encrypt s = .next (withFault s 0x08#8)) ∧
    (s.dlen ≠ 0 → s.kvalid = true → s.cfg.dcap ≠ some s.dlen → ∃ t, exec .encrypt s = .next t ∧
      t.dlen = 16 * (s.dlen / 16 + 1) ∧ data t = ecbEnc s.kreg (pad (data s)) ∧
      (∀ a, t.dlen ≤ a → t.dmem.read a = s.dmem.read a) ∧ t.rptr = 0 ∧ SameKey s t ∧ t.err = 0x00#8 ∧
      Answered s t 0x0000#16 ∧
      (flags t).getLsbD 1 = true ∧ (flags t).getLsbD 2 = true ∧ (flags t).getLsbD 3 = true ∧
      (∀ key : List Byte, key ≠ [] → foldKey key = s.kreg → encryptCall (data s) key = .bytes (data t)) ∧
      ∃ u v, exec .pad s = .next u ∧ exec .ecbenc u = .next v ∧ { v with responses := t.responses } = t)

/-- R153: `DECRYPT`: `InvalidInput` before anything is changed; otherwise the blocks are decrypted and `RPTR` is 0, and
the padding is dropped, or `InvalidPadding` is raised with the decrypted blocks left in `DMEM`. It is `Decrypt(c, key)` for
every key that folds to `KREG`, and `ECBDEC` followed by `UNPAD`. -/
def Obligations.DecryptCommandComputesDecrypt : Prop :=
  encode .decrypt = 0x5100#16 ∧ IgnoredWhenFaulted .decrypt ∧
  ∀ s : State, s.err = 0x00#8 →
    (s.dlen = 0 ∨ s.kvalid = false ∨ s.dlen % 16 ≠ 0 → exec .decrypt s = .next (withFault s 0x01#8)) ∧
    (s.dlen ≠ 0 → s.kvalid = true → s.dlen % 16 = 0 → ∃ t, exec .decrypt s = .next t ∧ t.rptr = 0 ∧ SameKey s t ∧
      t.dmem.readSeq 0 s.dlen = ecbDec s.kreg (data s) ∧ (∀ a, s.dlen ≤ a → t.dmem.read a = s.dmem.read a) ∧
      (BadTrailer (ecbDec s.kreg (data s)) → t.err = 0x02#8 ∧ t.dlen = s.dlen ∧ Answered s t 0x0200#16) ∧
      (¬ BadTrailer (ecbDec s.kreg (data s)) → t.err = 0x00#8 ∧ Answered s t 0x0000#16 ∧
        t.dlen + (t.dmem.read (s.dlen - 1)).toNat = s.dlen) ∧
      (∀ key : List Byte, key ≠ [] → foldKey key = s.kreg → decryptCall (data s) key =
        if t.err = 0x00#8 then .bytes (data t) else .error .invalidPadding) ∧
      ∃ u v, exec .ecbdec s = .next u ∧ exec .unpad u = .next v ∧ { v with responses := t.responses } = t)

/-- R154: the length of `Encrypt`'s and of `Decrypt`'s result. -/
def Obligations.ResultLengths : Prop :=
  (∀ p key c : List Byte, encryptCall p key = .bytes c → c.length = 16 * (p.length / 16 + 1) ∧ p.length < c.length ∧
    c.length ≤ p.length + 16) ∧
  ∀ c key d : List Byte, decryptCall c key = .bytes d →
    d.length + ((ecbDec (foldKey key) c).getD (c.length - 1) 0x00#8).toNat = c.length ∧ d.length < c.length

/-- R155: `Decrypt(Encrypt(p, k), k) == p` for all non-empty `p` and `k`. -/
def Obligations.DecryptUndoesEncrypt : Prop :=
  ∀ p key : List Byte, p ≠ [] → key ≠ [] →
    ∃ c, encryptCall p key = .bytes c ∧ decryptCall c key = .bytes p

/-- R183, row "round trip": `ENCRYPT` then `DECRYPT` on the machine both answer `OK` and restore `data()`, `DLEN` and the
key, from every non-faulted state with a key, data, and room for the padding. -/
def Obligations.DecryptAfterEncryptRestoresTheData : Prop :=
  ∀ s : State, s.err = 0x00#8 → s.kvalid = true → s.dlen ≠ 0 → s.cfg.dcap ≠ some s.dlen →
    ∃ t, submit [0x5000#16, 0x5100#16] s = .next t ∧ t.responses = s.responses ++ [0x0000#16, 0x0000#16] ∧
      data t = data s ∧ t.dlen = s.dlen ∧ SameKey s t ∧ t.err = 0x00#8

/-! ## Faults (spec/60_exceptions.md) -/

/-- R191: the exact causes of `InvalidInput`, over all commands. -/
def Obligations.InvalidInputExactCauses : Prop :=
  ∀ (i : Instr) (s t : State), s.err = 0x00#8 → exec i s = .next t →
    (t.err = 0x01#8 ↔
      (i = .encrypt ∧ (s.dlen = 0 ∨ s.kvalid = false)) ∨
      (i = .decrypt ∧ (s.dlen = 0 ∨ s.kvalid = false ∨ s.dlen % 16 ≠ 0)) ∨
      ((i = .ecbenc ∨ i = .ecbdec) ∧ (s.kvalid = false ∨ s.dlen % 16 ≠ 0)))

/-- R192: the exact causes of `InvalidPadding`, over all commands. -/
def Obligations.InvalidPaddingExactCauses : Prop :=
  ∀ (i : Instr) (s t : State), s.err = 0x00#8 → exec i s = .next t →
    (t.err = 0x02#8 ↔
      (i = .unpad ∧ BadTrailer (data s)) ∨
      (i = .decrypt ∧ s.dlen ≠ 0 ∧ s.kvalid = true ∧ s.dlen % 16 = 0 ∧ BadTrailer (ecbDec s.kreg (data s))))

/-- R195: the exact causes of `BufferOverflow`, over all commands. -/
def Obligations.BufferOverflowExactCauses : Prop :=
  ∀ (i : Instr) (s t : State), s.err = 0x00#8 → exec i s = .next t →
    (t.err = 0x08#8 ↔
      ((∃ b, i = .dpush b) ∧ s.cfg.dcap = some s.dlen) ∨ (i = .pad ∧ s.cfg.dcap = some s.dlen) ∨
      (i = .encrypt ∧ s.dlen ≠ 0 ∧ s.kvalid = true ∧ s.cfg.dcap = some s.dlen))

/-- R198: a word that raises a fault of code `c` sets `ERR` to `c`, answers `respond(c, 0x00)`, and changes nothing else,
but for a `DECRYPT` that raises `InvalidPadding`, which has also decrypted the data in place and set `RPTR` to 0. -/
def Obligations.FaultEntryChangesOnlyErr : Prop :=
  ∀ (s t : State) (w : CommandWord) (rest : List HostInput), s.inputs = .command w :: rest → s.err = 0x00#8 →
    step s = .next t → t.err ≠ 0x00#8 →
    t.responses = s.responses ++ [t.err ++ 0x00#8] ∧
    (t = { s with inputs := rest, err := t.err, responses := t.responses } ∨
      (w = 0x5100#16 ∧ t.err = 0x02#8 ∧
        t = { s with inputs := rest, err := t.err, responses := t.responses, dmem := t.dmem, rptr := 0 } ∧
        data t = ecbDec s.kreg (data s) ∧ ∀ a, s.dlen ≤ a → t.dmem.read a = s.dmem.read a))

/-- R199: in the faulted state every command word but a well-formed `RST` is ignored, reserved encodings too; the response
is the fault code with data 0x00, and for `STAT` with the flag byte. -/
def Obligations.FaultedStateIgnoresEveryWordButRst : Prop :=
  ∀ (s : State) (w : CommandWord) (rest : List HostInput), s.inputs = .command w :: rest → s.err ≠ 0x00#8 →
    w ≠ 0x0100#16 →
    step s = .next { s with
      inputs := rest, responses := s.responses ++ [if w = 0x0200#16 then s.err ++ flags s else s.err ++ 0x00#8] }

/-- R200: the only way out of the faulted state is `RST` or the hardware reset; it restores nothing, and `ERR` is never
overwritten by a later fault. -/
def Obligations.OnlyResetLeavesTheFaultedState : Prop :=
  ∀ s t : State, s.err ≠ 0x00#8 → step s = .next t → t.err ≠ s.err →
    WipedClean t ∧ ∃ x rest, s.inputs = x :: rest ∧ (x = .command 0x0100#16 ∨ ∃ a, x = .reset a)

/-- R28: `ERR` is written by a faulting command, only when it is 0x00 and only with a legal code, the code of that
command's response, and by resets, with 0x00. -/
def Obligations.ErrIsWrittenOnlyByFaultsAndResets : Prop :=
  ∀ s t : State, step s = .next t → t.err ≠ s.err →
    (s.err = 0x00#8 ∧ t.err ∈ [0x01#8, 0x02#8, 0x08#8, 0x09#8] ∧ t.responses = s.responses ++ [t.err ++ 0x00#8]) ∨
    (t.err = 0x00#8 ∧ ∃ x rest, s.inputs = x :: rest ∧ (x = .command 0x0100#16 ∨ ∃ a, x = .reset a))

/-! ## Whole-machine rules -/

/-- R34: the columns "W" of the access table: what each command leaves unchanged when it gives a next state in the
non-faulted state. -/
def Obligations.CommandsWriteOnlyTheirState : Prop :=
  ∀ (i : Instr) (s t : State), s.err = 0x00#8 → exec i s = .next t →
    (i ≠ .rst → i ≠ .kclr → (∀ b, i ≠ .kpush b) → SameKey s t) ∧
    (i ∈ [Instr.nop, .stat, .kclr, .dclr, .dpop, .unpad] ∨ (∃ n, i = .rdlen n) ∨ (∃ b, i = .kpush b) → SameBytes s t) ∧
    (i ∈ [Instr.nop, .stat, .kclr, .dpop, .ecbenc, .ecbdec] ∨ (∃ n, i = .rdlen n) ∨ (∃ b, i = .kpush b) →
      t.dlen = s.dlen) ∧
    (i ∈ [Instr.nop, .stat, .kclr] ∨ (∃ n, i = .rdlen n) ∨ (∃ b, i = .kpush b) ∨ (∃ b, i = .dpush b) →
      t.rptr = s.rptr) ∧
    (i ∈ [Instr.nop, .rst, .stat, .kclr, .dclr, .dpop] ∨ (∃ n, i = .rdlen n) ∨ (∃ b, i = .kpush b) → t.err = 0x00#8) ∧
    t.cfg = s.cfg ∧ t.inputs = s.inputs

/-- R57: no rule reads a byte at or above `DLEN`: two states that differ only there give the same response to every
input, and still differ only there. -/
def Obligations.BytesAboveDlenAreUnobservable : Prop :=
  ∀ s s' t : State, s' = { s with dmem := s'.dmem } → (∀ a < s.dlen, s'.dmem.read a = s.dmem.read a) → step s = .next t →
    ∃ t', step s' = .next t' ∧ t' = { t with dmem := t'.dmem } ∧ ∀ a < t.dlen, t'.dmem.read a = t.dmem.read a

/-- R21, R209: no command lets the host read `KREG` back: two states that differ only in `KREG` give the same response to
every command but a `DECRYPT` in the non-faulted state, whose response tells only whether the padding was good: both answer
`InvalidInput`, or each answers `OK` or `InvalidPadding`; and in the faulted state, or but for the four cipher commands, they
still differ only there. -/
def Obligations.KeyRegistersAreNeverReadBack : Prop :=
  ∀ (i : Instr) (s s' t : State), s' = { s with kreg := s'.kreg } → exec i s = .next t →
    ∃ t', exec i s' = .next t' ∧ (i ≠ .decrypt ∨ s.err ≠ 0x00#8 → t'.responses = t.responses) ∧
      (i ∉ [Instr.ecbenc, .ecbdec, .encrypt, .decrypt] ∨ s.err ≠ 0x00#8 → t' = { t with kreg := t'.kreg }) ∧
      (i = .decrypt → ∃ r r', t.responses = s.responses ++ [r] ∧ t'.responses = s.responses ++ [r'] ∧
        (s.err ≠ 0x00#8 → r = r') ∧
        (s.err = 0x00#8 → (r = 0x0100#16 ∧ r' = 0x0100#16) ∨
          (r ∈ [0x0000#16, 0x0200#16] ∧ r' ∈ [0x0000#16, 0x0200#16])))

/-! ## Transactions (spec/47_host_protocol.md) -/

/-- R175, R177: the transaction of `Encrypt(p, key)` within the bound `len(p) <= DCAP - 1`, started by `RST` from any state
or by `KCLR`, `DCLR` in a non-faulted one, with the key and the data pushed in any interleaving: the response of `ENCRYPT` is
`OK`, the `DPOP`s carry the bytes of `Encrypt(p, key)`, and any further ones (until `EMPTY`) answer `EMPTY`; or it is
`InvalidInput` and every later command up to the final `RST` answers with that code. -/
def Obligations.EncryptTransactionReturnsEncrypt : Prop :=
  ∀ (s : State) (first is : List Instr) (p key : List Byte),
    first = [.rst] ∨ (first = [.kclr, .dclr] ∧ s.err = 0x00#8) →
    (∀ i ∈ is, (∃ b, i = .kpush b) ∨ ∃ b, i = .dpush b) →
    p = dataPushed is → key = keyPushed is → s.cfg.holds (p.length + 1) = true →
    (∀ c e, encryptCall p key = .bytes c →
      ∃ t, submit ((first ++ is ++ [Instr.encrypt]).map encode ++ readWords (c.length + e) ++ [encode .rst]) s = .next t ∧
        t.responses = s.responses ++ List.replicate (first.length + is.length) 0x0000#16 ++ [0x0000#16] ++ okBytes c ++
          List.replicate e 0x4000#16 ++ [0x0000#16] ∧
        WipedClean t) ∧
    (∀ k n, encryptCall p key = .error k → k = .invalidInput ∧
      ∃ t, submit ((first ++ is ++ [Instr.encrypt]).map encode ++ readWords n ++ [encode .rst]) s = .next t ∧
        t.responses = s.responses ++ List.replicate (first.length + is.length) 0x0000#16 ++
          List.replicate (n + 1) 0x0100#16 ++ [0x0000#16] ∧
        WipedClean t)

/-- R176, R177: the transaction of `Decrypt(c, key)` within the bound `len(c) <= DCAP`, started by `RST` from any state or
by `KCLR`, `DCLR` in a non-faulted one (R178), with the key and the data pushed in any interleaving: `OK`, the length and the
bytes of `Decrypt(c, key)`, and `EMPTY` from any further `DPOP`s; or its error, and then every later command up to the final
`RST` answers with that code and data 0x00. -/
def Obligations.DecryptTransactionReturnsDecrypt : Prop :=
  ∀ (s : State) (first is : List Instr) (c key : List Byte),
    first = [.rst] ∨ (first = [.kclr, .dclr] ∧ s.err = 0x00#8) →
    (∀ i ∈ is, (∃ b, i = .kpush b) ∨ ∃ b, i = .dpush b) →
    c = dataPushed is → key = keyPushed is → s.cfg.holds c.length = true →
    (∀ d e, decryptCall c key = .bytes d → d.length < 2 ^ 32 →
      ∃ t b0 b1 b2 b3, submit ((first ++ is ++ [Instr.decrypt]).map encode ++ len32Words ++ readWords (d.length + e) ++
          [encode .rst]) s = .next t ∧
        t.responses = s.responses ++ List.replicate (first.length + is.length) 0x0000#16 ++ [0x0000#16] ++
          okBytes [b0, b1, b2, b3] ++ okBytes d ++ List.replicate e 0x4000#16 ++ [0x0000#16] ∧
        d.length = b0.toNat + 256 * b1.toNat + 65536 * b2.toNat + 16777216 * b3.toNat ∧ WipedClean t) ∧
    (∀ k n, decryptCall c key = .error k →
      ∃ code : Byte, ((k = .invalidInput ∧ code = 0x01#8) ∨ (k = .invalidPadding ∧ code = 0x02#8)) ∧
      ∃ t, submit ((first ++ is ++ [Instr.decrypt]).map encode ++ len32Words ++ readWords n ++ [encode .rst]) s = .next t ∧
        t.responses = s.responses ++ List.replicate (first.length + is.length) 0x0000#16 ++
          List.replicate (n + 5) (code ++ 0x00#8) ++ [0x0000#16] ∧
        WipedClean t)

/-- R177, last point: a text longer than `DCAP` is refused by the `DPUSH` numbered `DCAP + 1` and by everything after it; a
text of exactly `DCAP` bytes is refused by `ENCRYPT`, with `BufferOverflow` if the key is non-empty and with `InvalidInput`
if it is empty. -/
def Obligations.OversizedTransactionsAreRefused : Prop :=
  ∀ (s : State) (n : Nat) (p key : List Byte) (op : Instr), s.cfg.legal = true → s.cfg.dcap = some n →
    op = .encrypt ∨ op = .decrypt →
    (n < p.length →
      ∃ t, submit (encode .rst :: keyWordsFor key ++ dataWordsFor p ++ [encode op]) s = .next t ∧
        t.responses = s.responses ++ List.replicate (1 + key.length + n) 0x0000#16 ++
          List.replicate (p.length - n + 1) 0x0800#16) ∧
    (p.length = n →
      ∃ t, submit (encode .rst :: keyWordsFor key ++ dataWordsFor p ++ [encode .encrypt]) s = .next t ∧
        t.responses = s.responses ++ List.replicate (1 + key.length + n) 0x0000#16 ++
          [if key = [] then 0x0100#16 else 0x0800#16])
end

