-- ==== Sys2Proof/Laws/Block.lean ====
section
/-! SUPPORT. Reading a 16-byte or 4-byte sequence made byte by byte, and equality of two of them byte by byte. -/

namespace Sys2Proof

@[simp] theorem Block.byte_make (f : Nat → Byte) {i : Nat} (h : i < 16) : (Block.make f).byte i = f i := by
  interval_cases i <;> rfl

@[simp] theorem Quad.byte_make (f : Nat → Byte) {i : Nat} (h : i < 4) : (Quad.make f).byte i = f i := by
  interval_cases i <;> rfl

theorem Block.byte_eq_getElem (s : Block) {i : Nat} (h : i < 16) : s.byte i = s[i] := by
  have hl : i < s.toArray.toList.length := by simpa using h
  rw [Block.byte, List.getD_eq_getElem _ _ hl]
  rfl

theorem Quad.byte_eq_getElem (s : Quad) {i : Nat} (h : i < 4) : s.byte i = s[i] := by
  have hl : i < s.toArray.toList.length := by simpa using h
  rw [Quad.byte, List.getD_eq_getElem _ _ hl]
  rfl

theorem Block.ext_byte {a b : Block} (h : ∀ i < 16, a.byte i = b.byte i) : a = b :=
  Vector.ext fun i hi => by rw [← Block.byte_eq_getElem a hi, ← Block.byte_eq_getElem b hi, h i hi]

theorem Quad.ext_byte {a b : Quad} (h : ∀ i < 4, a.byte i = b.byte i) : a = b :=
  Vector.ext fun i hi => by rw [← Quad.byte_eq_getElem a hi, ← Quad.byte_eq_getElem b hi, h i hi]

/-- A block is the block made of its bytes. -/
theorem Block.make_byte (s : Block) : Block.make s.byte = s :=
  Block.ext_byte fun _ hi => Block.byte_make _ hi

@[simp] theorem Block.byte_put (s : Block) (p : Nat) (v : Byte) {i : Nat} (h : i < 16) :
    (s.put p v).byte i = if i = p then v else s.byte i := Block.byte_make _ h

@[simp] theorem Block.byte_rep (v : Byte) {i : Nat} (h : i < 16) : (Block.rep v).byte i = v := Block.byte_make _ h

@[simp] theorem Block.byte_xor (a b : Block) {i : Nat} (h : i < 16) : (a.xor b).byte i = a.byte i ^^^ b.byte i :=
  Block.byte_make _ h

@[simp] theorem Quad.byte_xor (a b : Quad) {i : Nat} (h : i < 4) : (a.xor b).byte i = a.byte i ^^^ b.byte i :=
  Quad.byte_make _ h

@[simp] theorem Block.length_bytes (s : Block) : s.bytes.length = 16 := by simp [Block.bytes]

theorem Block.getD_bytes (s : Block) (i : Nat) : s.bytes.getD i 0x00#8 = s.byte i := rfl

end Sys2Proof
end

