-- ==== Sys2Proof/Laws/Memory.lean ====
section
/-! SUPPORT. The laws of the data buffer: what a read sees after each write, that every write keeps the canonical form,
that equal reads of canonical memories mean equal memories, and that writes below `DCAP` stay below it. -/

/-- A buffer that holds `b` bytes holds fewer. -/
theorem Sys2Proof.Config.holds_mono {c : Sys2Proof.Config} {a b : Nat} (h : c.holds b = true) (hab : a ≤ b) : c.holds a = true := by
  unfold Sys2Proof.Config.holds at *
  split at h
  · rfl
  · simp only [decide_eq_true_eq] at h ⊢; omega

namespace Sys2Proof.Machine

/-! ## Reading after writing -/

@[simp] theorem Memory.read_nil (a : Nat) : Memory.read [] a = Memory.unlisted := rfl

theorem Memory.wfFrom_weaken {lo lo' : Nat} {m : Memory} (h : m.wfFrom lo = true) (hl : lo' ≤ lo) :
    m.wfFrom lo' = true := by
  cases m with
  | nil => rfl
  | cons c m =>
    simp only [Memory.wfFrom, Bool.and_eq_true, decide_eq_true_eq] at h ⊢
    exact ⟨⟨hl.trans h.1.1, h.1.2⟩, h.2⟩

/-- Below the lowest listed address everything reads as unlisted. -/
theorem Memory.read_of_lt {m : Memory} : ∀ {lo a : Nat}, m.wfFrom lo = true → a < lo → m.read a = Memory.unlisted := by
  induction m with
  | nil => intros; rfl
  | cons c m ih =>
    obtain ⟨b, u⟩ := c
    intro lo a h ha
    simp only [Memory.wfFrom, Bool.and_eq_true, decide_eq_true_eq] at h
    have hne : a ≠ b := by omega
    simp only [Memory.read, if_neg hne]
    exact ih h.2 (by omega)

theorem Memory.wfFrom_without (a : Nat) {m : Memory} : ∀ {lo : Nat}, m.wfFrom lo = true → (m.without a).wfFrom lo = true := by
  induction m with
  | nil => intro _ h; exact h
  | cons c m ih =>
    obtain ⟨b, u⟩ := c
    intro lo h
    simp only [Memory.wfFrom, Bool.and_eq_true, decide_eq_true_eq] at h
    by_cases hb : b = a
    · have e : Memory.without ((b, u) :: m) a = Memory.without m a := by simp [Memory.without, hb]
      rw [e]
      exact Memory.wfFrom_weaken (ih h.2) (by omega)
    · have e : Memory.without ((b, u) :: m) a = (b, u) :: Memory.without m a := by simp [Memory.without, hb]
      simp [e, Memory.wfFrom, h.1.1, h.1.2, ih h.2]

theorem Memory.not_listed_without (m : Memory) (a : Nat) : ∀ cell ∈ m.without a, cell.1 ≠ a := by
  intro cell h
  simpa using (List.mem_filter.1 h).2

theorem Memory.wfFrom_place {a : Nat} {v : Byte} (hv : v ≠ Memory.unlisted) {m : Memory} : ∀ {lo : Nat},
    m.wfFrom lo = true → (∀ cell ∈ m, cell.1 ≠ a) → lo ≤ a → (m.place a v).wfFrom lo = true := by
  induction m with
  | nil => intro lo _ _ hla; simp [Memory.place, Memory.wfFrom, hla, hv]
  | cons c m ih =>
    obtain ⟨b, u⟩ := c
    intro lo h hn hla
    simp only [Memory.wfFrom, Bool.and_eq_true, decide_eq_true_eq] at h
    obtain ⟨⟨hlb, hu⟩, hm⟩ := h
    have hba : b ≠ a := hn (b, u) (List.mem_cons_self ..)
    simp only [Memory.place]
    split
    · next hab => simp [Memory.wfFrom, hla, hv, hu, hm]; omega
    · next hab =>
      have := ih hm (fun cell hc => hn cell (List.mem_cons_of_mem _ hc)) (by omega : b + 1 ≤ a)
      simp [Memory.wfFrom, hlb, hu, this]

/-- Every byte write keeps the canonical form. -/
theorem Memory.wf_write {m : Memory} (a : Nat) (v : Byte) (h : m.wf = true) : (m.write a v).wf = true := by
  unfold Memory.write
  split
  · exact Memory.wfFrom_without a h
  · next hv => exact Memory.wfFrom_place hv (Memory.wfFrom_without a h) (Memory.not_listed_without m a) (Nat.zero_le a)

theorem Memory.read_without (m : Memory) (a x : Nat) :
    (m.without a).read x = if x = a then Memory.unlisted else m.read x := by
  induction m with
  | nil => simp [Memory.without]
  | cons c m ih =>
    obtain ⟨b, u⟩ := c
    by_cases hb : b = a
    · have e : Memory.without ((b, u) :: m) a = Memory.without m a := by simp [Memory.without, hb]
      rw [e, ih]
      by_cases hx : x = a
      · simp [hx]
      · simp [hx, Memory.read, hb]
    · have e : Memory.without ((b, u) :: m) a = (b, u) :: Memory.without m a := by simp [Memory.without, hb]
      rw [e]
      by_cases hx : x = b
      · subst hx; simp [Memory.read, hb]
      · simp [Memory.read, hx, ih]

theorem Memory.read_place {a : Nat} (v : Byte) {m : Memory} (hn : ∀ cell ∈ m, cell.1 ≠ a) (x : Nat) :
    (m.place a v).read x = if x = a then v else m.read x := by
  induction m with
  | nil => simp [Memory.place, Memory.read]
  | cons c m ih =>
    obtain ⟨b, u⟩ := c
    have hba : b ≠ a := hn (b, u) (List.mem_cons_self ..)
    have ih' := ih fun cell hc => hn cell (List.mem_cons_of_mem _ hc)
    simp only [Memory.place]
    split
    · simp [Memory.read]
    · by_cases hx : x = b
      · subst hx; simp [Memory.read, hba]
      · simp [Memory.read, hx, ih']

/-- `DMEM[a] <- v` changes `DMEM[a]` and nothing else, of any memory. -/
theorem Memory.read_write (m : Memory) (a : Nat) (v : Byte) (x : Nat) :
    (m.write a v).read x = if x = a then v else m.read x := by
  unfold Memory.write
  split
  · next hv => rw [Memory.read_without, hv]
  · rw [Memory.read_place v (Memory.not_listed_without m a), Memory.read_without]
    by_cases hx : x = a <;> simp [hx]

/-! ## Sequences and blocks -/

theorem Memory.wf_writeSeq {m : Memory} (vs : List Byte) : ∀ addr, m.wf = true → (m.writeSeq addr vs).wf = true := by
  induction vs generalizing m with
  | nil => intro _ h; exact h
  | cons v vs ih => intro addr h; exact ih _ (Memory.wf_write addr v h)

/-- `MemWrite` (R43): the addressed bytes are the sequence, every other byte is as before. -/
theorem Memory.read_writeSeq (m : Memory) (vs : List Byte) : ∀ addr x,
    (m.writeSeq addr vs).read x = if addr ≤ x ∧ x < addr + vs.length then vs.getD (x - addr) 0x00#8 else m.read x := by
  induction vs generalizing m with
  | nil =>
    intro addr x
    simp only [Memory.writeSeq, List.length_nil]
    rw [if_neg (by omega)]
  | cons v vs ih =>
    intro addr x
    simp only [Memory.writeSeq, ih, Memory.read_write, List.length_cons]
    rcases Nat.lt_trichotomy x addr with hx | hx | hx
    · simp [Nat.not_le.2 hx, Nat.ne_of_lt hx, Nat.not_le.2 (Nat.lt_succ_of_lt hx)]
    · subst hx; simp
    · obtain ⟨k, rfl⟩ : ∃ k, x = addr + 1 + k := ⟨x - (addr + 1), by omega⟩
      have e1 : addr + 1 + k - addr = k + 1 := by omega
      have e2 : addr + 1 + k - (addr + 1) = k := by omega
      have e3 : addr + 1 + k ≠ addr := by omega
      have e4 : (addr + 1 ≤ addr + 1 + k ∧ addr + 1 + k < addr + 1 + vs.length) ↔
          (addr ≤ addr + 1 + k ∧ addr + 1 + k < addr + (vs.length + 1)) := by omega
      rw [e1, e2, if_neg e3, List.getD_cons_succ]
      exact if_congr e4 rfl rfl

theorem Memory.wf_writeBlock {m : Memory} (j : Nat) (b : Block) (h : m.wf = true) : (m.writeBlock j b).wf = true :=
  Memory.wf_writeSeq _ _ h

theorem Memory.wf_mapBlocks {m : Memory} (f : Block → Block) (h : m.wf = true) :
    ∀ n, (m.mapBlocks f n).wf = true
  | 0 => h
  | n + 1 => Memory.wf_writeBlock n _ (Memory.wf_mapBlocks f h n)

/-- The sequencer's walk (R144): byte `x` of the first `n` blocks is its byte of `f` of its block, the rest is as before. -/
theorem Memory.read_mapBlocks (m : Memory) (f : Block → Block) : ∀ n x,
    (m.mapBlocks f n).read x = if x < 16 * n then (f (m.readBlock (x / 16))).byte (x % 16) else m.read x
  | 0, x => by simp [Memory.mapBlocks]
  | n + 1, x => by
    have ih := Memory.read_mapBlocks m f n
    have hb : (m.mapBlocks f n).readBlock n = m.readBlock n := by
      refine Block.ext_byte fun i hi => ?_
      have hge : ¬ 16 * n + i < 16 * n := by omega
      simp only [Memory.readBlock, Block.byte_make _ hi, ih, if_neg hge]
    simp only [Memory.mapBlocks, Memory.writeBlock, hb, Memory.read_writeSeq, ih,
      Block.length_bytes, Block.getD_bytes]
    by_cases h1 : 16 * n ≤ x ∧ x < 16 * n + 16
    · have e1 : x / 16 = n := by omega
      have e2 : x % 16 = x - 16 * n := by omega
      have e3 : x < 16 * (n + 1) := by omega
      simp only [if_pos h1, if_pos e3, e1, e2]
    · by_cases h2 : x < 16 * n
      · have e3 : x < 16 * (n + 1) := by omega
        simp only [if_neg h1, if_pos h2, if_pos e3]
      · have e3 : ¬ x < 16 * (n + 1) := by omega
        simp only [if_neg h1, if_neg h2, if_neg e3]

@[simp] theorem Memory.length_readSeq (m : Memory) (addr n : Nat) : (m.readSeq addr n).length = n := by
  simp [Memory.readSeq]

/-- Element `i` of `MemRead(addr, n)` (R42). -/
theorem Memory.getD_readSeq (m : Memory) (addr : Nat) {i n : Nat} (h : i < n) :
    (m.readSeq addr n).getD i 0x00#8 = m.read (addr + i) := by
  simp [Memory.readSeq, List.getD_eq_getElem?_getD, h]

/-! ## The canonical form -/

theorem Memory.eq_of_read_eq_from {m : Memory} : ∀ {m' : Memory} {lo : Nat}, m.wfFrom lo = true →
    m'.wfFrom lo = true → (∀ a, m.read a = m'.read a) → m = m' := by
  induction m with
  | nil =>
    intro m' lo _ h' he
    cases m' with
    | nil => rfl
    | cons c m' =>
      obtain ⟨b, u⟩ := c
      simp only [Memory.wfFrom, Bool.and_eq_true, decide_eq_true_eq] at h'
      have := he b
      simp only [Memory.read, if_true] at this
      exact absurd this.symm h'.1.2
  | cons c m ih =>
    obtain ⟨b, u⟩ := c
    intro m' lo h h' he
    simp only [Memory.wfFrom, Bool.and_eq_true, decide_eq_true_eq] at h
    obtain ⟨⟨_, hu⟩, hm⟩ := h
    cases m' with
    | nil =>
      have := he b
      simp only [Memory.read, if_true] at this
      exact absurd this hu
    | cons c' m' =>
      obtain ⟨b', u'⟩ := c'
      simp only [Memory.wfFrom, Bool.and_eq_true, decide_eq_true_eq] at h'
      obtain ⟨⟨_, hu'⟩, hm'⟩ := h'
      have hbb : b = b' := by
        by_contra hne
        rcases Nat.lt_or_gt_of_ne hne with hlt | hlt
        · have := he b
          simp only [Memory.read, if_true, if_neg hne, Memory.read_of_lt hm' (by omega : b < b' + 1)] at this
          exact hu this
        · have := he b'
          simp only [Memory.read, if_true, if_neg (Ne.symm hne), Memory.read_of_lt hm (by omega : b' < b + 1)] at this
          exact hu' this.symm
      subst hbb
      have huu : u = u' := by simpa [Memory.read] using he b
      subst huu
      have : m = m' := by
        refine ih hm hm' fun a => ?_
        by_cases ha : a = b
        · subst ha
          rw [Memory.read_of_lt hm (by omega), Memory.read_of_lt hm' (by omega)]
        · simpa [Memory.read, ha] using he a
      rw [this]

/-- Canonical memories with equal bytes are equal data. -/
theorem Memory.eq_of_read_eq {m m' : Memory} (h : m.wf = true) (h' : m'.wf = true)
    (he : ∀ a, m.read a = m'.read a) : m = m' := Memory.eq_of_read_eq_from h h' he

/-! ## Staying below the capacity -/

theorem Memory.within_write {c : Config} {m : Memory} {a : Nat} (v : Byte) (h : m.within c = true)
    (ha : c.holds (a + 1) = true) : (m.write a v).within c = true := by
  have hd : (m.without a).within c = true := by
    simp only [Memory.within, List.all_eq_true] at h ⊢
    exact fun cell hc => h cell (List.mem_filter.1 hc).1
  unfold Memory.write
  split
  · exact hd
  · generalize m.without a = d at hd
    induction d with
    | nil => simp [Memory.place, Memory.within, ha]
    | cons cell d ih =>
      obtain ⟨b, u⟩ := cell
      simp only [Memory.within, List.all_cons, Bool.and_eq_true] at hd ih
      simp only [Memory.place]
      split <;> simp only [Memory.within, List.all_cons, Bool.and_eq_true]
      · exact ⟨ha, hd⟩
      · exact ⟨hd.1, ih hd.2⟩

theorem Memory.within_writeSeq {c : Config} {m : Memory} (vs : List Byte) : ∀ addr, m.within c = true →
    c.holds (addr + vs.length) = true → (m.writeSeq addr vs).within c = true := by
  induction vs generalizing m with
  | nil => intro _ h _; exact h
  | cons v vs ih =>
    intro addr h hc
    rw [List.length_cons] at hc
    refine ih (addr + 1) (Memory.within_write v h (Sys2Proof.Config.holds_mono hc (by omega))) ?_
    rwa [Nat.add_assoc, Nat.add_comm 1]

theorem Memory.within_mapBlocks {c : Config} {m : Memory} (f : Block → Block) (h : m.within c = true) : ∀ n,
    c.holds (16 * n) = true → (m.mapBlocks f n).within c = true
  | 0, _ => h
  | n + 1, hc => by
    refine Memory.within_writeSeq _ _ (Memory.within_mapBlocks f h n (Sys2Proof.Config.holds_mono hc (by omega))) ?_
    rw [Block.length_bytes]
    exact hc

end Sys2Proof.Machine
end

