-- ==== Sys2Proof/Laws/State.lean ====
section
/-! SUPPORT. One lemma for each field of the state and each named update, true by `rfl`, so that no later proof unfolds a
record update; and the fields of the reset state. -/

namespace Sys2Proof.Machine

@[simp] theorem resetOf_cfg (c : Config) : (State.resetOf c).cfg = c := rfl
@[simp] theorem resetOf_kreg (c : Config) : (State.resetOf c).kreg = Block.rep 0x00#8 := rfl
@[simp] theorem resetOf_kidx (c : Config) : (State.resetOf c).kidx = 0x0#4 := rfl
@[simp] theorem resetOf_kvalid (c : Config) : (State.resetOf c).kvalid = false := rfl
@[simp] theorem resetOf_dmem (c : Config) : (State.resetOf c).dmem = [] := rfl
@[simp] theorem resetOf_dlen (c : Config) : (State.resetOf c).dlen = 0 := rfl
@[simp] theorem resetOf_rptr (c : Config) : (State.resetOf c).rptr = 0 := rfl
@[simp] theorem resetOf_err (c : Config) : (State.resetOf c).err = 0x00#8 := rfl
@[simp] theorem resetOf_inputs (c : Config) : (State.resetOf c).inputs = [] := rfl
@[simp] theorem resetOf_responses (c : Config) : (State.resetOf c).responses = [] := rfl

@[simp] theorem answer_cfg (c d : Byte) (s : State) : (answer c d s).cfg = s.cfg := rfl
@[simp] theorem answer_kreg (c d : Byte) (s : State) : (answer c d s).kreg = s.kreg := rfl
@[simp] theorem answer_kidx (c d : Byte) (s : State) : (answer c d s).kidx = s.kidx := rfl
@[simp] theorem answer_kvalid (c d : Byte) (s : State) : (answer c d s).kvalid = s.kvalid := rfl
@[simp] theorem answer_dmem (c d : Byte) (s : State) : (answer c d s).dmem = s.dmem := rfl
@[simp] theorem answer_dlen (c d : Byte) (s : State) : (answer c d s).dlen = s.dlen := rfl
@[simp] theorem answer_rptr (c d : Byte) (s : State) : (answer c d s).rptr = s.rptr := rfl
@[simp] theorem answer_err (c d : Byte) (s : State) : (answer c d s).err = s.err := rfl
@[simp] theorem answer_inputs (c d : Byte) (s : State) : (answer c d s).inputs = s.inputs := rfl
@[simp] theorem answer_responses (c d : Byte) (s : State) : (answer c d s).responses = s.responses ++ [responseWord c d] := rfl

@[simp] theorem answerOK_cfg (s : State) : (answerOK s).cfg = s.cfg := rfl
@[simp] theorem answerOK_kreg (s : State) : (answerOK s).kreg = s.kreg := rfl
@[simp] theorem answerOK_kidx (s : State) : (answerOK s).kidx = s.kidx := rfl
@[simp] theorem answerOK_kvalid (s : State) : (answerOK s).kvalid = s.kvalid := rfl
@[simp] theorem answerOK_dmem (s : State) : (answerOK s).dmem = s.dmem := rfl
@[simp] theorem answerOK_dlen (s : State) : (answerOK s).dlen = s.dlen := rfl
@[simp] theorem answerOK_rptr (s : State) : (answerOK s).rptr = s.rptr := rfl
@[simp] theorem answerOK_err (s : State) : (answerOK s).err = s.err := rfl
@[simp] theorem answerOK_inputs (s : State) : (answerOK s).inputs = s.inputs := rfl
@[simp] theorem answerOK_responses (s : State) : (answerOK s).responses = s.responses ++ [responseWord codeOK 0x00#8] := rfl

@[simp] theorem setErr_cfg (c : Byte) (s : State) : (setErr c s).cfg = s.cfg := rfl
@[simp] theorem setErr_kreg (c : Byte) (s : State) : (setErr c s).kreg = s.kreg := rfl
@[simp] theorem setErr_kidx (c : Byte) (s : State) : (setErr c s).kidx = s.kidx := rfl
@[simp] theorem setErr_kvalid (c : Byte) (s : State) : (setErr c s).kvalid = s.kvalid := rfl
@[simp] theorem setErr_dmem (c : Byte) (s : State) : (setErr c s).dmem = s.dmem := rfl
@[simp] theorem setErr_dlen (c : Byte) (s : State) : (setErr c s).dlen = s.dlen := rfl
@[simp] theorem setErr_rptr (c : Byte) (s : State) : (setErr c s).rptr = s.rptr := rfl
@[simp] theorem setErr_err (c : Byte) (s : State) : (setErr c s).err = c := rfl
@[simp] theorem setErr_inputs (c : Byte) (s : State) : (setErr c s).inputs = s.inputs := rfl
@[simp] theorem setErr_responses (c : Byte) (s : State) : (setErr c s).responses = s.responses := rfl

@[simp] theorem setKey_cfg (k : Block) (i : BitVec 4) (v : Bool) (s : State) : (setKey k i v s).cfg = s.cfg := rfl
@[simp] theorem setKey_kreg (k : Block) (i : BitVec 4) (v : Bool) (s : State) : (setKey k i v s).kreg = k := rfl
@[simp] theorem setKey_kidx (k : Block) (i : BitVec 4) (v : Bool) (s : State) : (setKey k i v s).kidx = i := rfl
@[simp] theorem setKey_kvalid (k : Block) (i : BitVec 4) (v : Bool) (s : State) : (setKey k i v s).kvalid = v := rfl
@[simp] theorem setKey_dmem (k : Block) (i : BitVec 4) (v : Bool) (s : State) : (setKey k i v s).dmem = s.dmem := rfl
@[simp] theorem setKey_dlen (k : Block) (i : BitVec 4) (v : Bool) (s : State) : (setKey k i v s).dlen = s.dlen := rfl
@[simp] theorem setKey_rptr (k : Block) (i : BitVec 4) (v : Bool) (s : State) : (setKey k i v s).rptr = s.rptr := rfl
@[simp] theorem setKey_err (k : Block) (i : BitVec 4) (v : Bool) (s : State) : (setKey k i v s).err = s.err := rfl
@[simp] theorem setKey_inputs (k : Block) (i : BitVec 4) (v : Bool) (s : State) : (setKey k i v s).inputs = s.inputs := rfl
@[simp] theorem setKey_responses (k : Block) (i : BitVec 4) (v : Bool) (s : State) : (setKey k i v s).responses = s.responses := rfl

@[simp] theorem setDmem_cfg (m : Memory) (s : State) : (setDmem m s).cfg = s.cfg := rfl
@[simp] theorem setDmem_kreg (m : Memory) (s : State) : (setDmem m s).kreg = s.kreg := rfl
@[simp] theorem setDmem_kidx (m : Memory) (s : State) : (setDmem m s).kidx = s.kidx := rfl
@[simp] theorem setDmem_kvalid (m : Memory) (s : State) : (setDmem m s).kvalid = s.kvalid := rfl
@[simp] theorem setDmem_dmem (m : Memory) (s : State) : (setDmem m s).dmem = m := rfl
@[simp] theorem setDmem_dlen (m : Memory) (s : State) : (setDmem m s).dlen = s.dlen := rfl
@[simp] theorem setDmem_rptr (m : Memory) (s : State) : (setDmem m s).rptr = s.rptr := rfl
@[simp] theorem setDmem_err (m : Memory) (s : State) : (setDmem m s).err = s.err := rfl
@[simp] theorem setDmem_inputs (m : Memory) (s : State) : (setDmem m s).inputs = s.inputs := rfl
@[simp] theorem setDmem_responses (m : Memory) (s : State) : (setDmem m s).responses = s.responses := rfl

@[simp] theorem setDlen_cfg (n : Nat) (s : State) : (setDlen n s).cfg = s.cfg := rfl
@[simp] theorem setDlen_kreg (n : Nat) (s : State) : (setDlen n s).kreg = s.kreg := rfl
@[simp] theorem setDlen_kidx (n : Nat) (s : State) : (setDlen n s).kidx = s.kidx := rfl
@[simp] theorem setDlen_kvalid (n : Nat) (s : State) : (setDlen n s).kvalid = s.kvalid := rfl
@[simp] theorem setDlen_dmem (n : Nat) (s : State) : (setDlen n s).dmem = s.dmem := rfl
@[simp] theorem setDlen_dlen (n : Nat) (s : State) : (setDlen n s).dlen = n := rfl
@[simp] theorem setDlen_rptr (n : Nat) (s : State) : (setDlen n s).rptr = s.rptr := rfl
@[simp] theorem setDlen_err (n : Nat) (s : State) : (setDlen n s).err = s.err := rfl
@[simp] theorem setDlen_inputs (n : Nat) (s : State) : (setDlen n s).inputs = s.inputs := rfl
@[simp] theorem setDlen_responses (n : Nat) (s : State) : (setDlen n s).responses = s.responses := rfl

@[simp] theorem setRptr_cfg (n : Nat) (s : State) : (setRptr n s).cfg = s.cfg := rfl
@[simp] theorem setRptr_kreg (n : Nat) (s : State) : (setRptr n s).kreg = s.kreg := rfl
@[simp] theorem setRptr_kidx (n : Nat) (s : State) : (setRptr n s).kidx = s.kidx := rfl
@[simp] theorem setRptr_kvalid (n : Nat) (s : State) : (setRptr n s).kvalid = s.kvalid := rfl
@[simp] theorem setRptr_dmem (n : Nat) (s : State) : (setRptr n s).dmem = s.dmem := rfl
@[simp] theorem setRptr_dlen (n : Nat) (s : State) : (setRptr n s).dlen = s.dlen := rfl
@[simp] theorem setRptr_rptr (n : Nat) (s : State) : (setRptr n s).rptr = n := rfl
@[simp] theorem setRptr_err (n : Nat) (s : State) : (setRptr n s).err = s.err := rfl
@[simp] theorem setRptr_inputs (n : Nat) (s : State) : (setRptr n s).inputs = s.inputs := rfl
@[simp] theorem setRptr_responses (n : Nat) (s : State) : (setRptr n s).responses = s.responses := rfl

@[simp] theorem setInputs_cfg (l : List HostInput) (s : State) : (setInputs l s).cfg = s.cfg := rfl
@[simp] theorem setInputs_kreg (l : List HostInput) (s : State) : (setInputs l s).kreg = s.kreg := rfl
@[simp] theorem setInputs_kidx (l : List HostInput) (s : State) : (setInputs l s).kidx = s.kidx := rfl
@[simp] theorem setInputs_kvalid (l : List HostInput) (s : State) : (setInputs l s).kvalid = s.kvalid := rfl
@[simp] theorem setInputs_dmem (l : List HostInput) (s : State) : (setInputs l s).dmem = s.dmem := rfl
@[simp] theorem setInputs_dlen (l : List HostInput) (s : State) : (setInputs l s).dlen = s.dlen := rfl
@[simp] theorem setInputs_rptr (l : List HostInput) (s : State) : (setInputs l s).rptr = s.rptr := rfl
@[simp] theorem setInputs_err (l : List HostInput) (s : State) : (setInputs l s).err = s.err := rfl
@[simp] theorem setInputs_inputs (l : List HostInput) (s : State) : (setInputs l s).inputs = l := rfl
@[simp] theorem setInputs_responses (l : List HostInput) (s : State) : (setInputs l s).responses = s.responses := rfl

@[simp] theorem raiseFault_cfg (k : FaultKind) (s : State) : (raiseFault k s).cfg = s.cfg := rfl
@[simp] theorem raiseFault_kreg (k : FaultKind) (s : State) : (raiseFault k s).kreg = s.kreg := rfl
@[simp] theorem raiseFault_kidx (k : FaultKind) (s : State) : (raiseFault k s).kidx = s.kidx := rfl
@[simp] theorem raiseFault_kvalid (k : FaultKind) (s : State) : (raiseFault k s).kvalid = s.kvalid := rfl
@[simp] theorem raiseFault_dmem (k : FaultKind) (s : State) : (raiseFault k s).dmem = s.dmem := rfl
@[simp] theorem raiseFault_dlen (k : FaultKind) (s : State) : (raiseFault k s).dlen = s.dlen := rfl
@[simp] theorem raiseFault_rptr (k : FaultKind) (s : State) : (raiseFault k s).rptr = s.rptr := rfl
@[simp] theorem raiseFault_err (k : FaultKind) (s : State) : (raiseFault k s).err = k.code := rfl
@[simp] theorem raiseFault_inputs (k : FaultKind) (s : State) : (raiseFault k s).inputs = s.inputs := rfl
@[simp] theorem raiseFault_responses (k : FaultKind) (s : State) : (raiseFault k s).responses = s.responses ++ [responseWord k.code 0x00#8] := rfl

@[simp] theorem ignoreWord_cfg (s : State) : (ignoreWord s).cfg = s.cfg := rfl
@[simp] theorem ignoreWord_kreg (s : State) : (ignoreWord s).kreg = s.kreg := rfl
@[simp] theorem ignoreWord_kidx (s : State) : (ignoreWord s).kidx = s.kidx := rfl
@[simp] theorem ignoreWord_kvalid (s : State) : (ignoreWord s).kvalid = s.kvalid := rfl
@[simp] theorem ignoreWord_dmem (s : State) : (ignoreWord s).dmem = s.dmem := rfl
@[simp] theorem ignoreWord_dlen (s : State) : (ignoreWord s).dlen = s.dlen := rfl
@[simp] theorem ignoreWord_rptr (s : State) : (ignoreWord s).rptr = s.rptr := rfl
@[simp] theorem ignoreWord_err (s : State) : (ignoreWord s).err = s.err := rfl
@[simp] theorem ignoreWord_inputs (s : State) : (ignoreWord s).inputs = s.inputs := rfl
@[simp] theorem ignoreWord_responses (s : State) : (ignoreWord s).responses = s.responses ++ [responseWord s.err 0x00#8] := rfl

@[simp] theorem wipe_cfg (s : State) : (wipe s).cfg = s.cfg := rfl
@[simp] theorem wipe_kreg (s : State) : (wipe s).kreg = Block.rep 0x00#8 := rfl
@[simp] theorem wipe_kidx (s : State) : (wipe s).kidx = 0x0#4 := rfl
@[simp] theorem wipe_kvalid (s : State) : (wipe s).kvalid = false := rfl
@[simp] theorem wipe_dmem (s : State) : (wipe s).dmem = [] := rfl
@[simp] theorem wipe_dlen (s : State) : (wipe s).dlen = 0 := rfl
@[simp] theorem wipe_rptr (s : State) : (wipe s).rptr = 0 := rfl
@[simp] theorem wipe_err (s : State) : (wipe s).err = 0x00#8 := rfl
@[simp] theorem wipe_inputs (s : State) : (wipe s).inputs = s.inputs := rfl
@[simp] theorem wipe_responses (s : State) : (wipe s).responses = s.responses := rfl

@[simp] theorem foldByte_cfg (b : Byte) (s : State) : (foldByte b s).cfg = s.cfg := rfl
@[simp] theorem foldByte_kreg (b : Byte) (s : State) : (foldByte b s).kreg = s.kreg.put s.kidx.toNat (s.kreg.byte s.kidx.toNat ^^^ b) := rfl
@[simp] theorem foldByte_kidx (b : Byte) (s : State) : (foldByte b s).kidx = s.kidx + 1#4 := rfl
@[simp] theorem foldByte_kvalid (b : Byte) (s : State) : (foldByte b s).kvalid = true := rfl
@[simp] theorem foldByte_dmem (b : Byte) (s : State) : (foldByte b s).dmem = s.dmem := rfl
@[simp] theorem foldByte_dlen (b : Byte) (s : State) : (foldByte b s).dlen = s.dlen := rfl
@[simp] theorem foldByte_rptr (b : Byte) (s : State) : (foldByte b s).rptr = s.rptr := rfl
@[simp] theorem foldByte_err (b : Byte) (s : State) : (foldByte b s).err = s.err := rfl
@[simp] theorem foldByte_inputs (b : Byte) (s : State) : (foldByte b s).inputs = s.inputs := rfl
@[simp] theorem foldByte_responses (b : Byte) (s : State) : (foldByte b s).responses = s.responses := rfl

@[simp] theorem clearKey_cfg (s : State) : (clearKey s).cfg = s.cfg := rfl
@[simp] theorem clearKey_kreg (s : State) : (clearKey s).kreg = Block.rep 0x00#8 := rfl
@[simp] theorem clearKey_kidx (s : State) : (clearKey s).kidx = 0x0#4 := rfl
@[simp] theorem clearKey_kvalid (s : State) : (clearKey s).kvalid = false := rfl
@[simp] theorem clearKey_dmem (s : State) : (clearKey s).dmem = s.dmem := rfl
@[simp] theorem clearKey_dlen (s : State) : (clearKey s).dlen = s.dlen := rfl
@[simp] theorem clearKey_rptr (s : State) : (clearKey s).rptr = s.rptr := rfl
@[simp] theorem clearKey_err (s : State) : (clearKey s).err = s.err := rfl
@[simp] theorem clearKey_inputs (s : State) : (clearKey s).inputs = s.inputs := rfl
@[simp] theorem clearKey_responses (s : State) : (clearKey s).responses = s.responses := rfl

@[simp] theorem padInPlace_cfg (s : State) : (padInPlace s).cfg = s.cfg := rfl
@[simp] theorem padInPlace_kreg (s : State) : (padInPlace s).kreg = s.kreg := rfl
@[simp] theorem padInPlace_kidx (s : State) : (padInPlace s).kidx = s.kidx := rfl
@[simp] theorem padInPlace_kvalid (s : State) : (padInPlace s).kvalid = s.kvalid := rfl
@[simp] theorem padInPlace_dmem (s : State) : (padInPlace s).dmem = s.dmem.writeSeq s.dlen (padBytes s.dlen) := rfl
@[simp] theorem padInPlace_dlen (s : State) : (padInPlace s).dlen = s.dlen + padLen s.dlen := rfl
@[simp] theorem padInPlace_rptr (s : State) : (padInPlace s).rptr = 0 := rfl
@[simp] theorem padInPlace_err (s : State) : (padInPlace s).err = s.err := rfl
@[simp] theorem padInPlace_inputs (s : State) : (padInPlace s).inputs = s.inputs := rfl
@[simp] theorem padInPlace_responses (s : State) : (padInPlace s).responses = s.responses := rfl

@[simp] theorem ecbInPlace_cfg (f : Block → Block) (s : State) : (ecbInPlace f s).cfg = s.cfg := rfl
@[simp] theorem ecbInPlace_kreg (f : Block → Block) (s : State) : (ecbInPlace f s).kreg = s.kreg := rfl
@[simp] theorem ecbInPlace_kidx (f : Block → Block) (s : State) : (ecbInPlace f s).kidx = s.kidx := rfl
@[simp] theorem ecbInPlace_kvalid (f : Block → Block) (s : State) : (ecbInPlace f s).kvalid = s.kvalid := rfl
@[simp] theorem ecbInPlace_dmem (f : Block → Block) (s : State) : (ecbInPlace f s).dmem = s.dmem.mapBlocks f (blockCount s) := rfl
@[simp] theorem ecbInPlace_dlen (f : Block → Block) (s : State) : (ecbInPlace f s).dlen = s.dlen := rfl
@[simp] theorem ecbInPlace_rptr (f : Block → Block) (s : State) : (ecbInPlace f s).rptr = 0 := rfl
@[simp] theorem ecbInPlace_err (f : Block → Block) (s : State) : (ecbInPlace f s).err = s.err := rfl
@[simp] theorem ecbInPlace_inputs (f : Block → Block) (s : State) : (ecbInPlace f s).inputs = s.inputs := rfl
@[simp] theorem ecbInPlace_responses (f : Block → Block) (s : State) : (ecbInPlace f s).responses = s.responses := rfl

end Sys2Proof.Machine
end

