-- ==== Sys2Proof/Laws/Ops.lean ====
section
/-! SUPPORT. One specification lemma for each shared operation: everything it can do, said once, so that proofs cite it and
do not unfold the operation. The fields each update leaves alone are in Laws/State.lean. -/

namespace Sys2Proof.Machine

/-! ## Inputs -/

theorem takeInput_nil {s : State} (h : s.inputs = []) : takeInput s = none := by simp [takeInput, h]

theorem takeInput_cons {s : State} {x : HostInput} {rest : List HostInput} (h : s.inputs = x :: rest) :
    takeInput s = some (x, setInputs rest s) := by simp [takeInput, h]

/-! ## The faulted state -/

theorem unlessFaulted_ok (body : State → State) {s : State} (h : s.err = 0x00#8) : unlessFaulted body s = body s :=
  if_pos h

theorem unlessFaulted_faulted (body : State → State) {s : State} (h : s.err ≠ 0x00#8) :
    unlessFaulted body s = ignoreWord s := if_neg h

theorem reservedWord_ok {s : State} (h : s.err = 0x00#8) : reservedWord s = raiseFault .illegalCommand s := if_pos h

theorem reservedWord_faulted {s : State} (h : s.err ≠ 0x00#8) : reservedWord s = ignoreWord s := if_neg h

/-! ## The buffer -/

theorem bufferFull_iff (s : State) : bufferFull s = true ↔ s.cfg.dcap = some s.dlen := by simp [bufferFull]

@[simp] theorem length_data (s : State) : (data s).length = s.dlen := Memory.length_readSeq ..

/-- Element `i` of `data()` is `DMEM[i]` (R41). -/
theorem getD_data (s : State) {i : Nat} (h : i < s.dlen) : (data s).getD i 0x00#8 = s.dmem.read i := by
  rw [data, Memory.getD_readSeq _ _ h, Nat.zero_add]

/-- `data()` depends only on `DLEN` and the bytes below it. -/
theorem data_congr {s t : State} (hl : t.dlen = s.dlen) (hb : ∀ a < s.dlen, t.dmem.read a = s.dmem.read a) :
    data t = data s := by
  simp only [data, Memory.readSeq, hl, Nat.zero_add]
  exact List.map_congr_left fun a ha => hb a (List.mem_range.1 ha)

/-- Block `j` of the buffer is block `j` of `data()`, for a block that lies in the valid data. -/
theorem readBlock_eq_blockAt (s : State) {j : Nat} (h : 16 * j + 16 ≤ s.dlen) :
    s.dmem.readBlock j = blockAt (data s) j := by
  refine Block.ext_byte fun i hi => ?_
  rw [Memory.readBlock, blockAt, Block.byte_make _ hi, Block.byte_make _ hi, getD_data s (by omega)]

/-! ## Padding -/

theorem padLen_bounds (n : Nat) : 1 ≤ padLen n ∧ padLen n ≤ 16 := by unfold padLen; omega

@[simp] theorem length_padBytes (n : Nat) : (padBytes n).length = padLen n := List.length_replicate ..

/-- The padded length is the next multiple of 16 (R101). -/
theorem add_padLen (n : Nat) : n + padLen n = 16 * (n / 16 + 1) := by unfold padLen; omega

/-- What `PAD` writes (R104): the pad bytes at `DLEN`, nothing else. -/
theorem read_padInPlace (s : State) (a : Nat) : (padInPlace s).dmem.read a =
    if s.dlen ≤ a ∧ a < s.dlen + padLen s.dlen then BitVec.ofNat 8 (padLen s.dlen) else s.dmem.read a := by
  rw [padInPlace_dmem, Memory.read_writeSeq, length_padBytes]
  refine if_ctx_congr Iff.rfl (fun h => ?_) fun _ => rfl
  rw [padBytes, List.getD_eq_getElem?_getD, List.getElem?_replicate, if_pos (by omega), Option.getD_some]

/-- When the tests of R105 pass, and what the trailer's length then is. -/
theorem trailer_eq_some (m : Memory) (n p : Nat) : trailer m n = some p ↔
    n ≠ 0 ∧ p = (m.read (n - 1)).toNat ∧ p ≠ 0 ∧ p ≤ n ∧ ∀ i < p, m.read (n - 1 - i) = m.read (n - 1) := by
  unfold trailer
  by_cases hn : n = 0
  · simp [hn]
  · by_cases hp : (m.read (n - 1)).toNat = 0 ∨ n < (m.read (n - 1)).toNat
    · simp only [if_neg hn, if_pos hp, false_iff, reduceCtorEq]
      rintro ⟨_, rfl, h0, hle, _⟩
      omega
    · by_cases ha : (List.range (m.read (n - 1)).toNat).all (fun i => m.read (n - 1 - i) == m.read (n - 1)) = true
      · simp only [if_neg hn, if_neg hp, if_pos ha, Option.some.injEq]
        have hall : ∀ i < (m.read (n - 1)).toNat, m.read (n - 1 - i) = m.read (n - 1) := by
          simpa [List.all_eq_true] using ha
        constructor
        · rintro rfl
          exact ⟨hn, rfl, by omega, by omega, hall⟩
        · rintro ⟨_, h, _⟩
          exact h.symm
      · simp only [if_neg hn, if_neg hp, if_neg ha, false_iff, reduceCtorEq]
        rintro ⟨_, rfl, _, _, hall⟩
        exact ha (by simpa [List.all_eq_true] using hall)

/-- What `UNPAD` does (R105): drop a well-formed trailer, or raise `InvalidPadding`. -/
theorem unpadInPlace_cases (s : State) :
    (trailer s.dmem s.dlen = none ∧ unpadInPlace s = raiseFault .invalidPadding s) ∨
    ∃ p, trailer s.dmem s.dlen = some p ∧ unpadInPlace s = answerOK (setRptr 0 (setDlen (s.dlen - p) s)) := by
  unfold unpadInPlace
  cases h : trailer s.dmem s.dlen with
  | none => exact .inl ⟨rfl, rfl⟩
  | some p => exact .inr ⟨p, rfl, rfl⟩

/-! ## The block sequencer -/

/-- What the sequencer writes (R142 to R144): each byte of a whole block becomes its byte of `f` of the block. -/
theorem read_ecbInPlace (f : Block → Block) (s : State) (a : Nat) : (ecbInPlace f s).dmem.read a =
    if a < 16 * (s.dlen / 16) then (f (s.dmem.readBlock (a / 16))).byte (a % 16) else s.dmem.read a := by
  rw [ecbInPlace_dmem, Memory.read_mapBlocks, blockCount]

/-! ## Codes -/

@[simp] theorem code_eq_zero (k : FaultKind) : (k.code = 0x00#8) = False := by cases k <;> simp [FaultKind.code]

/-- The code field of a response (R64). -/
@[simp] theorem responseWord_code (c d : Byte) : (responseWord c d).extractLsb' 8 8 = c :=
  BitVec.extractLsb'_append_eq_left

/-- The data field of a response (R64). -/
@[simp] theorem responseWord_data (c d : Byte) : (responseWord c d).extractLsb' 0 8 = d :=
  BitVec.extractLsb'_append_eq_right

end Sys2Proof.Machine
end

