-- ==== Sys2Proof/Laws/PerInstr.lean ====
section
/-! SUPPORT. The family `Fields`: the two fields of a command's word are its row's opcode and its operand byte (R61,
R63). One lemma for each constructor. -/

namespace Sys2Proof.Laws.Fields

/-- The word of a well-formed command has the opcode of its row in bits 15:8 and its operand byte in bits 7:0. -/
def Statement (i : Instr) : Prop :=
  i.wellFormed = true → opcodeField (encode i) = opcodeOf i.mnemonic ∧ operandField (encode i) = operandOf i

/-- The fields of `opc * 256 + opd` (R61). -/
theorem fields_wordOf (opc opd : Byte) : opcodeField (wordOf opc opd) = opc ∧ operandField (wordOf opc opd) = opd :=
  ⟨BitVec.extractLsb'_append_eq_left, BitVec.extractLsb'_append_eq_right⟩

theorem nop : Statement .nop := fun _ => fields_wordOf ..
theorem rst : Statement .rst := fun _ => fields_wordOf ..
theorem stat : Statement .stat := fun _ => fields_wordOf ..
theorem rdlen (i : Byte) : Statement (.rdlen i) := fun _ => fields_wordOf ..
theorem kclr : Statement .kclr := fun _ => fields_wordOf ..
theorem kpush (b : Byte) : Statement (.kpush b) := fun _ => fields_wordOf ..
theorem dclr : Statement .dclr := fun _ => fields_wordOf ..
theorem dpush (b : Byte) : Statement (.dpush b) := fun _ => fields_wordOf ..
theorem dpop : Statement .dpop := fun _ => fields_wordOf ..
theorem pad : Statement .pad := fun _ => fields_wordOf ..
theorem unpad : Statement .unpad := fun _ => fields_wordOf ..
theorem ecbenc : Statement .ecbenc := fun _ => fields_wordOf ..
theorem ecbdec : Statement .ecbdec := fun _ => fields_wordOf ..
theorem encrypt : Statement .encrypt := fun _ => fields_wordOf ..
theorem decrypt : Statement .decrypt := fun _ => fields_wordOf ..

end Sys2Proof.Laws.Fields
end

