-- ==== Sys2Proof/Laws/Step.lean ====
section
/-! SUPPORT. What a step and each command can do, said once: the equation of `step` for each kind of input, and the
equation of `exec` for each command in the non-faulted and in the faulted state. -/

namespace Sys2Proof.Machine

theorem step_idle {s : State} (h : s.inputs = []) : step s = .next s := by simp [step, takeInput_nil h, idle]

theorem step_reset {s : State} {a : Option CommandWord} {rest : List HostInput} (h : s.inputs = .reset a :: rest) :
    step s = .next (wipe (setInputs rest s)) := by simp [step, takeInput_cons h, hardwareReset]

theorem step_reserved {s : State} {w : CommandWord} {rest : List HostInput} {r : ReservedWhy}
    (h : s.inputs = .command w :: rest) (hd : decode w = .reserved r) :
    step s = .next (reservedWord (setInputs rest s)) := by simp [step, takeInput_cons h, hd]

/-- The machine's commands never stop it: `exec` is a next state, given by this function. -/
def afterCommand : Instr → State → State
  | .nop => unlessFaulted answerOK
  | .rst => fun s => answerOK (wipe s)
  | .stat => fun s => answer s.err (flags s) s
  | .rdlen i => unlessFaulted fun s => answer codeOK (lengthByte s.dlen i) s
  | .kclr => unlessFaulted fun s => answerOK (clearKey s)
  | .kpush b => unlessFaulted fun s => answerOK (foldByte b s)
  | .dclr => unlessFaulted fun s => answerOK (setRptr 0 (setDlen 0 s))
  | .dpush b => unlessFaulted (dpushBody b)
  | .dpop => unlessFaulted dpopBody
  | .pad => unlessFaulted padBody
  | .unpad => unlessFaulted unpadInPlace
  | .ecbenc => unlessFaulted (sequencerBody aesEncBlock)
  | .ecbdec => unlessFaulted (sequencerBody aesDecBlock)
  | .encrypt => unlessFaulted encryptBody
  | .decrypt => unlessFaulted decryptBody

theorem exec_eq (i : Instr) (s : State) : exec i s = .next (afterCommand i s) := by cases i <;> rfl

/-- Every command but `RST` and `STAT` is ignored in the faulted state (R199). -/
theorem afterCommand_faulted {i : Instr} (hr : i ≠ .rst) (hs : i ≠ .stat) {s : State} (h : s.err ≠ 0x00#8) :
    afterCommand i s = ignoreWord s := by
  cases i <;> first | exact absurd rfl hr | exact absurd rfl hs | exact if_neg h

/-- The two outcomes of `DPUSH` in the non-faulted state (R91). -/
theorem dpushBody_cases (b : Byte) (s : State) :
    (s.cfg.dcap = some s.dlen ∧ dpushBody b s = raiseFault .bufferOverflow s) ∨
    (s.cfg.dcap ≠ some s.dlen ∧
      dpushBody b s = answerOK (setDlen (s.dlen + 1) (setDmem (s.dmem.write s.dlen b) s))) := by
  by_cases h : s.cfg.dcap = some s.dlen
  · exact .inl ⟨h, if_pos ((bufferFull_iff s).2 h)⟩
  · exact .inr ⟨h, if_neg fun hb => h ((bufferFull_iff s).1 hb)⟩

/-- The two outcomes of `DPOP` in the non-faulted state (R92). -/
theorem dpopBody_cases (s : State) :
    (s.dlen ≤ s.rptr ∧ dpopBody s = answer codeEMPTY 0x00#8 s) ∨
    (s.rptr < s.dlen ∧ dpopBody s = answer codeOK (s.dmem.read s.rptr) (setRptr (s.rptr + 1) s)) := by
  by_cases h : s.dlen ≤ s.rptr
  · exact .inl ⟨h, if_pos h⟩
  · exact .inr ⟨by omega, if_neg h⟩

/-- The two outcomes of `PAD` in the non-faulted state (R104). -/
theorem padBody_cases (s : State) :
    (s.cfg.dcap = some s.dlen ∧ padBody s = raiseFault .bufferOverflow s) ∨
    (s.cfg.dcap ≠ some s.dlen ∧ padBody s = answerOK (padInPlace s)) := by
  by_cases h : s.cfg.dcap = some s.dlen
  · exact .inl ⟨h, if_pos ((bufferFull_iff s).2 h)⟩
  · exact .inr ⟨h, if_neg fun hb => h ((bufferFull_iff s).1 hb)⟩

/-- The two outcomes of `ECBENC` and `ECBDEC` in the non-faulted state (R142, R143). -/
theorem sequencerBody_cases (f : Block → Block → Block) (s : State) :
    ((s.kvalid = false ∨ s.dlen % 16 ≠ 0) ∧ sequencerBody f s = raiseFault .invalidInput s) ∨
    (s.kvalid = true ∧ s.dlen % 16 = 0 ∧ sequencerBody f s = answerOK (ecbInPlace (f s.kreg) s)) := by
  by_cases h : s.kvalid = false ∨ s.dlen % 16 ≠ 0
  · exact .inl ⟨h, if_pos h⟩
  · refine .inr ⟨?_, by omega, if_neg h⟩
    cases hk : s.kvalid <;> simp_all

/-- The three outcomes of `ENCRYPT` in the non-faulted state (R152). -/
theorem encryptBody_cases (s : State) :
    ((s.dlen = 0 ∨ s.kvalid = false) ∧ encryptBody s = raiseFault .invalidInput s) ∨
    (s.dlen ≠ 0 ∧ s.kvalid = true ∧ s.cfg.dcap = some s.dlen ∧ encryptBody s = raiseFault .bufferOverflow s) ∨
    (s.dlen ≠ 0 ∧ s.kvalid = true ∧ s.cfg.dcap ≠ some s.dlen ∧
      encryptBody s = answerOK (ecbInPlace (aesEncBlock s.kreg) (padInPlace s))) := by
  by_cases h : s.dlen = 0 ∨ s.kvalid = false
  · exact .inl ⟨h, if_pos h⟩
  · have hd : s.dlen ≠ 0 := fun h0 => h (.inl h0)
    have hk : s.kvalid = true := by cases hk : s.kvalid <;> simp_all
    by_cases hf : s.cfg.dcap = some s.dlen
    · exact .inr (.inl ⟨hd, hk, hf, (if_neg h).trans (if_pos ((bufferFull_iff s).2 hf))⟩)
    · exact .inr (.inr ⟨hd, hk, hf, (if_neg h).trans (if_neg fun hb => hf ((bufferFull_iff s).1 hb))⟩)

/-- The two outcomes of `DECRYPT` in the non-faulted state (R153); the second is that of `unpadInPlace_cases`. -/
theorem decryptBody_cases (s : State) :
    ((s.dlen = 0 ∨ s.kvalid = false ∨ s.dlen % 16 ≠ 0) ∧ decryptBody s = raiseFault .invalidInput s) ∨
    (s.dlen ≠ 0 ∧ s.kvalid = true ∧ s.dlen % 16 = 0 ∧
      decryptBody s = unpadInPlace (ecbInPlace (aesDecBlock s.kreg) s)) := by
  by_cases h : s.dlen = 0 ∨ s.kvalid = false ∨ s.dlen % 16 ≠ 0
  · exact .inl ⟨h, if_pos h⟩
  · refine .inr ⟨by omega, ?_, by omega, if_neg h⟩
    cases hk : s.kvalid <;> simp_all

end Sys2Proof.Machine
end

