-- ==== Sys2Proof/Tests/Slice0.lean ====
section
/-! SUPPORT. The model's own tests: decoding of words written out from spec/30_encoding.md R63, the checks of
`WellFormed`, the vectors of spec/95_test_vectors.md (each test names its row), and a witness for the hypotheses of each
obligation. Expected values come from the spec's tables, not from the model. -/

namespace Sys2Proof.Tests

open Sys2Proof.Machine

/-! ## Helpers -/

/-- The 16 bytes of a 32-digit hexadecimal number, first byte first. -/
def hex16 (n : BitVec 128) : Block := Block.make fun i => n.extractLsb' (8 * (15 - i)) 8

/-- A non-faulted CORE of capacity `cap` without key, holding the data `d`. -/
def holding (cap : Nat) (d : List Byte) : State :=
  { State.resetOf { dcap := some cap } with dmem := Memory.writeSeq [] 0 d, dlen := d.length }

/-- The same with a valid key. -/
def keyed (cap : Nat) (k : Block) (d : List Byte) : State := { holding cap d with kreg := k, kvalid := true }

/-- A faulted CORE. -/
def faulted : State := { holding 64 [0x41#8] with err := 0x02#8 }

/-- The host's list holds these words. -/
def sent (ws : List CommandWord) (s : State) : State := { s with inputs := ws.map .command }

/-- What a function of the next state answers, if there is a next state. -/
def seen {α : Type} (f : State → α) : Out → Option α
  | .next s => some (f s)
  | .fault _ => none
  | .refused _ => none

/-- The last response, `ERR`, `DLEN` and `RPTR`. -/
def summary (s : State) : Option ResponseWord × Byte × Nat × Nat := (s.responses.getLast?, s.err, s.dlen, s.rptr)

/-- "myencryptionkey" folded (V-F1), and the key of V-A1. -/
def keyE1 : Block := hex16 0x6d79656e6372797074696f6e6b657900#128
def keyA1 : Block := hex16 0x000102030405060708090a0b0c0d0e0f#128
def textA1 : List Byte := (hex16 0x00112233445566778899aabbccddeeff#128).bytes
def cipherA1 : List Byte := (hex16 0x69c4e0d86a7b0430d8cdb78070b4c55a#128).bytes
def cipherE1 : List Byte := (hex16 0x4437e013df2ed9bd9ab15709abe76a4e#128).bytes
def hello : List Byte :=
  [0x48#8, 0x65#8, 0x6c#8, 0x6c#8, 0x6f#8, 0x2c#8, 0x20#8, 0x57#8, 0x6f#8, 0x72#8, 0x6c#8, 0x64#8, 0x21#8]

/-! ## Decoding (R61, R63): words written out bit by bit, opcode byte then operand byte -/

theorem test_decode_nop : decode 0b0000000000000000#16 = .command .nop := by decide
theorem test_decode_rst : decode 0b0000000100000000#16 = .command .rst := by decide
theorem test_decode_stat : decode 0b0000001000000000#16 = .command .stat := by decide
theorem test_decode_rdlen : decode 0b0000001110000001#16 = .command (.rdlen 0x81#8) := by decide
theorem test_decode_kclr : decode 0b0001000000000000#16 = .command .kclr := by decide
theorem test_decode_kpush : decode 0b0001000101101101#16 = .command (.kpush 0x6D#8) := by decide
theorem test_decode_dclr : decode 0b0010000000000000#16 = .command .dclr := by decide
theorem test_decode_dpush : decode 0b0010000101001000#16 = .command (.dpush 0x48#8) := by decide
theorem test_decode_dpop : decode 0b0010001000000000#16 = .command .dpop := by decide
theorem test_decode_pad : decode 0b0011000000000000#16 = .command .pad := by decide
theorem test_decode_unpad : decode 0b0011000100000000#16 = .command .unpad := by decide
theorem test_decode_ecbenc : decode 0b0100000000000000#16 = .command .ecbenc := by decide
theorem test_decode_ecbdec : decode 0b0100000100000000#16 = .command .ecbdec := by decide
theorem test_decode_encrypt : decode 0b0101000000000000#16 = .command .encrypt := by decide
theorem test_decode_decrypt : decode 0b0101000100000000#16 = .command .decrypt := by decide
/-- V-C7, V-C9, V-C13: an operand on a no-operand command. -/
theorem test_decode_operand_not_zero : decode 0x0101#16 = .reserved .operandNotZero ∧
    decode 0x0001#16 = .reserved .operandNotZero ∧ decode 0x2201#16 = .reserved .operandNotZero := by decide
/-- V-C2, V-C11, V-C15: unassigned opcodes. -/
theorem test_decode_unassigned : decode 0xFFFF#16 = .reserved .unassignedOpcode ∧
    decode 0x0500#16 = .reserved .unassignedOpcode ∧ decode 0x5200#16 = .reserved .unassignedOpcode := by decide

/-! ## Well-formedness and the assembler (R70, R71) -/

theorem test_ill_formed_operand : (Line.command .KPUSH (some 256)).wellFormed = false := by decide
theorem test_ill_formed_key : (Line.key [0x6d, 0x100]).wellFormed = false := by decide
theorem test_ill_formed_data : (Line.data [256]).wellFormed = false := by decide
theorem test_well_formed_line : (Line.command .KPUSH (some 255)).wellFormed = true := by decide
/-- R71: `KEY 6d79` is `KPUSH 0x6d`, `KPUSH 0x79`; P1: `LEN32` is `0300 0301 0302 0303`. -/
theorem test_assemble : assemble (.key [0x6d, 0x79]) = [0x116D#16, 0x1179#16] ∧
    assemble .len32 = [0x0300#16, 0x0301#16, 0x0302#16, 0x0303#16] ∧
    assemble (.command .NOP (some 1)) = [0x0001#16] := by decide

/-! ## Commands, one step each -/

/-- V-C4: `NOP` in the faulted state (here of code 02) answers the code. -/
theorem test_nop_faulted : seen summary (step (sent [0x0000#16] faulted)) = some (some 0x0200#16, 0x02#8, 1, 0) := by decide
/-- R166's example: `RST` from a faulted state. -/
theorem test_rst : seen (fun t => (summary t, t.dmem)) (step (sent [0x0100#16] faulted)) =
    some ((some 0x0000#16, 0x00#8, 0, 0), []) := by decide
/-- V-C1 and V-C3: `STAT` after reset and in the faulted state. -/
theorem test_stat_reset : seen summary (step (sent [0x0200#16] State.reset)) = some (some 0x0004#16, 0x00#8, 0, 0) := by decide
/-- R167's example: 15 key bytes and 13 data bytes give `0x00FB`. -/
theorem test_stat_flags : seen summary (step (sent [0x0200#16] { keyed 64 keyE1 hello with kidx := 15#4 })) =
    some (some 0x00FB#16, 0x00#8, 13, 0) := by decide
/-- V-B4: `DLEN = 300`, byte 1. -/
theorem test_rdlen : seen summary (step (sent [0x0301#16] { State.resetOf { dcap := some 512 } with dlen := 300 })) =
    some (some 0x0001#16, 0x00#8, 300, 0) := by decide
/-- V-B4: `DLEN = 300`, byte 255. -/
theorem test_rdlen_high : seen summary (step (sent [0x03FF#16] { State.resetOf { dcap := some 512 } with dlen := 300 })) =
    some (some 0x0000#16, 0x00#8, 300, 0) := by decide
/-- R82's example. -/
theorem test_kclr : seen (fun t => (t.kreg, t.kidx, t.kvalid, t.dlen))
    (step (sent [0x1000#16] { keyed 64 keyE1 hello with kidx := 15#4 })) =
    some (Block.rep 0x00#8, 0#4, false, 13) := by decide
/-- V-F3: the 17th byte folds onto byte 0. -/
theorem test_kpush_wraps : seen (fun t => (t.kreg, t.kidx)) (step (sent [0x1110#16] (keyed 64 keyA1 []))) =
    some (hex16 0x100102030405060708090a0b0c0d0e0f#128, 1#4) := by decide
/-- R83: `KIDX` wraps from 15 to 0; `KPUSH 0x00` makes the key valid. -/
theorem test_kpush_zero : seen (fun t => (t.kreg, t.kidx, t.kvalid)) (step (sent [0x1100#16] { holding 64 [] with kidx := 15#4 })) =
    some (Block.rep 0x00#8, 0#4, true) := by decide
/-- V-B6: `DCLR` keeps the bytes. -/
theorem test_dclr : seen (fun t => (summary t, t.dmem.read 12)) (step (sent [0x2000#16] { holding 64 hello with rptr := 5 })) =
    some ((some 0x0000#16, 0x00#8, 0, 0), 0x21#8) := by decide
/-- V-B7: `DPUSH` does not move `RPTR`. -/
theorem test_dpush : seen (fun t => (summary t, t.dmem.read 2)) (step (sent [0x21AA#16] { holding 64 [0x44#8, 0x37#8] with rptr := 2 })) =
    some ((some 0x0000#16, 0x00#8, 3, 2), 0xAA#8) := by decide
/-- V-B5: the 17th byte of a buffer of 16. -/
theorem test_dpush_full : seen summary (step (sent [0x2142#16] (holding 16 (List.replicate 16 0x42#8)))) =
    some (some 0x0800#16, 0x08#8, 16, 0) := by decide
/-- V-B2: the second `DPOP`. -/
theorem test_dpop : seen summary (step (sent [0x2200#16] { holding 64 [0x44#8, 0x37#8] with rptr := 1 })) =
    some (some 0x0037#16, 0x00#8, 2, 2) := by decide
/-- V-B3: `DPOP` after reset. -/
theorem test_dpop_empty : seen summary (step (sent [0x2200#16] State.reset)) = some (some 0x4000#16, 0x00#8, 0, 0) := by decide
/-- V-P3. -/
theorem test_pad : seen (fun t => (summary t, data t)) (step (sent [0x3000#16] { holding 64 hello with rptr := 4 })) =
    some ((some 0x0000#16, 0x00#8, 16, 0), hello ++ [0x03#8, 0x03#8, 0x03#8]) := by decide
/-- V-P9. -/
theorem test_pad_full : seen summary (step (sent [0x3000#16] (holding 16 (List.replicate 16 0x42#8)))) =
    some (some 0x0800#16, 0x08#8, 16, 0) := by decide
/-- V-U12: a trailer of 17 bytes. -/
theorem test_unpad_long : seen (fun t => (summary t, data t))
    (step (sent [0x3100#16] (holding 64 (List.replicate 15 0x41#8 ++ List.replicate 17 0x11#8)))) =
    some ((some 0x0000#16, 0x00#8, 15, 0), List.replicate 15 0x41#8) := by decide
/-- V-U8: a mismatch one byte before the end. -/
theorem test_unpad_mismatch : seen summary
    (step (sent [0x3100#16] { holding 64 (List.replicate 14 0x41#8 ++ [0x03#8, 0x02#8]) with rptr := 3 })) =
    some (some 0x0200#16, 0x02#8, 16, 3) := by decide
/-- V-S1. -/
theorem test_ecbenc : seen (fun t => (summary t, data t)) (step (sent [0x4000#16] (keyed 64 keyA1 textA1))) =
    some ((some 0x0000#16, 0x00#8, 16, 0), cipherA1) := by decide +kernel
/-- V-S5: a misaligned length. -/
theorem test_ecbenc_misaligned : seen summary (step (sent [0x4000#16] (keyed 64 keyA1 [0x41#8]))) =
    some (some 0x0100#16, 0x01#8, 1, 0) := by decide
/-- V-S2. -/
theorem test_ecbdec : seen (fun t => (summary t, data t)) (step (sent [0x4100#16] (keyed 64 keyA1 cipherA1))) =
    some ((some 0x0000#16, 0x00#8, 16, 0), textA1) := by decide +kernel
/-- V-S6: no key. -/
theorem test_ecbdec_no_key : seen summary (step (sent [0x4100#16] (holding 64 []))) =
    some (some 0x0100#16, 0x01#8, 0, 0) := by decide
/-- V-E1. -/
theorem test_encrypt : seen (fun t => (summary t, data t)) (step (sent [0x5000#16] (keyed 64 keyE1 hello))) =
    some ((some 0x0000#16, 0x00#8, 16, 0), cipherE1) := by decide +kernel
/-- V-E18: `InvalidInput` before `BufferOverflow`. -/
theorem test_encrypt_priority : seen summary (step (sent [0x5000#16] (holding 16 (List.replicate 16 0x42#8)))) =
    some (some 0x0100#16, 0x01#8, 16, 0) := by decide
/-- V-D1. -/
theorem test_decrypt : seen (fun t => (summary t, data t)) (step (sent [0x5100#16] (keyed 64 keyE1 cipherE1))) =
    some ((some 0x0000#16, 0x00#8, 13, 0), hello) := by decide +kernel
/-- V-D2, P5: the wrong key leaves the decrypted block, `DLEN = 16`, `RPTR = 0`. -/
theorem test_decrypt_wrong_key : seen (fun t => (summary t, data t))
    (step (sent [0x5100#16] { keyed 64 (hex16 0x6f746865726b65790000000000000000#128) cipherE1 with rptr := 7 })) =
    some ((some 0x0200#16, 0x02#8, 16, 0), (hex16 0x7bb98d86f49b9c33678febd0005dac05#128).bytes) := by decide +kernel
/-- V-C2 and V-C5: a reserved word, and one in the faulted state. -/
theorem test_reserved : seen summary (step (sent [0xFFFF#16] State.reset)) = some (some 0x0900#16, 0x09#8, 0, 0) ∧
    seen summary (step (sent [0x0101#16] faulted)) = some (some 0x0200#16, 0x02#8, 1, 0) := by decide
/-- R215, R216: the hardware reset gives no response. -/
theorem test_hardware_reset : seen summary (step { faulted with inputs := [.reset (some 0x5000#16)] }) =
    some (none, 0x00#8, 0, 0) := by decide
/-- The host's placement of a word: the next step runs it. -/
theorem test_fetch_word : seen summary (step (State.reset.withFetchWord 16 0x2148)) = some (some 0x0000#16, 0x00#8, 1, 0) ∧
    decodeTableWord 16 0x2148 = some (.dpush 0x48#8) := by decide

/-! ## Pure functions -/

/-- V-F10: forty key bytes 0x01 to 0x28. -/
theorem test_fold_key : foldKey ((List.range 40).map fun i => BitVec.ofNat 8 (i + 1)) =
    hex16 0x31323334353637381010101010101030#128 := by decide +kernel
/-- V-A2, round key 1 and round key 10 (spec/95_test_vectors.md section 2). -/
theorem test_round_keys : roundKey (keyWords (hex16 0x2b7e151628aed2a6abf7158809cf4f3c#128)) 1 =
      hex16 0xa0fafe1788542cb123a339392a6c7605#128 ∧
    roundKey (keyWords (hex16 0x2b7e151628aed2a6abf7158809cf4f3c#128)) 10 =
      hex16 0xd014f9a8c9ee2589e13f0cc8b6630ca6#128 := by decide +kernel
/-- V-A1, round 1 of the trace. -/
theorem test_round_trace : subBytes (hex16 0x00102030405060708090a0b0c0d0e0f0#128) =
      hex16 0x63cab7040953d051cd60e0e7ba70e18c#128 ∧
    shiftRows (hex16 0x63cab7040953d051cd60e0e7ba70e18c#128) = hex16 0x6353e08c0960e104cd70b751bacad0e7#128 ∧
    mixColumns (hex16 0x6353e08c0960e104cd70b751bacad0e7#128) = hex16 0x5f72641557f5bc92f7be3b291db9f91a#128 := by
  decide +kernel
/-- V-A2 and V-A3. -/
theorem test_aes_vectors : aesEncBlock (hex16 0x2b7e151628aed2a6abf7158809cf4f3c#128)
      (hex16 0x3243f6a8885a308d313198a2e0370734#128) = hex16 0x3925841d02dc09fbdc118597196a0b32#128 ∧
    aesEncBlock (Block.rep 0x00#8) (Block.rep 0x00#8) = hex16 0x66e94bd4ef8a2c3b884cfa59ca342b2e#128 := by decide +kernel

/-! ## Witnesses: for each obligation with hypotheses, a state and operands that meet them -/

/-- A sequence of good padding and one of bad padding. -/
theorem witness_trailers : ¬ BadTrailer [0x41#8, 0x02#8, 0x02#8] ∧ BadTrailer [0x41#8] := by
  unfold BadTrailer; decide

theorem witness_DecodeAndEncodeAgree : (Instr.kpush 0xFF#8).wellFormed = true ∧ decode 0x11FF#16 = .command (.kpush 0xFF#8) := by
  decide

theorem witness_ReservedEncodingsRaiseIllegalCommand :
    (sent [0x01FF#16] State.reset).inputs = [.command 0x01FF#16] ∧ decode 0x01FF#16 = .reserved .operandNotZero ∧
      (sent [0x01FF#16] State.reset).err = 0x00#8 := by decide

theorem witness_StepRunsTheDecodedCommand : (sent [0x5000#16] State.reset).inputs = [.command 0x5000#16] ∧
    decode 0x5000#16 = .command .encrypt := by decide

theorem witness_EveryStepCompletesWithOneResponsePerCommand : State.reset.inputs = [] ∧
    (sent [0xFFFF#16] State.reset).inputs = [.command 0xFFFF#16] ∧
    { State.reset with inputs := [.reset none] }.inputs = [.reset none] := by decide

/-- Also the witness of `ResetStateHoldsTheSpecValues`, `HardwareResetAndRstLeaveTheSameState` and
`HardwareResetAbandonsTheCommand`. -/
theorem witness_HardwareReset : { faulted with inputs := [.reset (some 0x5100#16)] }.inputs = [.reset (some 0x5100#16)] := rfl

/-- Also the witness of `ResetStateMeetsTheInvariant`: the least capacity, and none. -/
theorem witness_capacities : Config.legal { dcap := some 16 } = true ∧ Config.legal { dcap := none } = true ∧
    Config.legal { dcap := some 15 } = false ∧ Config.legal { dcap := some 24 } = false := by decide

/-- A state that meets the invariant with the buffer full and read to its end, and a step from it. -/
theorem witness_EveryStepKeepsTheInvariant :
    CoreInv { keyed 16 keyA1 textA1 with rptr := 16, inputs := [.command 0x2200#16] } ∧
    ∃ t, step { keyed 16 keyA1 textA1 with rptr := 16, inputs := [.command 0x2200#16] } = .next t :=
  ⟨⟨by decide, by decide, by decide, by decide, by decide, by decide, by decide⟩, _, rfl⟩

/-- The clause on runs: two steps from reset. -/
theorem witness_reachable : ∃ t, Host.Core.run Sys2Proof.core 2
    { State.resetOf { dcap := some 16 } with inputs := [.command 0x1141#16, .reset none] } = .next t := ⟨_, rfl⟩

/-- The non-faulted and the faulted state, for every statement about one command. -/
theorem witness_modes : (keyed 64 keyA1 textA1).err = 0x00#8 ∧ faulted.err ≠ 0x00#8 := by decide

theorem witness_RstReserved : (0x01#8 : Byte) ≠ 0x00#8 ∧ (0xFF#8 : Byte) ≠ 0x00#8 := by decide

/-- Both cases of `DPUSH`, `PAD` and `ENCRYPT`: the buffer full, and one byte below full, with a key. -/
theorem witness_capacity_cases :
    (keyed 16 keyA1 textA1).cfg.dcap = some (keyed 16 keyA1 textA1).dlen ∧ (keyed 16 keyA1 textA1).kvalid = true ∧
    (keyed 16 keyA1 (textA1.take 15)).cfg.dcap ≠ some (keyed 16 keyA1 (textA1.take 15)).dlen ∧
    (keyed 16 keyA1 (textA1.take 15)).dlen = 15 ∧ (keyed 16 keyA1 (textA1.take 15)).cfg.legal = true ∧
    (keyed 16 keyA1 (textA1.take 15)).cfg.holds (keyed 16 keyA1 (textA1.take 15)).dlen = true := by decide

/-- Both cases of `DPOP`, at the boundary. -/
theorem witness_DpopReturnsTheNextByteOrEmpty :
    { holding 64 hello with rptr := 12 }.rptr < (holding 64 hello).dlen ∧
    (holding 64 hello).dlen ≤ { holding 64 hello with rptr := 13 }.rptr := by decide

theorem witness_RdlenReturnsOneLengthByte : (holding 64 hello).dlen < 256 ^ (0x01#8 : Byte).toNat := by decide

theorem witness_LengthBytesAreLittleEndian : (holding 64 hello).err = 0x00#8 ∧ (holding 64 hello).dlen < 2 ^ 32 := by decide

theorem witness_FoldKeyIsTheXorOfItsColumns : (0 : Nat) < 16 ∧ 15 < 16 := by decide

theorem witness_KeyStreamLeavesTheFoldedKey : State.reset.err = 0x00#8 ∧
    (∀ i ∈ [Instr.kpush 0x01#8, .stat, .kpush 0x02#8, .encrypt], i ≠ .rst ∧ i ≠ .kclr) ∧
    (∃ t, submit ([Instr.kclr, .kpush 0x01#8, .stat, .kpush 0x02#8].map encode) State.reset = .next t ∧ t.err = 0x00#8) :=
  ⟨by decide, by decide, _, rfl, by decide⟩

/-- With other commands between, at `n = DCAP`, and an interleaved read-out past the end. -/
theorem witness_DataStreamLoadsAndReadsBack : State.reset.err = 0x00#8 ∧ State.reset.rptr = 0 ∧
    State.reset.cfg.holds (dataPushed [.dpush 0x01#8, .kpush 0x02#8, .dpush 0x03#8]).length = true ∧
    dataPushed (textA1.map .dpush) = textA1 ∧ (holding 16 []).cfg.dcap = some textA1.length ∧
    (holding 16 []).cfg.holds (dataPushed (textA1.map .dpush)).length = true ∧
    (∀ i ∈ [Instr.dpop, .stat, .dpop], i = .nop ∨ i = .stat ∨ i = .dpop) := by decide

/-- Both cases of `UNPAD`. -/
theorem witness_UnpadCommandDropsTheTrailer :
    ¬ BadTrailer (data (holding 64 [0x41#8, 0x02#8, 0x02#8])) ∧ BadTrailer (data (holding 64 [0x41#8])) := witness_trailers

theorem witness_FieldMultiplicationLaws : (0x53#8 : Byte) ≠ 0x00#8 := by decide

/-- The first and the last of the rounds that R121 and R125 repeat. -/
theorem witness_BlockCipherDirectionsUndoEachOther : (1 ≤ 1 ∧ 1 ≤ 9) ∧ 1 ≤ 9 ∧ 9 ≤ 9 := by decide

theorem witness_EcbWorksBlockByBlock : textA1.length % 16 = 0 ∧ 0 < textA1.length / 16 ∧ blockAt textA1 0 = blockAt textA1 0 := by
  decide

/-- Both cases of `ECBENC` and `ECBDEC`, the empty buffer among them. -/
theorem witness_EcbCommands : (keyed 64 keyA1 textA1).kvalid = true ∧ (keyed 64 keyA1 textA1).dlen % 16 = 0 ∧
    (keyed 64 keyA1 []).dlen % 16 = 0 ∧ (holding 64 textA1).kvalid = false ∧ (keyed 64 keyA1 hello).dlen % 16 ≠ 0 := by decide

/-- The cases of `DECRYPT`: the decrypted data ends in good padding, and in bad padding. -/
theorem witness_DecryptCommandComputesDecrypt : (keyed 64 keyE1 cipherE1).dlen ≠ 0 ∧ (keyed 64 keyE1 cipherE1).dlen % 16 = 0 ∧
    unpad (ecbDec keyE1 (data (keyed 64 keyE1 cipherE1))) = .bytes hello ∧
    unpad (ecbDec (Block.rep 0x00#8) (data (keyed 64 (Block.rep 0x00#8) cipherE1))) = .error .invalidPadding := by
  decide +kernel

theorem witness_ResultLengths : (∃ c, encryptCall hello [0x61#8] = .bytes c) ∧
    decryptCall cipherE1 keyE1.bytes = .bytes hello := ⟨⟨_, rfl⟩, by decide +kernel⟩

theorem witness_DecryptUndoesEncrypt : hello ≠ [] ∧ [0x00#8] ≠ ([] : List Byte) := by decide

/-- The premises of the statements on exact causes. -/
theorem witness_ExactCauses : ∃ t, exec .encrypt (holding 64 hello) = .next t ∧ (holding 64 hello).err = 0x00#8 ∧
    t.err = 0x01#8 := ⟨_, rfl, by decide, by decide⟩

theorem witness_FaultEntryChangesOnlyErr : ∃ t, step (sent [0x3100#16] State.reset) = .next t ∧ t.err ≠ 0x00#8 :=
  ⟨_, rfl, by decide⟩

theorem witness_FaultedStateIgnoresEveryWordButRst : (sent [0x0200#16] faulted).inputs = [.command 0x0200#16] ∧
    (sent [0x0200#16] faulted).err ≠ 0x00#8 ∧ (0x0200#16 : CommandWord) ≠ 0x0100#16 := by decide

theorem witness_OnlyResetLeavesTheFaultedState : ∃ t, step (sent [0x0100#16] faulted) = .next t ∧
    faulted.err ≠ 0x00#8 ∧ t.err ≠ faulted.err := ⟨_, rfl, by decide, by decide⟩

/-- Both clauses of `ErrIsWrittenOnlyByFaultsAndResets`: a fault, and a reset. -/
theorem witness_ErrIsWrittenOnlyByFaultsAndResets :
    (∃ t, step (sent [0xFFFF#16] State.reset) = .next t ∧ t.err ≠ State.reset.err) ∧
    ∃ t, step { faulted with inputs := [.reset none] } = .next t ∧ t.err ≠ faulted.err :=
  ⟨⟨_, rfl, by decide⟩, _, rfl, by decide⟩

theorem witness_CommandsWriteOnlyTheirState : ∃ t, exec .pad (holding 64 hello) = .next t ∧ (holding 64 hello).err = 0x00#8 :=
  ⟨_, rfl, by decide⟩

/-- Two states that differ only at `DLEN`, and in their bytes. -/
theorem witness_BytesAboveDlenAreUnobservable :
    { holding 64 hello with dlen := 12 } = { { holding 64 hello with dlen := 12, dmem := [] } with dmem := (holding 64 hello).dmem } ∧
    (∀ a < 12, (Memory.write (holding 64 hello).dmem 12 0xEE#8).read a = (holding 64 hello).dmem.read a) ∧
    (Memory.write (holding 64 hello).dmem 12 0xEE#8).read 12 ≠ (holding 64 hello).dmem.read 12 := by decide

/-- Two states that differ only in `KREG`: a `STAT`, a `DECRYPT` whose padding is good in one and bad in the other
(`witness_DecryptCommandComputesDecrypt`), one that both turn away for a misaligned length, and the faulted state. -/
theorem witness_KeyRegistersAreNeverReadBack :
    keyed 64 keyE1 textA1 = { keyed 64 keyA1 textA1 with kreg := (keyed 64 keyE1 textA1).kreg } ∧
    keyed 64 keyE1 textA1 ≠ keyed 64 keyA1 textA1 ∧ (∃ t, exec .stat (keyed 64 keyA1 textA1) = .next t) ∧
    keyed 64 (Block.rep 0x00#8) cipherE1 = { keyed 64 keyE1 cipherE1 with kreg := Block.rep 0x00#8 } ∧
    (∃ t, exec .decrypt (keyed 64 keyE1 cipherE1) = .next t) ∧ (keyed 64 keyE1 cipherE1).err = 0x00#8 ∧
    (∃ t, exec .decrypt (keyed 64 keyE1 hello) = .next t ∧ t.err = 0x01#8) ∧
    faulted.err ≠ 0x00#8 ∧ ∃ t, exec .decrypt faulted = .next t :=
  ⟨rfl, by decide, ⟨_, rfl⟩, rfl, ⟨_, rfl⟩, by decide, ⟨_, rfl, by decide⟩, by decide, _, rfl⟩

/-- The premises of the transactions at the least legal capacity: `len(p) = DCAP - 1` with a key and without, a ciphertext
of `DCAP` bytes with each outcome. -/
theorem witness_transactions :
    (holding 16 []).cfg.dcap = some ((dataPushed (.kpush 0x61#8 :: (textA1.take 15).map .dpush)).length + 1) ∧
    (holding 16 []).cfg.holds ((dataPushed (.kpush 0x61#8 :: (textA1.take 15).map .dpush)).length + 1) = true ∧
    keyPushed (.kpush 0x61#8 :: (textA1.take 15).map .dpush) = [0x61#8] ∧ (holding 16 hello).err = 0x00#8 ∧
    (∃ c, encryptCall (textA1.take 15) [0x61#8] = .bytes c) ∧ encryptCall (textA1.take 15) [] = .error .invalidInput ∧
    (holding 16 []).cfg.dcap = some cipherE1.length ∧ (holding 16 []).cfg.holds cipherE1.length = true ∧
    decryptCall cipherE1 [] = .error .invalidInput ∧ hello.length < 2 ^ 32 :=
  ⟨by decide, by decide, by decide, by decide, ⟨_, rfl⟩, by decide, by decide, by decide, by decide, by decide⟩

/-- A text of `DCAP + 1` bytes, and one of `DCAP`. -/
theorem witness_OversizedTransactionsAreRefused : (holding 16 []).cfg.legal = true ∧ (holding 16 []).cfg.dcap = some 16 ∧
    (textA1 ++ [0x42#8]).length = 16 + 1 ∧ textA1.length = 16 := by decide

end Sys2Proof.Tests
end

/-! SUPPORT. The family of spec/10_state.md: the flag byte (O16), who writes `ERR` (O54), and the reset values (O8). -/

namespace Sys2Proof.Machine

/-! ## The flag byte (R29) -/

theorem flagBit_eq_toNat (p : Bool) : flagBit p = p.toNat := by cases p <;> rfl

/-- The weighted sum of R29 fits in a byte, so the flag byte is that sum. -/
theorem flags_toNat (s : State) : (flags s).toNat =
    s.kvalid.toNat + 2 * (flagDNE s).toNat + 4 * (flagALN s).toNat + 8 * (flagRAV s).toNat + 16 * s.kidx.toNat := by
  have hV := s.kvalid.toNat_le
  have hD := (flagDNE s).toNat_le
  have hA := (flagALN s).toNat_le
  have hR := (flagRAV s).toNat_le
  have hK := s.kidx.isLt
  simp only [flags, flagBit_eq_toNat, BitVec.toNat_ofNat]
  omega

/-- A bit of a word is given by the remainder of its value. -/
theorem getLsbD_eq_of_toNat {w : Nat} {x : BitVec w} {i : Nat} {b : Bool} (h : x.toNat / 2 ^ i % 2 = b.toNat) :
    x.getLsbD i = b := by
  rw [BitVec.getLsbD, Nat.testBit_eq_decide_div_mod_eq, h]
  cases b <;> rfl

/-- Bits 3:0 of the flag byte are the four conditions, bits 7:4 are `KIDX`. -/
theorem flags_bits (s : State) : (flags s).getLsbD 0 = s.kvalid ∧ (flags s).getLsbD 1 = flagDNE s ∧
    (flags s).getLsbD 2 = flagALN s ∧ (flags s).getLsbD 3 = flagRAV s ∧ (flags s).extractLsb' 4 4 = s.kidx := by
  have hsum := flags_toNat s
  have hV := s.kvalid.toNat_le
  have hD := (flagDNE s).toNat_le
  have hA := (flagALN s).toNat_le
  have hR := (flagRAV s).toNat_le
  have hK := s.kidx.isLt
  refine ⟨getLsbD_eq_of_toNat ?_, getLsbD_eq_of_toNat ?_, getLsbD_eq_of_toNat ?_, getLsbD_eq_of_toNat ?_,
    BitVec.eq_of_toNat_eq ?_⟩
  case refine_5 =>
    rw [BitVec.extractLsb'_toNat, Nat.shiftRight_eq_div_pow]
    omega
  all_goals omega

theorem flagDNE_eq (s : State) : flagDNE s = decide (s.dlen ≠ 0) := by
  rw [flagDNE, bne, beq_eq_decide, ← decide_not]

theorem flagALN_eq (s : State) : flagALN s = decide (s.dlen % 16 = 0) := beq_eq_decide ..

/-- Settles O16, from the sum, whose four conditions are bits and whose last term is the upper half of the byte. -/
theorem flagByteBits : Obligations.FlagByteBits := by
  intro s
  obtain ⟨hV, hD, hA, hR, hK⟩ := flags_bits s
  have hsum := flags_toNat s
  rw [flagDNE_eq] at hD hsum
  rw [flagALN_eq] at hA hsum
  exact ⟨hV, hD, hA, hR, hK, hsum, rfl⟩

/-! ## The words of the decoded commands (R61, R63) -/

/-- A word is its two fields. -/
theorem wordOf_fields (w : CommandWord) : wordOf (opcodeField w) (operandField w) = w := by
  refine BitVec.eq_of_getLsbD_eq fun i hi => ?_
  simp only [wordOf, opcodeField, operandField, BitVec.getLsbD_append, BitVec.getLsbD_extractLsb']
  by_cases h : i < 8
  · simp [h]
  · have : i - 8 < 8 := by omega
    simp [h, this, Nat.add_sub_cancel' (Nat.le_of_not_lt h)]

/-- A row selects by the whole opcode field and by the operand field where its mask covers it. -/
theorem fields_of_selects {r : OpcodeRow} {w : CommandWord} (h : r.selects w = true) :
    opcodeField w &&& opcodeField r.maskBits = opcodeField r.matchBits ∧
    operandField w &&& operandField r.maskBits = operandField r.matchBits := by
  have hw : w &&& r.maskBits = r.matchBits := by simpa [OpcodeRow.selects] using h
  rw [← hw]
  exact ⟨BitVec.extractLsb'_and.symm, BitVec.extractLsb'_and.symm⟩

/-- In each row the mask covers the opcode, and the operand field is either covered and zero or the command's operand. -/
theorem opcodeMap_fields : ∀ r ∈ opcodeMap,
    opcodeField r.maskBits = 0xFF#8 ∧ opcodeField r.matchBits = opcodeOf r.mnemonic ∧
    ((operandField r.maskBits = 0xFF#8 ∧ ∀ b, operandOf (instrOf r.mnemonic b) = operandField r.matchBits) ∨
      ∀ b, operandOf (instrOf r.mnemonic b) = b) := by
  simp [opcodeMap, opcodeField, operandField, opcodeOf, instrOf, operandOf]

theorem mnemonic_instrOf (m : Mnemonic) (b : Byte) : (instrOf m b).mnemonic = m := by cases m <;> rfl

/-- A word that decodes to a command is that command's word. -/
theorem encode_of_decode {w : CommandWord} {i : Instr} (h : decode w = .command i) : encode i = w := by
  unfold decode at h
  split at h
  case h_2 => cases h
  case h_1 r hr =>
    cases h
    have hsel : r.selects w = true := by simpa using List.find?_some hr
    obtain ⟨hopc, hopd⟩ := fields_of_selects hsel
    obtain ⟨hmask, hmatch, hrow⟩ := opcodeMap_fields r (List.mem_of_find?_eq_some hr)
    have ones_and (b : Byte) : b &&& 0xFF#8 = b := BitVec.and_allOnes
    have hopcode : opcodeOf r.mnemonic = opcodeField w := by rw [← hmatch, ← hopc, hmask, ones_and]
    have hoperand : operandOf (instrOf r.mnemonic (operandField w)) = operandField w := by
      obtain ⟨hcovered, hzero⟩ | hfree := hrow
      · rw [hzero, ← hopd, hcovered, ones_and]
      · exact hfree _
    rw [encode, mnemonic_instrOf, hopcode, hoperand, wordOf_fields]

/-! ## Who writes `ERR` (R28) -/

/-- Fault entry on the way from `s` to `t` (R198): `ERR` holds a code that commands raise, and the response gives it. -/
def FaultEntered (s t : State) : Prop :=
  t.err ∈ [0x01#8, 0x02#8, 0x08#8, 0x09#8] ∧ t.responses = s.responses ++ [t.err ++ 0x00#8]

/-- `ERR` is as it was, or was written by fault entry. -/
def ErrKeptOrFaultEntered (s t : State) : Prop := t.err = s.err ∨ FaultEntered s t

theorem faultEntered_raiseFault {k : FaultKind} (s : State) (hk : k.code ∈ [0x01#8, 0x02#8, 0x08#8, 0x09#8]) :
    FaultEntered s (raiseFault k s) := ⟨hk, rfl⟩

theorem invalidInput_errKeptOrFaultEntered (s : State) : ErrKeptOrFaultEntered s (raiseFault .invalidInput s) :=
  .inr (faultEntered_raiseFault s (by decide))

theorem bufferOverflow_errKeptOrFaultEntered (s : State) : ErrKeptOrFaultEntered s (raiseFault .bufferOverflow s) :=
  .inr (faultEntered_raiseFault s (by decide))

theorem dpushBody_errKeptOrFaultEntered (b : Byte) (s : State) : ErrKeptOrFaultEntered s (dpushBody b s) := by
  obtain ⟨-, h⟩ | ⟨-, h⟩ := dpushBody_cases b s <;> rw [h]
  · exact bufferOverflow_errKeptOrFaultEntered s
  · exact .inl rfl

theorem dpopBody_errKeptOrFaultEntered (s : State) : ErrKeptOrFaultEntered s (dpopBody s) := by
  obtain ⟨-, h⟩ | ⟨-, h⟩ := dpopBody_cases s <;> rw [h] <;> exact .inl rfl

theorem padBody_errKeptOrFaultEntered (s : State) : ErrKeptOrFaultEntered s (padBody s) := by
  obtain ⟨-, h⟩ | ⟨-, h⟩ := padBody_cases s <;> rw [h]
  · exact bufferOverflow_errKeptOrFaultEntered s
  · exact .inl rfl

theorem unpadInPlace_errKeptOrFaultEntered (s : State) : ErrKeptOrFaultEntered s (unpadInPlace s) := by
  obtain ⟨-, h⟩ | ⟨p, -, h⟩ := unpadInPlace_cases s <;> rw [h]
  · exact .inr (faultEntered_raiseFault s (by decide))
  · exact .inl rfl

theorem sequencerBody_errKeptOrFaultEntered (f : Block → Block → Block) (s : State) :
    ErrKeptOrFaultEntered s (sequencerBody f s) := by
  obtain ⟨-, h⟩ | ⟨-, -, h⟩ := sequencerBody_cases f s <;> rw [h]
  · exact invalidInput_errKeptOrFaultEntered s
  · exact .inl rfl

theorem encryptBody_errKeptOrFaultEntered (s : State) : ErrKeptOrFaultEntered s (encryptBody s) := by
  obtain ⟨-, h⟩ | ⟨-, -, -, h⟩ | ⟨-, -, -, h⟩ := encryptBody_cases s <;> rw [h]
  · exact invalidInput_errKeptOrFaultEntered s
  · exact bufferOverflow_errKeptOrFaultEntered s
  · exact .inl rfl

/-- The block sequencer that runs before the unpadding touches neither `ERR` nor the responses. -/
theorem decryptBody_errKeptOrFaultEntered (s : State) : ErrKeptOrFaultEntered s (decryptBody s) := by
  obtain ⟨-, h⟩ | ⟨-, -, -, h⟩ := decryptBody_cases s <;> rw [h]
  · exact invalidInput_errKeptOrFaultEntered s
  · exact unpadInPlace_errKeptOrFaultEntered (ecbInPlace (aesDecBlock s.kreg) s)

/-- Behind the test of the faulted state a command enters a fault only from `ERR = 0x00`. -/
theorem unlessFaulted_err {body : State → State} (hbody : ∀ s, ErrKeptOrFaultEntered s (body s)) (s : State) :
    (unlessFaulted body s).err = s.err ∨ (s.err = 0x00#8 ∧ FaultEntered s (unlessFaulted body s)) := by
  by_cases h : s.err = 0x00#8
  · rw [unlessFaulted_ok body h]
    exact (hbody s).imp_right fun hf => ⟨h, hf⟩
  · rw [unlessFaulted_faulted body h]
    exact .inl rfl

/-- Every command but `RST` keeps `ERR`, or enters a fault from `ERR = 0x00`. -/
theorem afterCommand_err {i : Instr} (hi : i ≠ .rst) (s : State) :
    (afterCommand i s).err = s.err ∨ (s.err = 0x00#8 ∧ FaultEntered s (afterCommand i s)) := by
  cases i with
  | rst => exact absurd rfl hi
  | stat => exact .inl rfl
  | nop | rdlen | kclr | kpush | dclr =>
    refine unlessFaulted_err ?_ s
    exact fun _ => .inl rfl
  | dpush b => exact unlessFaulted_err (dpushBody_errKeptOrFaultEntered b) s
  | dpop => exact unlessFaulted_err dpopBody_errKeptOrFaultEntered s
  | pad => exact unlessFaulted_err padBody_errKeptOrFaultEntered s
  | unpad => exact unlessFaulted_err unpadInPlace_errKeptOrFaultEntered s
  | ecbenc => exact unlessFaulted_err (sequencerBody_errKeptOrFaultEntered aesEncBlock) s
  | ecbdec => exact unlessFaulted_err (sequencerBody_errKeptOrFaultEntered aesDecBlock) s
  | encrypt => exact unlessFaulted_err encryptBody_errKeptOrFaultEntered s
  | decrypt => exact unlessFaulted_err decryptBody_errKeptOrFaultEntered s

theorem reservedWord_err (s : State) :
    (reservedWord s).err = s.err ∨ (s.err = 0x00#8 ∧ FaultEntered s (reservedWord s)) :=
  unlessFaulted_err (fun s => .inr (faultEntered_raiseFault s (by decide))) s

theorem step_command {s : State} {w : CommandWord} {rest : List HostInput} {i : Instr}
    (h : s.inputs = .command w :: rest) (hd : decode w = .command i) :
    step s = .next (afterCommand i (setInputs rest s)) := by simp [step, takeInput_cons h, hd, exec_eq]

/-- Settles O54, over the four kinds of step: none waiting, a reset input, a reserved word, and a command. -/
theorem errIsWrittenOnlyByFaultsAndResets : Obligations.ErrIsWrittenOnlyByFaultsAndResets := by
  intro s t hstep hne
  match hin : s.inputs with
  | [] =>
    obtain rfl : s = t := by simpa [step_idle hin] using hstep
    exact absurd rfl hne
  | .reset a :: rest =>
    obtain rfl : wipe (setInputs rest s) = t := by simpa [step_reset hin] using hstep
    exact .inr ⟨rfl, _, rest, rfl, .inr ⟨a, rfl⟩⟩
  | .command w :: rest =>
    cases hd : decode w with
    | reserved why =>
      obtain rfl : reservedWord (setInputs rest s) = t := by simpa [step_reserved hin hd] using hstep
      exact .inl ((reservedWord_err _).resolve_left hne)
    | command i =>
      obtain rfl : afterCommand i (setInputs rest s) = t := by simpa [step_command hin hd] using hstep
      by_cases hi : i = .rst
      · subst hi
        have hw : w = 0x0100#16 := (encode_of_decode hd).symm
        exact .inr ⟨rfl, _, rest, rfl, .inl (congrArg _ hw)⟩
      · exact .inl ((afterCommand_err hi _).resolve_left hne)

/-! ## The reset values (R33) -/

theorem wipedClean_resetOf (c : Config) : WipedClean (State.resetOf c) :=
  ⟨fun _ hi => Block.byte_rep _ hi, rfl, rfl, Memory.read_nil, rfl, rfl, rfl⟩

/-- The wipe differs from the reset state only in the two ports. -/
theorem wipedClean_wipe (s : State) : WipedClean (wipe s) := wipedClean_resetOf s.cfg

/-- Settles O8: both resets wipe, and the answer of `RST` is on the response port only. -/
theorem resetStateHoldsTheSpecValues : Obligations.ResetStateHoldsTheSpecValues :=
  ⟨wipedClean_resetOf, wipedClean_resetOf Config.standard,
    fun s => ⟨answerOK (wipe s), exec_eq .rst s, wipedClean_wipe s⟩,
    fun s _ rest h => ⟨wipe (setInputs rest s), step_reset h, wipedClean_wipe (setInputs rest s)⟩⟩

end Sys2Proof.Machine

/-! SUPPORT. The family of spec/30_encoding.md: the rows of the opcode map (O2) and the reserved encodings (O3). -/

namespace Sys2Proof

/-- The columns of a row, as R63 prints them: `match`, `mask`, and the command of the operand byte. -/
def OpcodeRow.columns (r : OpcodeRow) : CommandWord × CommandWord × (Byte → Instr) :=
  (r.matchBits, r.maskBits, instrOf r.mnemonic)

/-- The row of a no-operand command, whose mask covers the operand byte. -/
def OpcodeRow.noOperand (r : OpcodeRow) : Bool := operandField r.maskBits == 0xFF#8

/-- The opcodes of the map. -/
def assignedOpcodes : List Byte := opcodeMap.map fun r => opcodeOf r.mnemonic

/-- The opcodes of its no-operand commands. -/
def noOperandOpcodes : List Byte := (opcodeMap.filter OpcodeRow.noOperand).map fun r => opcodeOf r.mnemonic

end Sys2Proof

namespace Sys2Proof.Machine

/-! ## Which row a word selects (R63) -/

/-- Selection is a condition on each field of the word. -/
theorem selects_iff_fields (r : OpcodeRow) (w : CommandWord) : r.selects w = true ↔
    opcodeField w &&& opcodeField r.maskBits = opcodeField r.matchBits ∧
    operandField w &&& operandField r.maskBits = operandField r.matchBits := by
  refine ⟨fields_of_selects, fun ⟨hopc, hopd⟩ => ?_⟩
  have hopc' : opcodeField (w &&& r.maskBits) = opcodeField r.matchBits := BitVec.extractLsb'_and.trans hopc
  have hopd' : operandField (w &&& r.maskBits) = operandField r.matchBits := BitVec.extractLsb'_and.trans hopd
  rw [OpcodeRow.selects, beq_iff_eq, ← wordOf_fields (w &&& r.maskBits), hopc', hopd', wordOf_fields]

/-- In each row the operand byte of `match` is zero, and that of `mask` is all ones or zero. -/
theorem opcodeMap_operandBits : ∀ r ∈ opcodeMap, operandField r.matchBits = 0x00#8 ∧
    operandField r.maskBits = if r.noOperand then 0xFF#8 else 0x00#8 := by decide

/-- A word selects a row when it has the row's opcode and, for a no-operand command, a zero operand. -/
theorem selects_iff {r : OpcodeRow} (hr : r ∈ opcodeMap) (w : CommandWord) : r.selects w = true ↔
    opcodeField w = opcodeOf r.mnemonic ∧ (r.noOperand = true → operandField w = 0x00#8) := by
  obtain ⟨hmask, hmatch, -⟩ := opcodeMap_fields r hr
  obtain ⟨hzero, hcover⟩ := opcodeMap_operandBits r hr
  have ones_and (b : Byte) : b &&& 0xFF#8 = b := BitVec.and_allOnes
  rw [selects_iff_fields, hmask, hmatch, hzero, hcover, ones_and]
  cases r.noOperand with
  | false => simp
  | true => simp [ones_and]

theorem opcodes_nodup : assignedOpcodes.Nodup := by decide

/-- A row is known by its opcode. -/
theorem row_eq_of_opcodeOf_eq {a b : OpcodeRow} (ha : a ∈ opcodeMap) (hb : b ∈ opcodeMap)
    (h : opcodeOf a.mnemonic = opcodeOf b.mnemonic) : a = b := List.inj_on_of_nodup_map opcodes_nodup ha hb h

/-- No word selects two rows. -/
theorem row_eq_of_selects {a b : OpcodeRow} {w : CommandWord} (ha : a ∈ opcodeMap) (hb : b ∈ opcodeMap)
    (hwa : a.selects w = true) (hwb : b.selects w = true) : a = b :=
  row_eq_of_opcodeOf_eq ha hb (((selects_iff ha w).1 hwa).1.symm.trans ((selects_iff hb w).1 hwb).1)

/-! ## What `decode` answers (R66, R67) -/

/-- A word that decodes to a command selected that command's row. -/
theorem selects_of_decode {w : CommandWord} {i : Instr} (h : decode w = .command i) :
    ∃ r ∈ opcodeMap, r.selects w = true ∧ instrOf r.mnemonic (operandField w) = i := by
  unfold decode at h
  split at h
  case h_1 r hr => exact ⟨r, List.mem_of_find?_eq_some hr, by simpa using List.find?_some hr, by simpa using h⟩
  case h_2 => cases h

theorem decode_eq_reserved_iff {w : CommandWord} {why : ReservedWhy} :
    decode w = .reserved why ↔ (∀ r ∈ opcodeMap, ¬ r.selects w = true) ∧ reservedWhy w = why := by
  unfold decode
  split
  case h_1 r hr =>
    have hsel : r.selects w = true := by simpa using List.find?_some hr
    exact iff_of_false nofun fun ⟨hnone, _⟩ => hnone r (List.mem_of_find?_eq_some hr) hsel
  case h_2 hnone =>
    exact ⟨fun h => ⟨List.find?_eq_none.1 hnone, Decoded.reserved.inj h⟩, fun ⟨_, hwhy⟩ => congrArg _ hwhy⟩

/-- A word selects a row exactly when it decodes to that row's command. -/
theorem selects_iff_decode {r : OpcodeRow} (hr : r ∈ opcodeMap) (w : CommandWord) :
    r.selects w = true ↔ decode w = .command (instrOf r.mnemonic (operandField w)) := by
  constructor
  · intro hsel
    cases hd : decode w with
    | reserved why => exact absurd hsel ((decode_eq_reserved_iff.1 hd).1 r hr)
    | command i =>
      obtain ⟨q, hq, hqsel, rfl⟩ := selects_of_decode hd
      rw [row_eq_of_selects hr hq hsel hqsel]
  · intro hd
    obtain ⟨q, hq, hqsel, hinstr⟩ := selects_of_decode hd
    have hmnemonic : q.mnemonic = r.mnemonic := by simpa [mnemonic_instrOf] using congrArg Instr.mnemonic hinstr
    rwa [← row_eq_of_opcodeOf_eq hq hr (congrArg opcodeOf hmnemonic)]

/-- A word that selects no row is reserved, for the one reason that `reservedWhy` finds. -/
theorem decode_reserved_iff (w : CommandWord) :
    (∃ why, decode w = .reserved why) ↔ ∀ r ∈ opcodeMap, ¬ r.selects w = true := by
  simp [decode_eq_reserved_iff]

theorem columns_select_iff (r : OpcodeRow) (w : CommandWord) :
    w &&& r.columns.2.1 = r.columns.1 ↔ r.selects w = true := beq_iff_eq.symm

/-- No two rows of the map select one word. -/
theorem opcodeMap_pairwise_disjoint :
    opcodeMap.Pairwise fun a b => ∀ w, ¬ (a.selects w = true ∧ b.selects w = true) := by
  have hne : opcodeMap.Pairwise fun a b => opcodeOf a.mnemonic ≠ opcodeOf b.mnemonic :=
    List.pairwise_map.1 opcodes_nodup
  refine hne.imp_of_mem fun ha hb hab w ⟨hwa, hwb⟩ => hab ?_
  rw [row_eq_of_selects ha hb hwa hwb]

/-- R63 for the model's own map, given by the columns of its rows. -/
theorem opcodeMap_columns_select :
    (∀ w : CommandWord, ∀ r ∈ opcodeMap.map OpcodeRow.columns,
      w &&& r.2.1 = r.1 ↔ decode w = .command (r.2.2 (operandField w))) ∧
    (opcodeMap.map OpcodeRow.columns).Pairwise
      (fun a b => ∀ w : CommandWord, ¬ (w &&& a.2.1 = a.1 ∧ w &&& b.2.1 = b.1)) ∧
    ∀ w : CommandWord, (∀ r ∈ opcodeMap.map OpcodeRow.columns, w &&& r.2.1 ≠ r.1) ↔
      ∃ why, decode w = .reserved why := by
  simp only [List.forall_mem_map, List.pairwise_map, ne_eq, columns_select_iff, decode_reserved_iff, implies_true,
    and_true]
  exact ⟨fun w r hr => selects_iff_decode hr w, opcodeMap_pairwise_disjoint⟩

/-- Settles O2: the fifteen rows written out are the columns of the model's map. -/
theorem opcodeMapRowsSelectTheCommands : Obligations.OpcodeMapRowsSelectTheCommands :=
  opcodeMap_columns_select

/-! ## The reserved encodings (R67) -/

theorem reservedWhy_eq (w : CommandWord) : reservedWhy w =
    if opcodeField w ∈ assignedOpcodes then .operandNotZero else .unassignedOpcode :=
  if_congr (by simp [assignedOpcodes]) rfl rfl

theorem reservedWhy_eq_unassignedOpcode_iff (w : CommandWord) :
    reservedWhy w = .unassignedOpcode ↔ opcodeField w ∉ assignedOpcodes := by simp [reservedWhy_eq]

theorem reservedWhy_eq_operandNotZero_iff (w : CommandWord) :
    reservedWhy w = .operandNotZero ↔ opcodeField w ∈ assignedOpcodes := by simp [reservedWhy_eq]

theorem decode_eq_unassignedOpcode_iff (w : CommandWord) :
    decode w = .reserved .unassignedOpcode ↔ opcodeField w ∉ assignedOpcodes := by
  rw [decode_eq_reserved_iff, reservedWhy_eq_unassignedOpcode_iff, and_iff_right_iff_imp]
  intro hopc r hr hsel
  exact hopc (List.mem_map.2 ⟨r, hr, ((selects_iff hr w).1 hsel).1.symm⟩)

/-- A word with a row's opcode fails to select that row only by a non-zero operand of a no-operand command. -/
theorem decode_eq_operandNotZero_iff (w : CommandWord) :
    decode w = .reserved .operandNotZero ↔ opcodeField w ∈ noOperandOpcodes ∧ operandField w ≠ 0x00#8 := by
  rw [decode_eq_reserved_iff, reservedWhy_eq_operandNotZero_iff, assignedOpcodes, noOperandOpcodes]
  constructor
  · rintro ⟨hnone, hopc⟩
    obtain ⟨r, hr, hropc⟩ := List.mem_map.1 hopc
    obtain ⟨hno, hne⟩ : r.noOperand = true ∧ operandField w ≠ 0x00#8 := by
      simpa [selects_iff hr, hropc] using hnone r hr
    exact ⟨List.mem_map.2 ⟨r, List.mem_filter.2 ⟨hr, hno⟩, hropc⟩, hne⟩
  · rintro ⟨hopc, hne⟩
    obtain ⟨r, hmem, hropc⟩ := List.mem_map.1 hopc
    obtain ⟨hr, hno⟩ := List.mem_filter.1 hmem
    refine ⟨fun q hq hsel => ?_, List.mem_map.2 ⟨r, hr, hropc⟩⟩
    obtain ⟨hqopc, hzero⟩ := (selects_iff hq w).1 hsel
    obtain rfl : r = q := row_eq_of_opcodeOf_eq hr hq (hropc.trans hqopc)
    exact hne (hzero hno)

/-- 241 of the 256 opcode values are unassigned. -/
theorem unassignedOpcodes_length :
    ((List.range 256).filter fun n => decide (BitVec.ofNat 8 n ∉ assignedOpcodes)).length = 241 := by decide +kernel

/-- A reserved word raises `IllegalCommand` in the non-faulted state. -/
theorem step_reserved_ok {s : State} {w : CommandWord} {rest : List HostInput} {why : ReservedWhy}
    (h : s.inputs = .command w :: rest) (hd : decode w = .reserved why) (herr : s.err = 0x00#8) :
    step s = .next (withFault (setInputs rest s) 0x09#8) := by
  have hok : (setInputs rest s).err = 0x00#8 := herr
  rw [step_reserved h hd, reservedWord_ok hok]
  rfl

/-- Settles O3: the two lists written out are the opcodes of the model's map and those of its no-operand rows. -/
theorem reservedEncodingsRaiseIllegalCommand : Obligations.ReservedEncodingsRaiseIllegalCommand := by
  refine ⟨fun opc opd => ?_, fun opc opd => ?_, unassignedOpcodes_length, rfl, rfl,
    fun s w rest why => step_reserved_ok⟩
  all_goals obtain ⟨hopc, hopd⟩ := Sys2Proof.Laws.Fields.fields_wordOf opc opd
  · have hdecode := decode_eq_unassignedOpcode_iff (wordOf opc opd)
    rwa [hopc] at hdecode
  · have hdecode := decode_eq_operandNotZero_iff (wordOf opc opd)
    rwa [hopc, hopd] at hdecode

end Sys2Proof.Machine

/-! SUPPORT. The family of spec/40_key_fold.md: `fold_key` (O19, O20), the key stream (O21), and the commands
`KCLR` (O17) and `KPUSH` (O18). -/

namespace Sys2Proof.Machine

/-! ## `fold_key`, one byte at a time (R80) -/

theorem foldKeyLoop_append (u v : List Byte) (i : Nat) (buf : Block) :
    foldKeyLoop (u ++ v) i buf = foldKeyLoop v (i + u.length) (foldKeyLoop u i buf) := by
  induction u generalizing i buf with
  | nil => rfl
  | cons b u ih =>
    rw [List.cons_append, foldKeyLoop, foldKeyLoop, ih, List.length_cons, Nat.add_assoc, Nat.add_comm 1]

/-- The last key byte is the loop's last iteration. -/
theorem foldKey_concat_eq_step (key : List Byte) (b : Byte) :
    foldKey (key ++ [b]) = foldKeyStep (foldKey key) key.length b := by
  rw [foldKey, foldKeyLoop_append, Nat.zero_add]
  rfl

theorem byte_foldKeyStep_of_lt {buf : Block} {i p : Nat} (b : Byte) (hip : i < p) (hp : p < 16) :
    (foldKeyStep buf i b).byte p = buf.byte p := by
  rw [foldKeyStep, if_pos (hip.trans hp), Block.byte_put _ _ _ hp, if_neg hip.ne']

/-- The copy step of R80 finds 0x00 at the positions it has not yet reached. -/
theorem byte_foldKey_of_length_le {key : List Byte} {p : Nat} (h : key.length ≤ p) (hp : p < 16) :
    (foldKey key).byte p = 0x00#8 := by
  induction key using List.reverseRecOn with
  | nil => exact Block.byte_rep _ hp
  | append_singleton key b ih =>
    rw [List.length_append, List.length_singleton] at h
    rw [foldKey_concat_eq_step, byte_foldKeyStep_of_lt b h hp, ih (by omega)]

/-- The copy step and the fold step are one: a key byte goes by exclusive-or into position `length mod 16` (R81). -/
theorem foldKey_concat (key : List Byte) (b : Byte) : foldKey (key ++ [b]) =
    (foldKey key).put (key.length % 16) ((foldKey key).byte (key.length % 16) ^^^ b) := by
  rw [foldKey_concat_eq_step, foldKeyStep]
  split
  · next h => rw [Nat.mod_eq_of_lt h, byte_foldKey_of_length_le le_rfl h, BitVec.zero_xor]
  · rfl

theorem byte_foldKey_concat (key : List Byte) (b : Byte) {p : Nat} (hp : p < 16) : (foldKey (key ++ [b])).byte p =
    if p = key.length % 16 then (foldKey key).byte p ^^^ b else (foldKey key).byte p := by
  rw [foldKey_concat, Block.byte_put _ _ _ hp]
  exact if_ctx_congr Iff.rfl (fun h => h ▸ rfl) fun _ => rfl

/-! ## The closed form of `fold_key` (R81) -/

/-- The exclusive-or of all `key[i]` with `i mod 16 == p` (R81). -/
def columnXor (key : List Byte) (p : Nat) : Byte :=
  ((List.range key.length).filter fun i => i % 16 == p).foldl (fun x i => x ^^^ key.getD i 0x00#8) 0x00#8

/-- A further key byte counts for its own column only. -/
theorem columnXor_concat (key : List Byte) (b : Byte) (p : Nat) : columnXor (key ++ [b]) p =
    if p = key.length % 16 then columnXor key p ^^^ b else columnXor key p := by
  have hold : ((List.range key.length).filter fun i => i % 16 == p).foldl
      (fun x i => x ^^^ (key ++ [b]).getD i 0x00#8) 0x00#8 = columnXor key p := by
    refine List.foldl_ext _ _ _ fun x i hi => ?_
    rw [List.getD_append _ _ _ _ (List.mem_range.1 (List.mem_filter.1 hi).1)]
  rw [columnXor, List.length_append, List.length_singleton, List.range_succ, List.filter_append, List.foldl_append,
    hold]
  by_cases hp : p = key.length % 16
  · simp [hp]
  · simp [hp, Ne.symm hp]

theorem byte_foldKey_eq_columnXor (key : List Byte) {p : Nat} (hp : p < 16) :
    (foldKey key).byte p = columnXor key p := by
  induction key using List.reverseRecOn with
  | nil => exact Block.byte_rep _ hp
  | append_singleton key b ih => rw [byte_foldKey_concat key b hp, columnXor_concat, ih]

/-- Settles O19, by induction on the key from its end. -/
theorem foldKeyIsTheXorOfItsColumns : Obligations.FoldKeyIsTheXorOfItsColumns :=
  fun key _ hp => byte_foldKey_eq_columnXor key hp

/-! ## The corner cases of `fold_key` (R86) -/

/-- A key of at most sixteen bytes folds to itself, filled up with zeros. -/
theorem byte_foldKey_of_length_le_16 {key : List Byte} (h : key.length ≤ 16) {p : Nat} (hp : p < 16) :
    (foldKey key).byte p = key.getD p 0x00#8 := by
  induction key using List.reverseRecOn with
  | nil => exact Block.byte_rep _ hp
  | append_singleton key b ih =>
    rw [List.length_append, List.length_singleton] at h
    rw [byte_foldKey_concat key b hp, Nat.mod_eq_of_lt h, ih (by omega)]
    obtain hlt | rfl | hgt := lt_trichotomy p key.length
    · rw [if_neg hlt.ne, List.getD_append _ _ _ _ hlt]
    · simp
    · rw [if_neg hgt.ne', List.getD_eq_default _ _ hgt.le, List.getD_eq_default]
      simpa using hgt

theorem foldKey_bytes (K : Block) : foldKey K.bytes = K :=
  Block.ext_byte fun _ hp => byte_foldKey_of_length_le_16 K.length_bytes.le hp

/-- Whole rows of sixteen key bytes fold independently of what follows them. -/
theorem foldKey_append {u : List Byte} (hu : u.length % 16 = 0) (v : List Byte) :
    foldKey (u ++ v) = (foldKey u).xor (foldKey v) := by
  refine Block.ext_byte fun p hp => ?_
  rw [Block.byte_xor _ _ hp]
  induction v using List.reverseRecOn with
  | nil => rw [List.append_nil, byte_foldKey_of_length_le (key := []) (Nat.zero_le p) hp, BitVec.xor_zero]
  | append_singleton v b ih =>
    have hmod : (u ++ v).length % 16 = v.length % 16 := by rw [List.length_append]; omega
    rw [← List.append_assoc, byte_foldKey_concat _ b hp, byte_foldKey_concat v b hp, hmod, ih]
    split
    · rw [BitVec.xor_assoc]
    · rfl

theorem foldKey_two_blocks (A B : Block) : foldKey (A.bytes ++ B.bytes) = A.xor B := by
  rw [foldKey_append (by rw [Block.length_bytes]), foldKey_bytes, foldKey_bytes]

theorem xor_self_eq_rep (K : Block) : K.xor K = Block.rep 0x00#8 :=
  Block.ext_byte fun _ hp => by rw [Block.byte_xor _ _ hp, BitVec.xor_self, Block.byte_rep _ hp]

theorem foldKey_block_twice (K : Block) : foldKey (K.bytes ++ K.bytes) = Block.rep 0x00#8 :=
  (foldKey_two_blocks K K).trans (xor_self_eq_rep K)

theorem foldKey_zeros : foldKey (List.replicate 16 0x00#8) = Block.rep 0x00#8 := foldKey_bytes (Block.rep 0x00#8)

/-- `Encrypt` sees a key only through its fold and through whether it is empty (R150). -/
theorem encryptCall_congr_key (p : List Byte) {k k' : List Byte} (hlen : k.length = 0 ↔ k'.length = 0)
    (hfold : foldKey k = foldKey k') : encryptCall p k = encryptCall p k' := by
  rw [encryptCall, encryptCall, hfold]
  exact if_congr (or_congr Iff.rfl hlen) rfl rfl

theorem foldKey_concat_zero (key : List Byte) : foldKey (key ++ [0x00#8]) = foldKey key :=
  Block.ext_byte fun _ hp => by rw [byte_foldKey_concat key _ hp, BitVec.xor_zero, ite_self]

/-- Settles O20: all but the last case are those of keys made of whole blocks and at most one more byte. -/
theorem foldKeyCornerCases : Obligations.FoldKeyCornerCases := by
  refine ⟨foldKey_bytes, fun _ => rfl, fun K b => ?_, foldKey_block_twice, fun p K => ?_, foldKey_two_blocks,
    foldKey_concat_zero⟩
  · rw [foldKey_concat, foldKey_bytes, Block.length_bytes]
  · exact encryptCall_congr_key p (by simp) ((foldKey_block_twice K).trans foldKey_zeros.symm)

/-! ## `KCLR` and `KPUSH` (R82, R83) -/

/-- A command that is ignored in the faulted state answers with `ERR` and changes nothing (R199). -/
theorem ignoredWhenFaulted {i : Instr} (hr : i ≠ .rst) (hs : i ≠ .stat) : IgnoredWhenFaulted i :=
  fun s h => by rw [exec_eq, afterCommand_faulted hr hs h]; rfl

theorem afterCommand_kclr_ok {s : State} (h : s.err = 0x00#8) : afterCommand .kclr s = answerOK (clearKey s) := by
  rw [afterCommand, unlessFaulted_ok _ h]

theorem afterCommand_kpush_ok (b : Byte) {s : State} (h : s.err = 0x00#8) :
    afterCommand (.kpush b) s = answerOK (foldByte b s) := by
  rw [afterCommand, unlessFaulted_ok _ h]

theorem exec_kclr_ok {s : State} (h : s.err = 0x00#8) : exec .kclr s = .next (answerOK (clearKey s)) :=
  (exec_eq .kclr s).trans (congrArg _ (afterCommand_kclr_ok h))

theorem exec_kpush_ok (b : Byte) {s : State} (h : s.err = 0x00#8) :
    exec (.kpush b) s = .next (answerOK (foldByte b s)) :=
  (exec_eq (.kpush b) s).trans (congrArg _ (afterCommand_kpush_ok b h))

theorem next_invalidInput {body : State → State} {s : State} (h : s.err = 0x00#8)
    (hbody : body s = raiseFault .invalidInput s) :
    (.next (unlessFaulted body s) : Out) = .next (withFault s 0x01#8) := by
  rw [unlessFaulted_ok body h, hbody]
  rfl

/-- The four cipher commands raise `InvalidInput` when no key byte was pushed (R191). -/
theorem exec_cipher_noKey {i : Instr} (hi : i ∈ [Instr.ecbenc, .ecbdec, .encrypt, .decrypt]) {s : State}
    (h : s.err = 0x00#8) (hk : s.kvalid = false) : exec i s = .next (withFault s 0x01#8) := by
  simp only [List.mem_cons, List.not_mem_nil, or_false] at hi
  obtain rfl | rfl | rfl | rfl := hi
  · exact next_invalidInput h (if_pos (.inl hk))
  · exact next_invalidInput h (if_pos (.inl hk))
  · exact next_invalidInput h (if_pos (.inr hk))
  · exact next_invalidInput h (if_pos (.inr (.inl hk)))

/-- Settles O17: `KCLR` sets the key state to the values it has after a reset. -/
theorem kclrClearsTheKeyState : Obligations.KclrClearsTheKeyState := by
  refine ⟨rfl, ignoredWhenFaulted nofun nofun, fun s h => ?_⟩
  refine ⟨answerOK (clearKey s), exec_kclr_ok h, fun _ hp => Block.byte_rep _ hp, rfl, rfl, ⟨fun _ => rfl, rfl, rfl⟩, h,
    ⟨rfl, rfl, rfl⟩, ?twice, fun _ hi => exec_cipher_noKey hi h rfl⟩
  case twice => exact ⟨_, exec_kclr_ok h, rfl, rfl, rfl⟩

/-- The value of a word is `opc * 256 + opd` (R61). -/
theorem toNat_wordOf (opc opd : Byte) : (wordOf opc opd).toNat = 256 * opc.toNat + opd.toNat := by
  rw [wordOf, BitVec.toNat_append, ← Nat.shiftLeft_add_eq_or_of_lt opd.isLt, Nat.shiftLeft_eq, Nat.mul_comm]

/-- `KIDX` counts modulo 16 (R22). -/
theorem toNat_kidx_succ (k : BitVec 4) : (k + 1#4).toNat = (k.toNat + 1) % 16 := BitVec.toNat_add ..

/-- Settles O18, from the fields of `foldByte`. -/
theorem kpushFoldsOneKeyByte : Obligations.KpushFoldsOneKeyByte := by
  refine fun b => ⟨toNat_wordOf 0x11#8 b, ignoredWhenFaulted nofun nofun, fun s h => ?_⟩
  have hk : s.kidx.toNat < 16 := s.kidx.isLt
  refine ⟨answerOK (foldByte b s), exec_kpush_ok b h, ?folded, ?others, toNat_kidx_succ s.kidx, rfl,
    ⟨fun _ => rfl, rfl, rfl⟩, h, rfl, rfl, rfl⟩
  case folded => exact (Block.byte_put _ _ _ hk).trans (if_pos rfl)
  case others => exact fun i hi hne => (Block.byte_put _ _ _ hi).trans (if_neg hne)

/-! ## A command's word decodes to the command (R61, R63) -/

theorem exists_row (m : Mnemonic) : ∃ r ∈ opcodeMap, r.mnemonic = m := by cases m <;> decide

/-- A command is given by its row and its operand byte. -/
theorem instrOf_operandOf (i : Instr) : instrOf i.mnemonic (operandOf i) = i := by cases i <;> rfl

theorem operandOf_instrOf_noOperand : ∀ r ∈ opcodeMap, r.noOperand = true →
    ∀ b, operandOf (instrOf r.mnemonic b) = 0x00#8 := by
  simp [opcodeMap, OpcodeRow.noOperand, operandField, instrOf, operandOf]

theorem decode_encode (i : Instr) : decode (encode i) = .command i := by
  obtain ⟨r, hr, hmnemonic⟩ := exists_row i.mnemonic
  obtain ⟨hopc, hopd⟩ := Sys2Proof.Laws.Fields.fields_wordOf (opcodeOf i.mnemonic) (operandOf i)
  have hzero (h : r.noOperand = true) : operandOf i = 0x00#8 := by
    simpa only [hmnemonic, instrOf_operandOf] using operandOf_instrOf_noOperand r hr h (operandOf i)
  have hsel : r.selects (encode i) = true :=
    (selects_iff hr _).2 ⟨hopc.trans (congrArg opcodeOf hmnemonic.symm), fun h => hopd.trans (hzero h)⟩
  have hdecode := (selects_iff_decode hr _).1 hsel
  rwa [encode, hopd, hmnemonic, instrOf_operandOf] at hdecode

/-! ## Commands do not look at the inputs still to come (R15) -/

/-- `body` does the same whatever inputs are still to come, and leaves them. -/
def KeepsInputs (body : State → State) : Prop := ∀ l s, body (setInputs l s) = setInputs l (body s)

theorem keepsInputs_ite {p : State → Prop} [DecidablePred p] {f g : State → State}
    (hp : ∀ l s, p (setInputs l s) ↔ p s) (hf : KeepsInputs f) (hg : KeepsInputs g) :
    KeepsInputs fun s => if p s then f s else g s :=
  fun l s => (if_congr (hp l s) (hf l s) (hg l s)).trans (apply_ite (setInputs l) ..).symm

theorem keepsInputs_unlessFaulted {body : State → State} (hbody : KeepsInputs body) :
    KeepsInputs (unlessFaulted body) := keepsInputs_ite (fun _ _ => Iff.rfl) hbody fun _ _ => rfl

theorem keepsInputs_dpushBody (b : Byte) : KeepsInputs (dpushBody b) :=
  keepsInputs_ite (fun _ _ => Iff.rfl) (fun _ _ => rfl) fun _ _ => rfl

theorem keepsInputs_dpopBody : KeepsInputs dpopBody :=
  keepsInputs_ite (fun _ _ => Iff.rfl) (fun _ _ => rfl) fun _ _ => rfl

theorem keepsInputs_padBody : KeepsInputs padBody :=
  keepsInputs_ite (fun _ _ => Iff.rfl) (fun _ _ => rfl) fun _ _ => rfl

theorem keepsInputs_unpadInPlace : KeepsInputs unpadInPlace := by
  intro l s
  unfold unpadInPlace
  rw [setInputs_dmem, setInputs_dlen]
  cases trailer s.dmem s.dlen <;> rfl

theorem keepsInputs_sequencerBody (f : Block → Block → Block) : KeepsInputs (sequencerBody f) :=
  keepsInputs_ite (fun _ _ => Iff.rfl) (fun _ _ => rfl) fun _ _ => rfl

theorem keepsInputs_encryptBody : KeepsInputs encryptBody :=
  keepsInputs_ite (fun _ _ => Iff.rfl) (fun _ _ => rfl)
    (keepsInputs_ite (fun _ _ => Iff.rfl) (fun _ _ => rfl) fun _ _ => rfl)

theorem keepsInputs_decryptBody : KeepsInputs decryptBody :=
  keepsInputs_ite (fun _ _ => Iff.rfl) (fun _ _ => rfl)
    fun l s => keepsInputs_unpadInPlace l (ecbInPlace (aesDecBlock s.kreg) s)

theorem keepsInputs_afterCommand (i : Instr) : KeepsInputs (afterCommand i) := by
  cases i with
  | rst | stat => exact fun _ _ => rfl
  | nop | rdlen | kclr | kpush | dclr =>
    refine keepsInputs_unlessFaulted ?_
    exact fun _ _ => rfl
  | dpush b => exact keepsInputs_unlessFaulted (keepsInputs_dpushBody b)
  | dpop => exact keepsInputs_unlessFaulted keepsInputs_dpopBody
  | pad => exact keepsInputs_unlessFaulted keepsInputs_padBody
  | unpad => exact keepsInputs_unlessFaulted keepsInputs_unpadInPlace
  | ecbenc => exact keepsInputs_unlessFaulted (keepsInputs_sequencerBody aesEncBlock)
  | ecbdec => exact keepsInputs_unlessFaulted (keepsInputs_sequencerBody aesDecBlock)
  | encrypt => exact keepsInputs_unlessFaulted keepsInputs_encryptBody
  | decrypt => exact keepsInputs_unlessFaulted keepsInputs_decryptBody

/-! ## A list of commands runs to its end (R52) -/

/-- The state after a list of commands. -/
def runCommands : List Instr → State → State
  | [], s => s
  | i :: is, s => runCommands is (afterCommand i s)

theorem run_succ_of_step {s t : State} (h : step s = .next t) (k : Nat) :
    Host.Core.run Sys2Proof.core (k + 1) s = Host.Core.run Sys2Proof.core k t := by
  have hcore : Sys2Proof.core.step s = .next t := h
  simp only [Host.Core.run, hcore]

theorem submit_encode_cons (i : Instr) (ws : List CommandWord) (s : State) :
    submit (encode i :: ws) s = submit ws (afterCommand i s) := by
  have hstep : step (setInputs (.command (encode i) :: ws.map .command) s) =
      .next (setInputs (ws.map .command) (afterCommand i s)) := by
    rw [step_command rfl (decode_encode i), ← keepsInputs_afterCommand]
    rfl
  exact run_succ_of_step hstep ws.length

/-- Submitting the words of a list of commands is running it; the machine does not stop. -/
theorem submit_map_encode (is : List Instr) (s : State) :
    submit (is.map encode) s = .next (setInputs [] (runCommands is s)) := by
  induction is generalizing s with
  | nil => rfl
  | cons i is ih => rw [List.map_cons, submit_encode_cons, ih, runCommands]

/-! ## Who writes the key state (R21 to R23) -/

theorem sameKey_unpadInPlace (s : State) : SameKey s (unpadInPlace s) := by
  obtain ⟨-, h⟩ | ⟨p, -, h⟩ := unpadInPlace_cases s <;> rw [h] <;> simp [SameKey]

theorem sameKey_dpushBody (b : Byte) (s : State) : SameKey s (dpushBody b s) := by
  obtain ⟨-, h⟩ | ⟨-, h⟩ := dpushBody_cases b s <;> rw [h] <;> simp [SameKey]

theorem sameKey_dpopBody (s : State) : SameKey s (dpopBody s) := by
  obtain ⟨-, h⟩ | ⟨-, h⟩ := dpopBody_cases s <;> rw [h] <;> simp [SameKey]

theorem sameKey_padBody (s : State) : SameKey s (padBody s) := by
  obtain ⟨-, h⟩ | ⟨-, h⟩ := padBody_cases s <;> rw [h] <;> simp [SameKey]

theorem sameKey_sequencerBody (f : Block → Block → Block) (s : State) : SameKey s (sequencerBody f s) := by
  obtain ⟨-, h⟩ | ⟨-, -, h⟩ := sequencerBody_cases f s <;> rw [h] <;> simp [SameKey]

theorem sameKey_encryptBody (s : State) : SameKey s (encryptBody s) := by
  obtain ⟨-, h⟩ | ⟨-, -, -, h⟩ | ⟨-, -, -, h⟩ := encryptBody_cases s <;> rw [h] <;> simp [SameKey]

theorem sameKey_decryptBody (s : State) : SameKey s (decryptBody s) := by
  obtain ⟨-, h⟩ | ⟨-, -, -, h⟩ := decryptBody_cases s <;> rw [h]
  · exact ⟨rfl, rfl, rfl⟩
  · exact sameKey_unpadInPlace (ecbInPlace _ s)

theorem sameKey_unlessFaulted {body : State → State} (hbody : ∀ s, SameKey s (body s)) (s : State) :
    SameKey s (unlessFaulted body s) := by
  by_cases h : s.err = 0x00#8
  · rw [unlessFaulted_ok body h]
    exact hbody s
  · rw [unlessFaulted_faulted body h]
    exact ⟨rfl, rfl, rfl⟩

/-- Every command but `RST`, `KCLR` and `KPUSH` leaves the key state alone. -/
theorem sameKey_afterCommand {i : Instr} (hr : i ≠ .rst) (hc : i ≠ .kclr) (hp : ∀ b, i ≠ .kpush b) (s : State) :
    SameKey s (afterCommand i s) := by
  cases i with
  | rst => exact absurd rfl hr
  | kclr => exact absurd rfl hc
  | kpush b => exact absurd rfl (hp b)
  | stat => exact ⟨rfl, rfl, rfl⟩
  | nop | rdlen | dclr =>
    refine sameKey_unlessFaulted ?_ s
    exact fun _ => ⟨rfl, rfl, rfl⟩
  | dpush b => exact sameKey_unlessFaulted (sameKey_dpushBody b) s
  | dpop => exact sameKey_unlessFaulted sameKey_dpopBody s
  | pad => exact sameKey_unlessFaulted sameKey_padBody s
  | unpad => exact sameKey_unlessFaulted sameKey_unpadInPlace s
  | ecbenc => exact sameKey_unlessFaulted (sameKey_sequencerBody aesEncBlock) s
  | ecbdec => exact sameKey_unlessFaulted (sameKey_sequencerBody aesDecBlock) s
  | encrypt => exact sameKey_unlessFaulted sameKey_encryptBody s
  | decrypt => exact sameKey_unlessFaulted sameKey_decryptBody s

/-! ## The key stream (R84) -/

/-- The key state is that of a key streamed in since the last key clear (R84). -/
def KeyFolded (key : List Byte) (s : State) : Prop :=
  s.kreg = foldKey key ∧ s.kidx.toNat = key.length % 16 ∧ s.kvalid = decide (1 ≤ key.length)

theorem keyFolded_of_sameKey {key : List Byte} {s t : State} (hs : KeyFolded key s) (hst : SameKey s t) :
    KeyFolded key t := by
  obtain ⟨hreg, hidx, hvalid⟩ := hst
  rwa [KeyFolded, hreg, hidx, hvalid]

/-- One `KPUSH` is one more byte of the key (R83, R81). -/
theorem keyFolded_foldByte {key : List Byte} {s : State} (hs : KeyFolded key s) (b : Byte) :
    KeyFolded (key ++ [b]) (foldByte b s) := by
  obtain ⟨hreg, hidx, -⟩ := hs
  refine ⟨?_, ?_, ?_⟩
  · rw [foldByte_kreg, foldKey_concat, hreg, hidx]
  · rw [foldByte_kidx, toNat_kidx_succ, hidx, List.length_append, List.length_singleton, Nat.mod_add_mod]
  · simp

theorem keyPushed_cons (i : Instr) (is : List Instr) : keyPushed (i :: is) = keyPushed [i] ++ keyPushed is := by
  cases i <;> rfl

/-- Every command but `RST` that ends in the non-faulted state started there. -/
theorem err_eq_zero_of_afterCommand {i : Instr} (hr : i ≠ .rst) {s : State} (h : (afterCommand i s).err = 0x00#8) :
    s.err = 0x00#8 := by
  obtain hkept | ⟨hs, -⟩ := afterCommand_err hr s
  · rwa [← hkept]
  · exact hs

theorem err_eq_zero_of_runCommands {is : List Instr} (his : ∀ i ∈ is, i ≠ .rst) {s : State}
    (h : (runCommands is s).err = 0x00#8) : s.err = 0x00#8 := by
  induction is generalizing s with
  | nil => exact h
  | cons i is ih =>
    obtain ⟨hi, htail⟩ := List.forall_mem_cons.1 his
    exact err_eq_zero_of_afterCommand hi (ih htail h)

/-- A command that does not fault and is neither `RST` nor `KCLR` adds the byte it pushes, if any, to the key. -/
theorem keyFolded_afterCommand {i : Instr} (hr : i ≠ .rst) (hc : i ≠ .kclr) {key : List Byte} {s : State}
    (hs : KeyFolded key s) (h : (afterCommand i s).err = 0x00#8) :
    KeyFolded (key ++ keyPushed [i]) (afterCommand i s) := by
  by_cases hp : ∃ b, i = .kpush b
  · obtain ⟨b, rfl⟩ := hp
    rw [afterCommand_kpush_ok b (err_eq_zero_of_afterCommand hr h)]
    exact keyFolded_foldByte hs b
  · have hnone : keyPushed [i] = [] := by
      cases i with
      | kpush b => exact absurd ⟨b, rfl⟩ hp
      | _ => rfl
    rw [hnone, List.append_nil]
    exact keyFolded_of_sameKey hs (sameKey_afterCommand hr hc (not_exists.1 hp) s)

theorem keyFolded_runCommands {is : List Instr} (his : ∀ i ∈ is, i ≠ .rst ∧ i ≠ .kclr) {key : List Byte} {s : State}
    (hs : KeyFolded key s) (h : (runCommands is s).err = 0x00#8) :
    KeyFolded (key ++ keyPushed is) (runCommands is s) := by
  induction is generalizing key s with
  | nil => rwa [keyPushed, List.append_nil]
  | cons i is ih =>
    obtain ⟨⟨hr, hc⟩, htail⟩ := List.forall_mem_cons.1 his
    have hi := err_eq_zero_of_runCommands (fun j hj => (htail j hj).1) h
    rw [keyPushed_cons, ← List.append_assoc]
    exact ih htail (keyFolded_afterCommand hr hc hs hi) h

theorem afterCommand_kpush_err (b : Byte) (s : State) : (afterCommand (.kpush b) s).err = s.err := by
  by_cases h : s.err = 0x00#8
  · rw [afterCommand_kpush_ok b h, answerOK_err, foldByte_err]
  · rw [afterCommand_faulted (i := .kpush b) nofun nofun h, ignoreWord_err]

/-- Pushing key bytes raises no fault. -/
theorem runCommands_kpush_err {is : List Instr} (his : ∀ i ∈ is, ∃ b, i = .kpush b) (s : State) :
    (runCommands is s).err = s.err := by
  induction is generalizing s with
  | nil => rfl
  | cons i is ih =>
    obtain ⟨⟨b, rfl⟩, htail⟩ := List.forall_mem_cons.1 his
    exact (ih htail _).trans (afterCommand_kpush_err b s)

/-- `RST`, and `KCLR` in the non-faulted state, leave the empty key and no fault. -/
theorem keyFolded_nil_of_start {first : Instr} {s : State} (h : first = .rst ∨ (first = .kclr ∧ s.err = 0x00#8)) :
    KeyFolded [] (afterCommand first s) ∧ (afterCommand first s).err = 0x00#8 := by
  obtain rfl | ⟨rfl, herr⟩ := h
  · exact ⟨⟨rfl, rfl, rfl⟩, rfl⟩
  · rw [afterCommand_kclr_ok herr]
    exact ⟨⟨rfl, rfl, rfl⟩, herr⟩

/-- Settles O21: the key state is the fold of what was pushed, at the start and after each command without a fault. -/
theorem keyStreamLeavesTheFoldedKey : Obligations.KeyStreamLeavesTheFoldedKey := by
  intro s first is hfirst his
  obtain ⟨hstart, herr⟩ := keyFolded_nil_of_start hfirst
  exact ⟨_, submit_map_encode (first :: is) s, keyFolded_runCommands his hstart,
    fun hpush => (runCommands_kpush_err hpush _).trans herr⟩

end Sys2Proof.Machine

/-! SUPPORT. The family of spec/41_data_buffer.md: the commands `DCLR` (O22), `DPUSH` (O23), `DPOP` (O24) and `RDLEN`
(O25), and the stream of data into and out of the buffer (O27). -/

namespace Sys2Proof.Machine

/-! ## A command's own rule in the non-faulted state (R66 step 3) -/

theorem afterCommand_ok {i : Instr} {body : State → State} (hi : afterCommand i = unlessFaulted body) {s : State}
    (h : s.err = 0x00#8) : afterCommand i s = body s := by rw [hi, unlessFaulted_ok _ h]

theorem exec_ok {i : Instr} {body : State → State} (hi : afterCommand i = unlessFaulted body) {s : State}
    (h : s.err = 0x00#8) : exec i s = .next (body s) := by rw [exec_eq, afterCommand_ok hi h]

/-! ## `DCLR` (R90) -/

theorem exec_dclr_ok {s : State} (h : s.err = 0x00#8) :
    exec .dclr s = .next (answerOK (setRptr 0 (setDlen 0 s))) := by rw [exec_ok rfl h]

/-- Settles O22: `DCLR` writes the two lengths only, and the flags of an empty buffer follow from them. -/
theorem dclrEmptiesTheBuffer : Obligations.DclrEmptiesTheBuffer := by
  refine ⟨rfl, ignoredWhenFaulted nofun nofun, fun s h => ?_⟩
  obtain ⟨-, hDNE, hALN, hRAV, -⟩ := flags_bits (answerOK (setRptr 0 (setDlen 0 s)))
  exact ⟨_, exec_dclr_ok h, rfl, rfl, fun _ => rfl, ⟨rfl, rfl, rfl⟩, h, ⟨rfl, rfl, rfl⟩, hDNE, hALN, hRAV⟩

/-! ## `DPUSH` (R91) -/

/-- One more byte in use, the bytes below it kept, is one more byte of `data()` (R41). -/
theorem data_eq_concat {s t : State} (hlen : t.dlen = s.dlen + 1)
    (hbelow : ∀ a < s.dlen, t.dmem.read a = s.dmem.read a) : data t = data s ++ [t.dmem.read s.dlen] := by
  have hold : data (setDlen s.dlen t) = data s := data_congr rfl hbelow
  rw [← hold, data, hlen, Memory.readSeq, List.range_succ, List.map_append, List.map_singleton, Nat.zero_add]
  rfl

/-- The state after a `DPUSH` that finds room. -/
def pushByte (b : Byte) (s : State) : State := answerOK (setDlen (s.dlen + 1) (setDmem (s.dmem.write s.dlen b) s))

theorem read_pushByte (b : Byte) (s : State) (a : Nat) :
    (pushByte b s).dmem.read a = if a = s.dlen then b else s.dmem.read a := Memory.read_write ..

theorem data_pushByte (b : Byte) (s : State) : data (pushByte b s) = data s ++ [b] := by
  have hbelow (a : Nat) (ha : a < s.dlen) : (pushByte b s).dmem.read a = s.dmem.read a := by
    rw [read_pushByte, if_neg ha.ne]
  rw [data_eq_concat rfl hbelow, read_pushByte, if_pos rfl]

theorem dpushBody_of_room (b : Byte) {s : State} (hroom : s.cfg.dcap ≠ some s.dlen) : dpushBody b s = pushByte b s :=
  ((dpushBody_cases b s).resolve_left fun h => hroom h.1).2

theorem dpushBody_of_full (b : Byte) {s : State} (hfull : s.cfg.dcap = some s.dlen) :
    dpushBody b s = withFault s 0x08#8 :=
  ((dpushBody_cases b s).resolve_right fun h => h.1 hfull).2

/-- Settles O23, by the two outcomes of `DPUSH`. -/
theorem dpushAppendsOneByteOrOverflows : Obligations.DpushAppendsOneByteOrOverflows := by
  refine fun b => ⟨toNat_wordOf 0x21#8 b, ignoredWhenFaulted nofun nofun, fun s h => ⟨fun hfull => ?_, fun hroom => ?_⟩⟩
  · rw [exec_ok rfl h, dpushBody_of_full b hfull]
  · refine ⟨pushByte b s, ?_, ?written, ?others, rfl, data_pushByte b s, rfl, ⟨rfl, rfl, rfl⟩, h, rfl, rfl, rfl⟩
    · rw [exec_ok rfl h, dpushBody_of_room b hroom]
    case written => rw [read_pushByte, if_pos rfl]
    case others => exact fun a ha => by rw [read_pushByte, if_neg ha]

/-! ## `DPOP` (R92) -/

theorem dpopBody_of_empty {s : State} (hempty : s.dlen ≤ s.rptr) : dpopBody s = withResponse s 0x4000#16 :=
  if_pos hempty

theorem dpopBody_of_unread {s : State} (hunread : s.rptr < s.dlen) :
    dpopBody s = withResponse (setRptr (s.rptr + 1) s) (0x00#8 ++ s.dmem.read s.rptr) := if_neg hunread.not_ge

/-- Settles O24, by the two outcomes of `DPOP`. -/
theorem dpopReturnsTheNextByteOrEmpty : Obligations.DpopReturnsTheNextByteOrEmpty := by
  refine ⟨rfl, ignoredWhenFaulted nofun nofun, fun s h => ⟨fun hempty => ?_, fun hunread => ?_⟩⟩
  · rw [exec_ok rfl h, dpopBody_of_empty hempty]
  · refine ⟨withResponse (setRptr (s.rptr + 1) s) (0x00#8 ++ s.dmem.read s.rptr), ?_, ⟨rfl, rfl, rfl⟩, rfl,
      fun _ => rfl, rfl, ⟨rfl, rfl, rfl⟩, h⟩
    rw [exec_ok rfl h, dpopBody_of_unread hunread]

/-! ## `RDLEN` (R93) -/

theorem toNat_lengthByte (n : Nat) (i : Byte) : (lengthByte n i).toNat = n / 256 ^ i.toNat % 256 := by
  rw [lengthByte, BitVec.toNat_ofNat, Nat.mod_mod]

theorem lengthByte_of_lt {n : Nat} {i : Byte} (h : n < 256 ^ i.toNat) : lengthByte n i = 0x00#8 := by
  rw [lengthByte, Nat.div_eq_of_lt h]

theorem exec_rdlen_ok (i : Byte) {s : State} (h : s.err = 0x00#8) :
    exec (.rdlen i) s = .next (withResponse s (0x00#8 ++ lengthByte s.dlen i)) := by
  rw [exec_ok rfl h]
  rfl

/-- Settles O25, from the value of the length byte. -/
theorem rdlenReturnsOneLengthByte : Obligations.RdlenReturnsOneLengthByte := by
  refine fun i => ⟨toNat_wordOf 0x03#8 i, ignoredWhenFaulted nofun nofun, fun s h => ⟨?_, fun hlt => ?_⟩⟩
  · exact ⟨lengthByte s.dlen i, exec_rdlen_ok i h, toNat_lengthByte s.dlen i⟩
  · rw [exec_rdlen_ok i h, lengthByte_of_lt hlt]
    rfl

/-! ## Commands that stand aside of the data stream (R94) -/

/-- The commands R94 allows between those of a data stream: `NOP`, `STAT`, `RDLEN`, `KCLR`, `KPUSH`. -/
def Aside (i : Instr) : Prop := i = .nop ∨ i = .stat ∨ (∃ n, i = .rdlen n) ∨ i = .kclr ∨ ∃ b, i = .kpush b

/-- Such a command only answers, as far as the data buffer and `ERR` go. -/
theorem afterCommand_aside {i : Instr} (hi : Aside i) {s : State} (h : s.err = 0x00#8) :
    SameBuffer s (afterCommand i s) ∧ (afterCommand i s).err = 0x00#8 ∧ ∃ r, Answered s (afterCommand i s) r := by
  obtain rfl | rfl | ⟨n, rfl⟩ | rfl | ⟨b, rfl⟩ := hi
  case inr.inl => exact ⟨⟨fun _ => rfl, rfl, rfl⟩, h, _, rfl, rfl, rfl⟩
  all_goals
    rw [afterCommand_ok rfl h]
    exact ⟨⟨fun _ => rfl, rfl, rfl⟩, h, _, rfl, rfl, rfl⟩

theorem data_of_sameBuffer {s t : State} (h : SameBuffer s t) : data t = data s :=
  data_congr h.2.1 fun a _ => h.1 a

/-! ## Loading the buffer (R94) -/

theorem dataPushed_cons (i : Instr) (is : List Instr) : dataPushed (i :: is) = dataPushed [i] ++ dataPushed is := by
  cases i <;> rfl

theorem dataPushed_of_aside {i : Instr} (hi : Aside i) : dataPushed [i] = [] := by
  obtain rfl | rfl | ⟨n, rfl⟩ | rfl | ⟨b, rfl⟩ := hi <;> rfl

/-- The buffer is that of the bytes `d` streamed in since it was emptied, with no fault and nothing read (R94). -/
def Loaded (c : Config) (d : List Byte) (s : State) : Prop :=
  data s = d ∧ s.rptr = 0 ∧ s.err = 0x00#8 ∧ s.cfg = c

/-- `RST`, and `DCLR` in the non-faulted state, leave an empty buffer and no fault. -/
theorem loaded_nil_of_start {first : Instr} {s : State} (h : first = .rst ∨ (first = .dclr ∧ s.err = 0x00#8)) :
    Loaded s.cfg [] (afterCommand first s) := by
  obtain rfl | ⟨rfl, herr⟩ := h
  · exact ⟨rfl, rfl, rfl, rfl⟩
  · rw [afterCommand_ok rfl herr]
    exact ⟨rfl, rfl, herr, rfl⟩

/-- A buffer that holds a byte more than `DLEN` is not full. -/
theorem dcap_ne_of_holds {c : Config} {n : Nat} (h : c.holds (n + 1) = true) : c.dcap ≠ some n := by
  intro hcap
  have hle : n + 1 ≤ n := of_decide_eq_true (by rwa [Config.holds, hcap] at h)
  omega

/-- A command of a load adds the byte it pushes, if any, to the buffer. -/
theorem loaded_afterCommand {i : Instr} (hi : Aside i ∨ ∃ b, i = .dpush b) {c : Config} {d : List Byte} {s : State}
    (hs : Loaded c d s) (hroom : c.holds (d ++ dataPushed [i]).length = true) :
    Loaded c (d ++ dataPushed [i]) (afterCommand i s) := by
  obtain ⟨hdata, hrptr, herr, hcfg⟩ := hs
  obtain haside | ⟨b, rfl⟩ := hi
  · obtain ⟨hbuffer, herr', r, -, -, hcfg'⟩ := afterCommand_aside haside herr
    rw [dataPushed_of_aside haside, List.append_nil]
    exact ⟨(data_of_sameBuffer hbuffer).trans hdata, hbuffer.2.2.trans hrptr, herr', hcfg'.trans hcfg⟩
  · have hlen : d.length = s.dlen := by rw [← hdata, length_data]
    have hne : s.cfg.dcap ≠ some s.dlen := by
      rw [hcfg, ← hlen]
      rw [List.length_append] at hroom
      exact dcap_ne_of_holds hroom
    rw [afterCommand_ok rfl herr, dpushBody_of_room b hne]
    exact ⟨(data_pushByte b s).trans (congrArg (· ++ [b]) hdata), hrptr, herr, hcfg⟩

theorem loaded_runCommands {is : List Instr} (his : ∀ i ∈ is, Aside i ∨ ∃ b, i = .dpush b) {c : Config}
    {d : List Byte} {s : State} (hs : Loaded c d s) (hroom : c.holds (d ++ dataPushed is).length = true) :
    Loaded c (d ++ dataPushed is) (runCommands is s) := by
  induction is generalizing d s with
  | nil => rwa [dataPushed, List.append_nil]
  | cons i is ih =>
    obtain ⟨hi, htail⟩ := List.forall_mem_cons.1 his
    rw [dataPushed_cons, ← List.append_assoc] at hroom ⊢
    have hfirst : c.holds (d ++ dataPushed [i]).length = true :=
      Config.holds_mono hroom (List.sublist_append_left ..).length_le
    exact ih htail (loaded_afterCommand hi hs hfirst) hroom

/-! ## The answers of a read-out (R92, R94) -/

/-- The answers `n` `DPOP`s give while the bytes `d` are still to be read: those bytes, then `EMPTY`. -/
def popAnswers (d : List Byte) (n : Nat) : List ResponseWord :=
  (List.range n).map fun k => (okBytes d).getD k 0x4000#16

theorem popAnswers_add (d : List Byte) (m n : Nat) :
    popAnswers d (m + n) = popAnswers d m ++ popAnswers (d.drop m) n := by
  simp [popAnswers, List.range_add, okBytes, List.getD_eq_getElem?_getD, Function.comp_def]

theorem popAnswers_eq_take (d : List Byte) {m n : Nat} (h : n ≤ m) :
    popAnswers d n = (okBytes d ++ List.replicate m 0x4000#16).take n := by
  refine List.ext_getElem (by simp [popAnswers]; omega) fun k hk _ => ?_
  simp only [popAnswers, List.getElem_map, List.getElem_range, List.getElem_take, List.getElem_append,
    List.getElem_replicate]
  split
  · next hlt => exact List.getD_eq_getElem _ _ hlt
  · next hge => exact List.getD_eq_default _ _ (Nat.le_of_not_lt hge)

/-- One `DPOP` more than there are bytes answers the bytes and then `EMPTY`. -/
theorem popAnswers_length_succ (d : List Byte) : popAnswers d (d.length + 1) = okBytes d ++ [0x4000#16] := by
  have hlen : (okBytes d).length = d.length := List.length_map ..
  rw [popAnswers_eq_take d le_rfl, ← hlen, List.take_length_add_append, List.replicate_succ, List.take_succ_cons,
    List.take_zero]

/-- The bytes `DPOP` has still to return. -/
def unread (s : State) : List Byte := (data s).drop s.rptr

/-- The number of `DPOP`s in a list of commands. -/
def pops (is : List Instr) : Nat := (is.filter fun i => i == .dpop).length

/-- Of the responses to a list of commands, those to its `DPOP`s. -/
def popped (is : List Instr) (rs : List ResponseWord) : List ResponseWord :=
  ((is.zip rs).filter fun x => x.1 == .dpop).map fun x => x.2

theorem pops_cons (i : Instr) (is : List Instr) : pops (i :: is) = pops [i] + pops is := by
  rw [pops, List.filter_cons]
  by_cases h : i = .dpop <;> simp [pops, h, Nat.add_comm]

theorem popped_cons (i : Instr) (is : List Instr) (r : ResponseWord) (rs : List ResponseWord) :
    popped (i :: is) (r :: rs) = popped [i] [r] ++ popped is rs := by
  by_cases h : i = .dpop <;> simp [popped, h]

theorem pops_replicate (n : Nat) : pops (List.replicate n .dpop) = n := by simp [pops]

/-- When every command is a `DPOP`, every response is one to a `DPOP`. -/
theorem popped_replicate {n : Nat} {rs : List ResponseWord} (h : rs.length = n) :
    popped (List.replicate n .dpop) rs = rs := by
  have hall : ∀ x ∈ (List.replicate n Instr.dpop).zip rs, (x.1 == .dpop) = true := fun x hx =>
    beq_iff_eq.2 (List.eq_of_mem_replicate (List.of_mem_zip hx).1)
  rw [popped, List.filter_eq_self.2 hall, List.map_snd_zip (by simp [h])]

theorem not_dpop_of_aside {i : Instr} (hi : Aside i) : (i == .dpop) = false := by
  obtain rfl | rfl | ⟨n, rfl⟩ | rfl | ⟨b, rfl⟩ := hi <;> rfl

/-! ## Reading out the buffer (R94) -/

/-- The commands `is` led from `s` to `t` with the responses `rs`, and were a read-out: the data stay, and the `DPOP`s
answer what was still to be read. -/
structure ReadOut (s : State) (is : List Instr) (rs : List ResponseWord) (t : State) : Prop where
  data_eq : data t = data s
  err_eq : t.err = 0x00#8
  rptr_eq : t.rptr = min s.dlen (s.rptr + pops is)
  responses_eq : t.responses = s.responses ++ rs
  length_eq : rs.length = is.length
  popped_eq : popped is rs = popAnswers (unread s) (pops is)

theorem ReadOut.dlen_eq {s t : State} {is : List Instr} {rs : List ResponseWord} (h : ReadOut s is rs t) :
    t.dlen = s.dlen := by rw [← length_data, h.data_eq, length_data]

theorem ReadOut.unread_eq {s t : State} {is : List Instr} {rs : List ResponseWord} (h : ReadOut s is rs t) :
    unread t = (unread s).drop (pops is) := by
  rw [unread, unread, h.data_eq, h.rptr_eq, List.drop_drop]
  obtain hle | hge := Nat.le_total (s.rptr + pops is) s.dlen
  · rw [Nat.min_eq_right hle]
  · rw [Nat.min_eq_left hge, List.drop_eq_nil_of_le (length_data s).le,
      List.drop_eq_nil_of_le ((length_data s).le.trans hge)]

theorem ReadOut.nil {s : State} (h : s.err = 0x00#8) (hr : s.rptr ≤ s.dlen) : ReadOut s [] [] s :=
  ⟨rfl, h, (Nat.min_eq_right hr).symm, (List.append_nil _).symm, rfl, rfl⟩

theorem ReadOut.cons {s t u : State} {i : Instr} {r : ResponseWord} {is : List Instr} {rs : List ResponseWord}
    (h : ReadOut s [i] [r] t) (h' : ReadOut t is rs u) : ReadOut s (i :: is) (r :: rs) u where
  data_eq := h'.data_eq.trans h.data_eq
  err_eq := h'.err_eq
  rptr_eq := by
    rw [h'.rptr_eq, h.dlen_eq, h.rptr_eq, pops_cons i is]
    omega
  responses_eq := by rw [h'.responses_eq, h.responses_eq, List.append_assoc, List.singleton_append]
  length_eq := congrArg Nat.succ h'.length_eq
  popped_eq := by rw [popped_cons, pops_cons i is, popAnswers_add, h.popped_eq, h'.popped_eq, h.unread_eq]

theorem readOut_aside {i : Instr} (hi : Aside i) {s : State} (h : s.err = 0x00#8) (hr : s.rptr ≤ s.dlen) :
    ∃ r, ReadOut s [i] [r] (afterCommand i s) := by
  obtain ⟨hbuffer, herr, r, hresp, -, -⟩ := afterCommand_aside hi h
  have hpops : pops [i] = 0 := by simp [pops, not_dpop_of_aside hi]
  have hpopped : popped [i] [r] = [] := by simp [popped, not_dpop_of_aside hi]
  refine ⟨r, data_of_sameBuffer hbuffer, herr, ?_, hresp, rfl, ?_⟩
  · rw [hbuffer.2.2, hpops, Nat.add_zero, Nat.min_eq_right hr]
  · rw [hpopped, hpops]
    rfl

theorem getD_okBytes_unread {s : State} (h : s.rptr < s.dlen) :
    (okBytes (unread s)).getD 0 0x4000#16 = 0x00#8 ++ s.dmem.read s.rptr := by
  have hlt : s.rptr < (data s).length := by rwa [length_data]
  have hread : (data s)[s.rptr] = s.dmem.read s.rptr := by rw [← getD_data s h, List.getD_eq_getElem _ _ hlt]
  rw [unread, List.drop_eq_getElem_cons hlt, hread]
  rfl

theorem readOut_dpop {s : State} (h : s.err = 0x00#8) (hr : s.rptr ≤ s.dlen) :
    ∃ r, ReadOut s [.dpop] [r] (afterCommand .dpop s) := by
  rw [afterCommand_ok rfl h]
  obtain hlt | heq := hr.lt_or_eq
  · rw [dpopBody_of_unread hlt]
    exact ⟨_, rfl, h, (Nat.min_eq_right hlt).symm, rfl, rfl, congrArg (· :: []) (getD_okBytes_unread hlt).symm⟩
  · rw [dpopBody_of_empty heq.ge]
    have hnil : unread s = [] := List.drop_eq_nil_of_le (by rw [length_data, heq])
    refine ⟨_, rfl, h, ?_, rfl, rfl, ?_⟩
    · exact heq.trans (Nat.min_eq_left (heq ▸ Nat.le_succ _)).symm
    · rw [hnil]
      rfl

theorem readOut_runCommands {is : List Instr} (his : ∀ i ∈ is, Aside i ∨ i = .dpop) {s : State}
    (h : s.err = 0x00#8) (hr : s.rptr ≤ s.dlen) : ∃ rs, ReadOut s is rs (runCommands is s) := by
  induction is generalizing s with
  | nil => exact ⟨[], .nil h hr⟩
  | cons i is ih =>
    obtain ⟨hi, htail⟩ := List.forall_mem_cons.1 his
    obtain ⟨r, hfirst⟩ : ∃ r, ReadOut s [i] [r] (afterCommand i s) := by
      obtain haside | rfl := hi
      · exact readOut_aside haside h hr
      · exact readOut_dpop h hr
    have hr' : (afterCommand i s).rptr ≤ (afterCommand i s).dlen := by
      rw [hfirst.rptr_eq, hfirst.dlen_eq]
      exact Nat.min_le_left ..
    obtain ⟨rs, hrest⟩ := ih htail hfirst.err_eq hr'
    exact ⟨r :: rs, hfirst.cons hrest⟩

theorem unread_of_rptr_zero {s : State} (h : s.rptr = 0) : unread s = data s := by rw [unread, h, List.drop_zero]

theorem readWords_eq (n : Nat) : readWords n = (List.replicate n Instr.dpop).map encode := by
  rw [readWords, List.map_replicate]

/-- Settles O27: a load adds what is pushed to `data()`, command by command; a read-out answers what is still to be
read, and one by `DPOP`s alone is the case in which every response is one to a `DPOP`. -/
theorem dataStreamLoadsAndReadsBack : Obligations.DataStreamLoadsAndReadsBack := by
  refine ⟨fun s first is hfirst his hroom => ?load, fun s h hr => ?pops, fun s is h hr his => ?readOut⟩
  case load =>
    obtain ⟨hdata, hrptr, herr, -⟩ := loaded_runCommands his (loaded_nil_of_start hfirst) hroom
    exact ⟨_, submit_map_encode (first :: is) s, hdata, (length_data _).symm.trans (congrArg List.length hdata), hrptr,
      herr⟩
  case pops =>
    obtain ⟨rs, hread⟩ := readOut_runCommands (is := List.replicate (s.dlen + 1) .dpop)
      (fun i hi => .inr (List.eq_of_mem_replicate hi)) h (hr ▸ Nat.zero_le _)
    have hrs : rs = okBytes (data s) ++ [0x4000#16] := by
      have hlen : rs.length = s.dlen + 1 := hread.length_eq.trans List.length_replicate
      have hpopped := hread.popped_eq
      rwa [popped_replicate hlen, pops_replicate, unread_of_rptr_zero hr, ← length_data s,
        popAnswers_length_succ] at hpopped
    rw [readWords_eq]
    refine ⟨_, submit_map_encode _ s, ?_, hread.data_eq, ?_⟩
    · rw [setInputs_responses, hread.responses_eq, hrs, List.append_assoc]
    · rw [setInputs_rptr, hread.rptr_eq, hr, pops_replicate]
      omega
  case readOut =>
    obtain ⟨rs, hread⟩ := readOut_runCommands his h (hr ▸ Nat.zero_le _)
    refine ⟨_, rs, submit_map_encode is s, hread.data_eq, hread.err_eq, ?_, hread.responses_eq, hread.length_eq, ?_⟩
    · rw [setInputs_rptr, hread.rptr_eq, hr, Nat.zero_add]
      rfl
    · refine hread.popped_eq.trans ?_
      rw [unread_of_rptr_zero hr]
      exact popAnswers_eq_take _ (List.length_filter_le ..)

end Sys2Proof.Machine

/-! SUPPORT. The family of spec/42_pkcs7.md: the functions `pad` and `unpad` (O28 to O30), and the commands `PAD` (O31)
and `UNPAD` (O32), which do the same to `data()` in place. -/

namespace Sys2Proof.Machine

/-! ## `pad` (R100, R101) -/

theorem length_pad (d : List Byte) : (pad d).length = d.length + padLen d.length := by
  rw [pad, List.length_append, length_padBytes]

/-- Settles O28: `n` is `padLen` of the length. -/
theorem padLengthAndShape : Obligations.PadLengthAndShape := by
  refine ⟨fun d => ?_, rfl⟩
  obtain ⟨hpos, hle⟩ := padLen_bounds d.length
  refine ⟨padLen d.length, hpos, hle, length_pad d, rfl, ?_, fun haligned => ?_⟩
  · rw [length_pad, add_padLen]
  · rw [padLen, haligned]

/-! ## Trailers (R102, R192) -/

/-- The last byte of a sequence, which `unpad` takes for the pad length (R102). -/
def lastByte (d : List Byte) : Byte := d.getD (d.length - 1) 0x00#8

/-- A well-formed trailer: the last byte is from 1 to the length, and that many bytes at the end equal it. -/
theorem not_badTrailer_iff (d : List Byte) : ¬ BadTrailer d ↔
    d.length ≠ 0 ∧ (lastByte d).toNat ≠ 0 ∧ (lastByte d).toNat ≤ d.length ∧
      ∀ i < (lastByte d).toNat, d.getD (d.length - 1 - i) 0x00#8 = lastByte d := by
  simp [BadTrailer, lastByte]

/-- The bytes after the first `r.length` ones of a trailer put behind `r`. -/
theorem getD_append_replicate (r : List Byte) {n j : Nat} (v : Byte) (hr : r.length ≤ j) (hj : j < r.length + n) :
    (r ++ List.replicate n v).getD j 0x00#8 = v := by
  rw [List.getD_append_right _ _ _ _ hr, List.getD_replicate _ (by omega)]

theorem lastByte_append_replicate (r : List Byte) {n : Nat} (v : Byte) (hn : 1 ≤ n) :
    lastByte (r ++ List.replicate n v) = v := by
  rw [lastByte, List.length_append, List.length_replicate]
  exact getD_append_replicate r v (by omega) (by omega)

/-- `n` bytes equal to `n` are a well-formed trailer, for every `n` a byte can say (R103). -/
theorem not_badTrailer_append (r : List Byte) {n : Nat} (hpos : 1 ≤ n) (hle : n ≤ 255) :
    ¬ BadTrailer (r ++ List.replicate n (BitVec.ofNat 8 n)) := by
  have hlast := lastByte_append_replicate r (BitVec.ofNat 8 n) hpos
  have hn : (BitVec.ofNat 8 n).toNat = n := Nat.mod_eq_of_lt (by omega)
  have hlen : (r ++ List.replicate n (BitVec.ofNat 8 n)).length = r.length + n := by simp
  rw [not_badTrailer_iff, hlast, hn, hlen]
  exact ⟨by omega, by omega, by omega, fun i hi => getD_append_replicate r _ (by omega) (by omega)⟩

/-- A sequence with a well-formed trailer is what stands before it, followed by the trailer. -/
theorem eq_append_of_not_badTrailer {d : List Byte} (h : ¬ BadTrailer d) :
    d = d.take (d.length - (lastByte d).toNat) ++ List.replicate (lastByte d).toNat (lastByte d) := by
  obtain ⟨-, -, hle, hall⟩ := (not_badTrailer_iff d).1 h
  have hdrop : d.drop (d.length - (lastByte d).toNat) = List.replicate (lastByte d).toNat (lastByte d) := by
    refine List.ext_getElem (by rw [List.length_drop, List.length_replicate]; omega) fun i hi _ => ?_
    rw [List.length_drop] at hi
    have hi' := hall ((lastByte d).toNat - 1 - i) (by omega)
    rw [show d.length - 1 - ((lastByte d).toNat - 1 - i) = d.length - (lastByte d).toNat + i by omega,
      List.getD_eq_getElem _ _ (by omega)] at hi'
    rw [List.getElem_drop, List.getElem_replicate, hi']
  rw [← hdrop, List.take_append_drop]

/-! ## `unpad` (R102, R103) -/

theorem unpad_of_badTrailer {d : List Byte} (h : BadTrailer d) : unpad d = .error .invalidPadding := by
  rw [unpad]
  dsimp only
  split_ifs with hlen hlast hall
  · rfl
  · rfl
  · have hgood : ¬ BadTrailer d := (not_badTrailer_iff d).2 ⟨hlen, fun hzero => hlast (.inl hzero),
      not_lt.1 fun hlong => hlast (.inr hlong), by simpa [lastByte] using hall⟩
    exact absurd h hgood
  · rfl

theorem unpad_of_not_badTrailer {d : List Byte} (h : ¬ BadTrailer d) :
    unpad d = .bytes (d.take (d.length - (lastByte d).toNat)) := by
  obtain ⟨hlen, hpos, hle, hall⟩ := (not_badTrailer_iff d).1 h
  have hbounds : ¬ ((lastByte d).toNat = 0 ∨ d.length < (lastByte d).toNat) := by omega
  exact (if_neg hlen).trans ((if_neg hbounds).trans (if_pos (by simpa [lastByte] using hall)))

theorem unpad_append_replicate (r : List Byte) {n : Nat} (hpos : 1 ≤ n) (hle : n ≤ 255) :
    unpad (r ++ List.replicate n (BitVec.ofNat 8 n)) = .bytes r := by
  have hn : (BitVec.ofNat 8 n).toNat = n := Nat.mod_eq_of_lt (by omega)
  rw [unpad_of_not_badTrailer (not_badTrailer_append r hpos hle), lastByte_append_replicate r _ hpos, hn,
    List.length_append, List.length_replicate, Nat.add_sub_cancel, List.take_left]

theorem unpad_eq_bytes_iff (d r : List Byte) : unpad d = .bytes r ↔
    ∃ n, 1 ≤ n ∧ n ≤ 255 ∧ d = r ++ List.replicate n (BitVec.ofNat 8 n) := by
  constructor
  · intro hr
    have hgood : ¬ BadTrailer d := fun hbad => by simp [unpad_of_badTrailer hbad] at hr
    obtain ⟨-, hpos, -, -⟩ := (not_badTrailer_iff d).1 hgood
    have htake : d.take (d.length - (lastByte d).toNat) = r := by
      simpa [unpad_of_not_badTrailer hgood] using hr
    refine ⟨(lastByte d).toNat, by omega, Nat.le_of_lt_succ (lastByte d).isLt, ?_⟩
    rw [BitVec.ofNat_toNat, BitVec.setWidth_eq, ← htake]
    exact eq_append_of_not_badTrailer hgood
  · rintro ⟨n, hpos, hle, rfl⟩
    exact unpad_append_replicate r hpos hle

theorem unpad_eq_error_iff (d : List Byte) (k : FaultKind) :
    unpad d = .error k ↔ k = .invalidPadding ∧ BadTrailer d := by
  by_cases h : BadTrailer d
  · simp [unpad_of_badTrailer h, h, eq_comm]
  · simp [unpad_of_not_badTrailer h, h]

/-- Settles O29, by the two outcomes of `unpad`; R103's example is a trailer of 17 bytes. -/
theorem unpadAcceptsExactlyTheTrailers : Obligations.UnpadAcceptsExactlyTheTrailers :=
  ⟨unpad_eq_bytes_iff, fun d => (unpad_eq_error_iff d _).trans (and_iff_right rfl),
    fun d k h => ((unpad_eq_error_iff d k).1 h).1, unpad_append_replicate _ (by decide) (by decide)⟩

/-! ## `unpad` after `pad` (R106) -/

theorem unpad_pad (d : List Byte) : unpad (pad d) = .bytes d := by
  obtain ⟨hpos, hle⟩ := padLen_bounds d.length
  exact unpad_append_replicate d hpos (by omega)

/-- Settles O30; R103's example shows that the converse fails, since its 15 bytes pad to 16. -/
theorem unpadUndoesPad : Obligations.UnpadUndoesPad := by
  refine ⟨unpad_pad, List.replicate 15 0x41#8 ++ List.replicate 17 0x11#8, List.replicate 15 0x41#8,
    unpad_append_replicate _ (by decide) (by decide), ?_⟩
  decide

/-! ## `PAD` (R104) -/

/-- `MemRead` of adjacent ranges. -/
theorem Memory.readSeq_add (m : Memory) (addr n k : Nat) :
    m.readSeq addr (n + k) = m.readSeq addr n ++ m.readSeq (addr + n) k := by
  simp [Memory.readSeq, List.range_add, Nat.add_assoc]

/-- What `MemWrite` wrote, `MemRead` returns. -/
theorem Memory.readSeq_writeSeq (m : Memory) (addr : Nat) (vs : List Byte) :
    (m.writeSeq addr vs).readSeq addr vs.length = vs := by
  refine List.ext_getElem (Memory.length_readSeq ..) fun i _ hi => ?_
  rw [← List.getD_eq_getElem _ 0x00#8, ← List.getD_eq_getElem _ 0x00#8, Memory.getD_readSeq _ _ hi,
    Memory.read_writeSeq, if_pos (by omega), Nat.add_sub_cancel_left]

theorem data_padInPlace (s : State) : data (padInPlace s) = pad (data s) := by
  have hbelow : (padInPlace s).dmem.readSeq 0 s.dlen = data s :=
    data_congr (t := setDlen s.dlen (padInPlace s)) rfl fun a ha => by
      rw [setDlen_dmem, read_padInPlace, if_neg (by omega)]
  have habove : (padInPlace s).dmem.readSeq s.dlen (padLen s.dlen) = padBytes s.dlen := by
    rw [padInPlace_dmem, ← length_padBytes, Memory.readSeq_writeSeq]
  rw [data, padInPlace_dlen, Memory.readSeq_add, hbelow, Nat.zero_add, habove, pad, length_data]

/-- A legal capacity that is not reached has room for the padding: both are multiples of 16 (R104). -/
theorem holds_add_padLen {c : Config} {n : Nat} (hlegal : c.legal = true) (hfits : c.holds n = true)
    (hroom : c.dcap ≠ some n) : c.holds (n + padLen n) = true := by
  rw [add_padLen]
  obtain ⟨_ | m⟩ := c
  · rfl
  · have hne : m ≠ n := fun h => hroom (congrArg some h)
    simp only [Config.legal, Config.holds, Bool.and_eq_true, decide_eq_true_eq, beq_iff_eq] at hlegal hfits ⊢
    omega

theorem padBody_of_full {s : State} (hfull : s.cfg.dcap = some s.dlen) : padBody s = withFault s 0x08#8 :=
  ((padBody_cases s).resolve_right fun h => h.1 hfull).2

theorem padBody_of_room {s : State} (hroom : s.cfg.dcap ≠ some s.dlen) : padBody s = answerOK (padInPlace s) :=
  ((padBody_cases s).resolve_left fun h => hroom h.1).2

/-- After `PAD` the buffer is not empty and its length is a multiple of 16 (R29, R101). -/
theorem flags_padInPlace (s : State) : (flags (answerOK (padInPlace s))).getLsbD 1 = true ∧
    (flags (answerOK (padInPlace s))).getLsbD 2 = true := by
  have hlen : (answerOK (padInPlace s)).dlen = 16 * (s.dlen / 16 + 1) := add_padLen s.dlen
  obtain ⟨-, hDNE, hALN, -, -⟩ := flags_bits (answerOK (padInPlace s))
  rw [hDNE, hALN, flagDNE, flagALN, hlen]
  simp

/-- Settles O31, by the two outcomes of `PAD`. -/
theorem padCommandAppendsThePadding : Obligations.PadCommandAppendsThePadding := by
  refine ⟨rfl, ignoredWhenFaulted nofun nofun, fun s h => ⟨fun hfull => ?_, fun hroom => ?_⟩⟩
  · rw [exec_ok rfl h, padBody_of_full hfull]
  · obtain ⟨hDNE, hALN⟩ := flags_padInPlace s
    refine ⟨answerOK (padInPlace s), padLen s.dlen, rfl, ?_, rfl, read_padInPlace s, data_padInPlace s, rfl,
      ⟨rfl, rfl, rfl⟩, h, ⟨rfl, rfl, rfl⟩, hDNE, hALN, fun hleg hfit => holds_add_padLen hleg hfit hroom⟩
    rw [exec_ok rfl h, padBody_of_room hroom]

/-! ## `UNPAD` (R105) -/

theorem lastByte_data {s : State} (h : s.dlen ≠ 0) : lastByte (data s) = s.dmem.read (s.dlen - 1) := by
  rw [lastByte, length_data, getD_data s (by omega)]

/-- The tests of `UNPAD` on `DMEM` are those of `unpad` on `data()`. -/
theorem trailer_eq_some_iff (s : State) (p : Nat) : trailer s.dmem s.dlen = some p ↔
    ¬ BadTrailer (data s) ∧ p = (lastByte (data s)).toNat := by
  rw [trailer_eq_some, not_badTrailer_iff, length_data]
  by_cases hlen : s.dlen = 0
  · simp [hlen]
  · have hread (i : Nat) : (data s).getD (s.dlen - 1 - i) 0x00#8 = s.dmem.read (s.dlen - 1 - i) :=
      getD_data s (by omega)
    simp only [lastByte_data hlen, hread]
    constructor
    · rintro ⟨-, rfl, hpos, hle, hall⟩
      exact ⟨⟨hlen, hpos, hle, hall⟩, rfl⟩
    · rintro ⟨⟨-, hpos, hle, hall⟩, rfl⟩
      exact ⟨hlen, rfl, hpos, hle, hall⟩

theorem unpadInPlace_of_badTrailer {s : State} (h : BadTrailer (data s)) : unpadInPlace s = withFault s 0x02#8 := by
  obtain ⟨-, hs⟩ | ⟨p, hp, -⟩ := unpadInPlace_cases s
  · exact hs
  · exact absurd h ((trailer_eq_some_iff s p).1 hp).1

theorem unpadInPlace_of_not_badTrailer {s : State} (h : ¬ BadTrailer (data s)) :
    unpadInPlace s = answerOK (setRptr 0 (setDlen (s.dlen - (lastByte (data s)).toNat) s)) := by
  have htrailer := (trailer_eq_some_iff s _).2 ⟨h, rfl⟩
  rw [unpadInPlace, htrailer]

/-- A shorter length keeps the first bytes of `data()`. -/
theorem data_setDlen_of_le {s : State} {n : Nat} (h : n ≤ s.dlen) : data (setDlen n s) = (data s).take n := by
  simp [data, Memory.readSeq, ← List.map_take, List.take_range, h]

/-- Settles O32, by the two outcomes of `UNPAD`. -/
theorem unpadCommandDropsTheTrailer : Obligations.UnpadCommandDropsTheTrailer := by
  refine ⟨rfl, ignoredWhenFaulted nofun nofun, fun s h => ⟨fun hbad => ?_, fun hgood => ?_⟩⟩
  · rw [exec_ok rfl h, unpadInPlace_of_badTrailer hbad]
  · obtain ⟨hlen, -, hle, -⟩ := (not_badTrailer_iff _).1 hgood
    rw [length_data] at hlen hle
    refine ⟨_, (exec_ok rfl h).trans (congrArg _ (unpadInPlace_of_not_badTrailer hgood)), ?dropped, ?rest, rfl,
      fun _ => rfl, ⟨rfl, rfl, rfl⟩, h, rfl, rfl, rfl⟩
    case dropped =>
      rw [← lastByte_data hlen]
      exact Nat.sub_add_cancel hle
    case rest =>
      rw [unpad_of_not_badTrailer hgood, length_data, ← data_setDlen_of_le (Nat.sub_le ..)]
      rfl

end Sys2Proof.Machine

/-! SUPPORT. The family of spec/43_aes128_block.md: the field (O33), the tables (O34), the key expansion (O35), the round
functions (O36, O37), and the block functions (O38). -/

namespace Sys2Proof.Machine

/-! ## `xtime` and `gmul` are additive (R112) -/

/-- `xtime` with the reduction as a summand, which the top bit of `a` decides. -/
theorem xtime_eq_xor (a : Byte) : xtime a = (a <<< 1) ^^^ if a.msb then 0x1B#8 else 0x00#8 := by
  have htop : 0x80#8 ≤ a ↔ a.msb = true := by simp [BitVec.msb_eq_decide, BitVec.le_def]
  unfold xtime
  by_cases h : a.msb = true
  · rw [if_pos (htop.2 h), if_pos h]
  · rw [if_neg (mt htop.1 h), if_neg h, BitVec.xor_zero]

theorem xtime_xor (a b : Byte) : xtime (a ^^^ b) = xtime a ^^^ xtime b := by
  have hred (x y : Bool) : (if (x ^^ y) then 0x1B#8 else 0x00#8) =
      (if x then 0x1B#8 else 0x00#8) ^^^ (if y then 0x1B#8 else 0x00#8) := by
    cases x <;> cases y <;> rfl
  simp only [xtime_eq_xor, BitVec.shiftLeft_xor_distrib, BitVec.msb_xor, hred]
  ac_rfl

/-- The value of `xtime` (R112): the shifted byte, reduced by `0x1B` when the top bit falls out. -/
theorem toNat_xtime (a : Byte) :
    (xtime a).toNat = if a.toNat < 0x80 then a.toNat * 2 % 256 else (a.toNat * 2 % 256) ^^^ 0x1B := by
  have hshift : (a <<< 1).toNat = a.toNat * 2 % 256 := by rw [BitVec.toNat_shiftLeft, Nat.shiftLeft_eq]
  have htop : 0x80#8 ≤ a ↔ ¬ a.toNat < 0x80 := Nat.not_lt.symm
  unfold xtime
  by_cases h : a.toNat < 0x80
  · rw [if_neg (not_not.2 h ∘ htop.1), if_pos h, hshift]
  · rw [if_pos (htop.2 h), if_neg h, BitVec.toNat_xor, hshift]
    rfl

/-- What one iteration of the loop of `gmul` adds to the product: the multiplicand if the tested bit is set (R112). -/
def bitTerm (bit : Bool) (a : Byte) : Byte := if bit then a else 0x00#8

theorem gmulLoop_succ (b : Byte) (n i : Nat) (a p : Byte) :
    gmulLoop b (n + 1) i a p = gmulLoop b n (i + 1) (xtime a) (p ^^^ bitTerm (b.getLsbD i) a) := by
  rw [gmulLoop, bitTerm]
  cases b.getLsbD i
  · rw [if_neg Bool.false_ne_true, if_neg Bool.false_ne_true, BitVec.xor_zero]
  · rfl

theorem bitTerm_xor_left (x y : Bool) (a : Byte) : bitTerm (x ^^ y) a = bitTerm x a ^^^ bitTerm y a := by
  cases x <;> cases y <;> simp [bitTerm]

theorem bitTerm_xor_right (x : Bool) (a a' : Byte) : bitTerm x (a ^^^ a') = bitTerm x a ^^^ bitTerm x a' := by
  cases x <;> simp [bitTerm]

theorem gmulLoop_xor_left (b : Byte) (n : Nat) : ∀ (i : Nat) (a a' p p' : Byte),
    gmulLoop b n i (a ^^^ a') (p ^^^ p') = gmulLoop b n i a p ^^^ gmulLoop b n i a' p' := by
  induction n with
  | zero => exact fun _ _ _ _ _ => rfl
  | succ n ih =>
    intro i a a' p p'
    simp only [gmulLoop_succ, xtime_xor, bitTerm_xor_right, ← ih]
    congr 1
    ac_rfl

theorem gmulLoop_xor_right (b c : Byte) (n : Nat) : ∀ (i : Nat) (a p q : Byte),
    gmulLoop (b ^^^ c) n i a (p ^^^ q) = gmulLoop b n i a p ^^^ gmulLoop c n i a q := by
  induction n with
  | zero => exact fun _ _ _ _ => rfl
  | succ n ih =>
    intro i a p q
    simp only [gmulLoop_succ, BitVec.getLsbD_xor, bitTerm_xor_left, ← ih]
    congr 1
    ac_rfl

theorem gmul_xor_left (a a' b : Byte) : gmul (a ^^^ a') b = gmul a b ^^^ gmul a' b :=
  gmulLoop_xor_left b 8 0 a a' 0x00#8 0x00#8

theorem gmul_xor_right (a b c : Byte) : gmul a (b ^^^ c) = gmul a b ^^^ gmul a c :=
  gmulLoop_xor_right b c 8 0 a 0x00#8 0x00#8

/-! ## `gmul` is commutative and associative (R112)

A map of bytes that is additive and commutes with `xtime` passes through `gmul` in the first factor. Multiplication by a
byte is such a map, so `(a b) c = (a c) b`; with `a = 1` that is commutativity, and the two together are associativity. -/

/-- Additive, and commuting with multiplication by `x`. -/
structure FieldLinear (f : Byte → Byte) : Prop where
  map_xor : ∀ a b, f (a ^^^ b) = f a ^^^ f b
  map_xtime : ∀ a, f (xtime a) = xtime (f a)

theorem FieldLinear.map_zero {f : Byte → Byte} (h : FieldLinear f) : f 0x00#8 = 0x00#8 := by
  have hself := h.map_xor 0x00#8 0x00#8
  rwa [BitVec.xor_self, BitVec.xor_self] at hself

theorem FieldLinear.map_bitTerm {f : Byte → Byte} (h : FieldLinear f) (bit : Bool) (a : Byte) :
    f (bitTerm bit a) = bitTerm bit (f a) := by
  cases bit
  · exact h.map_zero
  · rfl

theorem FieldLinear.map_gmulLoop {f : Byte → Byte} (h : FieldLinear f) (b : Byte) (n : Nat) : ∀ (i : Nat) (a p : Byte),
    f (gmulLoop b n i a p) = gmulLoop b n i (f a) (f p) := by
  induction n with
  | zero => exact fun _ _ _ => rfl
  | succ n ih =>
    intro i a p
    simp only [gmulLoop_succ, ih, h.map_xtime, h.map_xor, h.map_bitTerm]

theorem FieldLinear.map_gmul {f : Byte → Byte} (h : FieldLinear f) (a b : Byte) : f (gmul a b) = gmul (f a) b := by
  rw [gmul, h.map_gmulLoop, h.map_zero, gmul]

theorem fieldLinear_xtime : FieldLinear xtime := ⟨xtime_xor, fun _ => rfl⟩

theorem fieldLinear_gmul (b : Byte) : FieldLinear (gmul · b) :=
  ⟨fun a a' => gmul_xor_left a a' b, fun a => (fieldLinear_xtime.map_gmul a b).symm⟩

theorem gmul_right_comm (a b c : Byte) : gmul (gmul a b) c = gmul (gmul a c) b := (fieldLinear_gmul c).map_gmul a b

theorem one_gmul : ∀ b : Byte, gmul 0x01#8 b = b := by decide +kernel

theorem gmul_comm (a b : Byte) : gmul a b = gmul b a := by
  have h := gmul_right_comm 0x01#8 a b
  rwa [one_gmul, one_gmul] at h

theorem gmul_assoc (a b c : Byte) : gmul (gmul a b) c = gmul a (gmul b c) :=
  calc gmul (gmul a b) c = gmul (gmul b a) c := by rw [gmul_comm a b]
    _ = gmul (gmul b c) a := gmul_right_comm b a c
    _ = gmul a (gmul b c) := gmul_comm ..

theorem gmul_one (a : Byte) : gmul a 0x01#8 = a := by rw [gmul_comm, one_gmul]

theorem gmul_zero (a : Byte) : gmul a 0x00#8 = 0x00#8 := by
  rw [gmul_comm]
  exact (fieldLinear_gmul a).map_zero

theorem gmul_two (a : Byte) : gmul a 0x02#8 = xtime a :=
  calc gmul a 0x02#8 = gmul (xtime 0x01#8) a := gmul_comm ..
    _ = xtime (gmul 0x01#8 a) := (fieldLinear_xtime.map_gmul _ _).symm
    _ = xtime a := by rw [one_gmul]

/-! ## Inverses in the field (R112, R113) -/

/-- The power `x^254` of the model is the inverse that R113 asks for. -/
theorem gmul_ginv : ∀ a : Byte, a ≠ 0x00#8 → gmul a (ginv a) = 0x01#8 := by decide +kernel

theorem eq_ginv_of_gmul_eq_one {a b : Byte} (h : gmul a b = 0x01#8) (ha : a ≠ 0x00#8) : b = ginv a :=
  calc b = gmul (gmul a (ginv a)) b := by rw [gmul_ginv a ha, one_gmul]
    _ = gmul (gmul a b) (ginv a) := gmul_right_comm ..
    _ = ginv a := by rw [h, one_gmul]

/-- Settles O33, from the additivity of `gmul` and the maps that pass through it. -/
theorem fieldMultiplicationLaws : Obligations.FieldMultiplicationLaws :=
  ⟨gmul_comm, gmul_assoc, gmul_xor_right, gmul_one, gmul_zero,
    fun a ha => ⟨ginv a, gmul_ginv a ha, fun _ h => eq_ginv_of_gmul_eq_one h ha⟩, gmul_two, toNat_xtime, by decide⟩

/-! ## The tables (R113 to R115) -/

theorem sbox_eq_sboxFormula : ∀ x : Byte, sbox x = sboxFormula x := by decide +kernel

@[simp] theorem invSbox_sbox : ∀ x : Byte, invSbox (sbox x) = x := by decide +kernel

@[simp] theorem sbox_invSbox : ∀ x : Byte, sbox (invSbox x) = x := by decide +kernel

theorem sbox_ne_self : ∀ x : Byte, sbox x ≠ x := by decide +kernel

theorem sbox_bijective : Function.Bijective sbox :=
  Function.bijective_iff_has_inverse.2 ⟨invSbox, invSbox_sbox, sbox_invSbox⟩

theorem rcon_succ {j : Nat} (h : 1 ≤ j) : rcon (j + 1) = xtime (rcon j) := by
  obtain ⟨n, rfl⟩ := Nat.exists_eq_add_of_le' h
  rfl

/-- Settles O34, with the power `ginv x` as the field inverse of R113's formula. -/
theorem cipherTablesMatchTheirDefinitions : Obligations.CipherTablesMatchTheirDefinitions := by
  refine ⟨fun x => ⟨ginv x, ?_, sbox_eq_sboxFormula x⟩, sbox_bijective, sbox_ne_self, by decide,
    fun x => ⟨invSbox_sbox x, sbox_invSbox x⟩, by decide, by decide, fun j => rcon_succ⟩
  by_cases hx : x = 0x00#8
  · rw [if_pos hx, hx]
    decide +kernel
  · rw [if_neg hx]
    exact gmul_ginv x hx

/-! ## Key expansion (R116) -/

/-- The words a loop starts with stay. -/
theorem getD_keyWordsLoop_of_lt (n : Nat) : ∀ {ws : List Quad} {i : Nat}, i < ws.length →
    (keyWordsLoop n ws).getD i zeroQuad = ws.getD i zeroQuad := by
  induction n with
  | zero => exact fun _ => rfl
  | succ n ih =>
    intro ws i h
    rw [keyWordsLoop, ih (h.trans_le (by simp)), List.getD_append _ _ _ _ h]

/-- The word after those a loop starts with comes from the last of them and the fourth before it. -/
theorem getD_keyWordsLoop_length (n : Nat) (ws : List Quad) : (keyWordsLoop (n + 1) ws).getD ws.length zeroQuad =
    nextKeyWord ws.length (ws.getD (ws.length - 4) zeroQuad) (ws.getD (ws.length - 1) zeroQuad) := by
  rw [keyWordsLoop, getD_keyWordsLoop_of_lt n (by simp), List.getD_append_right _ _ _ _ le_rfl, Nat.sub_self]
  rfl

/-- So does every later word that the loop makes. -/
theorem getD_keyWordsLoop_of_le (n : Nat) : ∀ {ws : List Quad} {i : Nat}, 4 ≤ ws.length → ws.length ≤ i →
    i < ws.length + n → (keyWordsLoop n ws).getD i zeroQuad =
      nextKeyWord i ((keyWordsLoop n ws).getD (i - 4) zeroQuad) ((keyWordsLoop n ws).getD (i - 1) zeroQuad) := by
  induction n with
  | zero => exact fun _ hle hlt => absurd hlt (by omega)
  | succ n ih =>
    intro ws i h4 hle hlt
    obtain rfl | hgt := hle.eq_or_lt
    · rw [getD_keyWordsLoop_length, getD_keyWordsLoop_of_lt (i := ws.length - 4) _ (by omega),
        getD_keyWordsLoop_of_lt (i := ws.length - 1) _ (by omega)]
    · exact ih (by simp; omega) (by simpa using hgt) (by simp; omega)

/-- Word `w[i]` of `KeyExpansion(k)` (R116). -/
def keyWord (k : Block) (i : Nat) : Quad := (keyWords k).getD i zeroQuad

theorem keyWord_of_lt {k : Block} {i : Nat} (h : i < 4) : keyWord k i = column k i := by
  rw [keyWord, keyWords, getD_keyWordsLoop_of_lt 40 h]
  interval_cases i <;> rfl

theorem keyWord_eq_nextKeyWord {k : Block} {i : Nat} (h4 : 4 ≤ i) (h44 : i < 44) :
    keyWord k i = nextKeyWord i (keyWord k (i - 4)) (keyWord k (i - 1)) :=
  getD_keyWordsLoop_of_le 40 (Nat.le_refl 4) h4 h44

@[simp] theorem byte_column (s : Block) (c : Nat) {r : Nat} (h : r < 4) : (column s c).byte r = s.byte (4 * c + r) :=
  Quad.byte_make _ h

@[simp] theorem byte_ofColumns (f : Nat → Quad) {i : Nat} (h : i < 16) :
    (ofColumns f).byte i = (f (i / 4)).byte (i % 4) := Block.byte_make _ h

/-- A state is its columns, end to end (R111). -/
theorem ofColumns_column (s : Block) : ofColumns (column s) = s :=
  Block.ext_byte fun i hi => by
    rw [byte_ofColumns _ hi, byte_column _ _ (Nat.mod_lt i (by decide)), Nat.div_add_mod]

@[simp] theorem column_ofColumns (f : Nat → Quad) {c : Nat} (h : c < 4) : column (ofColumns f) c = f c :=
  Quad.ext_byte fun r hr => by
    rw [byte_column _ _ hr, byte_ofColumns _ (by omega), Nat.mul_add_div (by decide), Nat.div_eq_of_lt hr,
      Nat.mul_add_mod, Nat.mod_eq_of_lt hr, Nat.add_zero]

theorem ofColumns_congr {f g : Nat → Quad} (h : ∀ c < 4, f c = g c) : ofColumns f = ofColumns g :=
  Block.ext_byte fun i hi => by rw [byte_ofColumns _ hi, byte_ofColumns _ hi, h _ (by omega)]

theorem byte_roundKey (k : Block) (r : Nat) {i : Nat} (h : i < 16) :
    (roundKey (keyWords k) r).byte i = (keyWord k (4 * r + i / 4)).byte (i % 4) := byte_ofColumns _ h

theorem roundKey_zero (k : Block) : roundKey (keyWords k) 0 = k :=
  calc roundKey (keyWords k) 0 = ofColumns (column k) := ofColumns_congr fun c hc => by
        rw [← keyWord_of_lt hc, keyWord, Nat.mul_zero, Nat.zero_add]
    _ = k := ofColumns_column k

theorem byte_keyWord_of_mod_ne {k : Block} {i : Nat} (h4 : 4 ≤ i) (h44 : i < 44) (hi : i % 4 ≠ 0) {r : Nat} (hr : r < 4) :
    (keyWord k i).byte r = (keyWord k (i - 4)).byte r ^^^ (keyWord k (i - 1)).byte r := by
  rw [keyWord_eq_nextKeyWord h4 h44, nextKeyWord, if_neg hi, Quad.byte_xor _ _ hr]

/-- The words that start a round key: rotated, substituted, and marked with the round constant in byte 0. -/
theorem byte_keyWord_of_mod_eq {k : Block} {i : Nat} (h4 : 4 ≤ i) (h44 : i < 44) (hi : i % 4 = 0) {r : Nat} (hr : r < 4) :
    (keyWord k i).byte r = (keyWord k (i - 4)).byte r ^^^
      (addRcon (subWord (rotWord (keyWord k (i - 1)))) (rcon (i / 4))).byte r := by
  rw [keyWord_eq_nextKeyWord h4 h44, nextKeyWord, if_pos hi, Quad.byte_xor _ _ hr]

theorem bytes_addRcon_subWord_rotWord (t : Quad) (c : Byte) :
    (addRcon (subWord (rotWord t)) c).byte 0 = sbox (t.byte 1) ^^^ c ∧
    (addRcon (subWord (rotWord t)) c).byte 1 = sbox (t.byte 2) ∧
    (addRcon (subWord (rotWord t)) c).byte 2 = sbox (t.byte 3) ∧
    (addRcon (subWord (rotWord t)) c).byte 3 = sbox (t.byte 0) := ⟨rfl, rfl, rfl, rfl⟩

/-- Settles O35, with the bytes of the model's own key words as `w`. -/
theorem keyExpansionFollowsTheRecurrence : Obligations.KeyExpansionFollowsTheRecurrence := by
  refine ⟨fun k => ⟨fun i r => (keyWord k i).byte r, ?first, ?marked, ?plain, fun r _ i => byte_roundKey k r,
    roundKey_zero k⟩, by decide +kernel, by decide +kernel⟩
  case first =>
    intro i hi r hr
    exact (congrArg (·.byte r) (keyWord_of_lt hi)).trans (byte_column k i hr)
  case marked =>
    intro i h4 h44 hi
    obtain ⟨h0, h1, h2, h3⟩ := bytes_addRcon_subWord_rotWord (keyWord k (i - 1)) (rcon (i / 4))
    rw [← h0, ← h1, ← h2, ← h3]
    have hbyte {r : Nat} (hr : r < 4) := byte_keyWord_of_mod_eq (k := k) h4 h44 hi hr
    exact ⟨hbyte (by decide), hbyte (by decide), hbyte (by decide), hbyte (by decide)⟩
  case plain => exact fun i h4 h44 hi r => byte_keyWord_of_mod_ne h4 h44 hi

/-! ## `AddRoundKey` and `SubBytes` (R117, R118) -/

theorem byte_addRoundKey (s k : Block) {i : Nat} (h : i < 16) : (addRoundKey s k).byte i = s.byte i ^^^ k.byte i :=
  Block.byte_xor _ _ h

@[simp] theorem addRoundKey_addRoundKey (s k : Block) : addRoundKey (addRoundKey s k) k = s :=
  Block.ext_byte fun i hi => by
    rw [byte_addRoundKey _ _ hi, byte_addRoundKey _ _ hi, BitVec.xor_assoc, BitVec.xor_self, BitVec.xor_zero]

theorem byte_subBytes (s : Block) {i : Nat} (h : i < 16) : (subBytes s).byte i = sbox (s.byte i) := Block.byte_make _ h

theorem byte_invSubBytes (s : Block) {i : Nat} (h : i < 16) : (invSubBytes s).byte i = invSbox (s.byte i) :=
  Block.byte_make _ h

@[simp] theorem invSubBytes_subBytes (s : Block) : invSubBytes (subBytes s) = s :=
  Block.ext_byte fun i hi => by rw [byte_invSubBytes _ hi, byte_subBytes _ hi, invSbox_sbox]

@[simp] theorem subBytes_invSubBytes (s : Block) : subBytes (invSubBytes s) = s :=
  Block.ext_byte fun i hi => by rw [byte_subBytes _ hi, byte_invSubBytes _ hi, sbox_invSbox]

/-! ## `ShiftRows` (R119) -/

/-- The byte that `ShiftRows` moves to `i`: from the same row, `i % 4` columns on. -/
def shiftSource (i : Nat) : Nat := i % 4 + 4 * ((i / 4 + i % 4) % 4)

/-- The byte that `InvShiftRows` moves to `i`: from the same row, `i % 4` columns back. -/
def invShiftSource (i : Nat) : Nat := i % 4 + 4 * ((i / 4 + 4 - i % 4) % 4)

theorem byte_shiftRows (s : Block) {i : Nat} (h : i < 16) : (shiftRows s).byte i = s.byte (shiftSource i) :=
  Block.byte_make _ h

theorem byte_invShiftRows (s : Block) {i : Nat} (h : i < 16) : (invShiftRows s).byte i = s.byte (invShiftSource i) :=
  Block.byte_make _ h

theorem shiftSource_lt : ∀ i < 16, shiftSource i < 16 := by decide

theorem invShiftSource_lt : ∀ i < 16, invShiftSource i < 16 := by decide

theorem shiftSource_invShiftSource : ∀ i < 16, shiftSource (invShiftSource i) = i := by decide

theorem invShiftSource_shiftSource : ∀ i < 16, invShiftSource (shiftSource i) = i := by decide

@[simp] theorem invShiftRows_shiftRows (s : Block) : invShiftRows (shiftRows s) = s :=
  Block.ext_byte fun i hi => by
    rw [byte_invShiftRows _ hi, byte_shiftRows _ (invShiftSource_lt i hi), shiftSource_invShiftSource i hi]

@[simp] theorem shiftRows_invShiftRows (s : Block) : shiftRows (invShiftRows s) = s :=
  Block.ext_byte fun i hi => by
    rw [byte_shiftRows _ hi, byte_invShiftRows _ (shiftSource_lt i hi), invShiftSource_shiftSource i hi]

theorem shiftSource_add_mul {r c : Nat} (hr : r < 4) : shiftSource (r + 4 * c) = r + 4 * ((c + r) % 4) := by
  unfold shiftSource
  omega

theorem invShiftSource_add_mul {r c : Nat} (hr : r < 4) (hc : c < 4) :
    invShiftSource (r + 4 * ((c + r) % 4)) = r + 4 * c := by
  unfold invShiftSource
  omega

/-- R119's permutation `P`. -/
theorem shiftSource_eq_getD : ∀ i < 16,
    shiftSource i = [0, 5, 10, 15, 4, 9, 14, 3, 8, 13, 2, 7, 12, 1, 6, 11].getD i 0 := by decide

/-- R119's permutation `Q`. -/
theorem invShiftSource_eq_getD : ∀ i < 16,
    invShiftSource i = [0, 13, 10, 7, 4, 1, 14, 11, 8, 5, 2, 15, 12, 9, 6, 3].getD i 0 := by decide

/-- Settles O36, from what each function does to one byte. -/
theorem roundFunctionsActByteByByte : Obligations.RoundFunctionsActByteByByte := by
  refine ⟨fun s k => ⟨fun i => byte_addRoundKey s k, addRoundKey_addRoundKey s k⟩,
    fun s i hi => ⟨byte_subBytes s hi, byte_invSubBytes s hi⟩, fun s r hr c hc => ⟨?_, ?_⟩, fun s i hi => ⟨?_, ?_⟩,
    fun s => ⟨invShiftRows_shiftRows s, shiftRows_invShiftRows s⟩, by decide⟩
  · rw [byte_shiftRows s (by omega), shiftSource_add_mul hr]
  · rw [byte_invShiftRows s (by omega), invShiftSource_add_mul hr hc]
  · rw [byte_shiftRows s hi, shiftSource_eq_getD i hi]
  · rw [byte_invShiftRows s hi, invShiftSource_eq_getD i hi]

/-! ## `MixColumns` and `InvMixColumns` (R120)

Each is, on a column, the product with a matrix over the field whose rows are rotations of its first row. Such a product
is linear, so that the two undo each other is a check of the four unit columns. -/

/-- A column with each byte multiplied by `c`. -/
def quadScale (c : Byte) (a : Quad) : Quad := Quad.make fun i => gmul c (a.byte i)

/-- The column with `0x01` in byte `j` and `0x00` in the others. -/
def unitQuad (j : Nat) : Quad := Quad.make fun i => if i = j then 0x01#8 else 0x00#8

/-- A map of columns that is linear over the field. -/
structure QuadLinear (f : Quad → Quad) : Prop where
  map_xor : ∀ a b, f (a.xor b) = (f a).xor (f b)
  map_scale : ∀ c a, f (quadScale c a) = quadScale c (f a)

theorem QuadLinear.comp {f g : Quad → Quad} (hf : QuadLinear f) (hg : QuadLinear g) : QuadLinear fun a => f (g a) :=
  ⟨fun a b => by rw [hg.map_xor, hf.map_xor], fun c a => by rw [hg.map_scale, hf.map_scale]⟩

@[simp] theorem byte_quadScale (c : Byte) (a : Quad) {i : Nat} (h : i < 4) : (quadScale c a).byte i = gmul c (a.byte i) :=
  Quad.byte_make _ h

@[simp] theorem byte_unitQuad (j : Nat) {i : Nat} (h : i < 4) :
    (unitQuad j).byte i = if i = j then 0x01#8 else 0x00#8 := Quad.byte_make _ h

/-- A column is the sum of its bytes times the unit columns. -/
theorem quad_eq_sum_units (a : Quad) : a = ((quadScale (a.byte 0) (unitQuad 0)).xor (quadScale (a.byte 1) (unitQuad 1))).xor
    ((quadScale (a.byte 2) (unitQuad 2)).xor (quadScale (a.byte 3) (unitQuad 3))) :=
  Quad.ext_byte fun i hi => by
    simp only [Quad.byte_xor _ _ hi, byte_quadScale _ _ hi, byte_unitQuad _ hi]
    interval_cases i <;> simp [gmul_one, gmul_zero]

/-- A linear map that keeps the four unit columns keeps every column. -/
theorem QuadLinear.eq_self {f : Quad → Quad} (hf : QuadLinear f) (hunit : ∀ j < 4, f (unitQuad j) = unitQuad j)
    (a : Quad) : f a = a := by
  rw [quad_eq_sum_units a]
  simp only [hf.map_xor, hf.map_scale, hunit 0 (by decide), hunit 1 (by decide), hunit 2 (by decide), hunit 3 (by decide)]

/-- The sum of the products of the bytes of a row of a matrix and a column. -/
def quadDot (m a : Quad) : Byte :=
  gmul (a.byte 0) (m.byte 0) ^^^ gmul (a.byte 1) (m.byte 1) ^^^ gmul (a.byte 2) (m.byte 2) ^^^ gmul (a.byte 3) (m.byte 3)

theorem quadDot_xor (m a b : Quad) : quadDot m (a.xor b) = quadDot m a ^^^ quadDot m b := by
  have hbyte {i : Nat} (hi : i < 4) : gmul ((a.xor b).byte i) (m.byte i) =
      gmul (a.byte i) (m.byte i) ^^^ gmul (b.byte i) (m.byte i) := by rw [Quad.byte_xor _ _ hi, gmul_xor_left]
  rw [quadDot, hbyte (by decide), hbyte (by decide), hbyte (by decide), hbyte (by decide), quadDot, quadDot]
  ac_rfl

theorem quadDot_scale (m : Quad) (c : Byte) (a : Quad) : quadDot m (quadScale c a) = gmul c (quadDot m a) := by
  simp [quadDot, gmul_xor_right, gmul_assoc]

/-- The product of a column and the matrix whose row `i` is `m` rotated right by `i` bytes. -/
def circulantMul (m a : Quad) : Quad := Quad.make fun i => quadDot (Quad.make fun j => m.byte ((j + 4 - i) % 4)) a

theorem quadLinear_circulantMul (m : Quad) : QuadLinear (circulantMul m) where
  map_xor a b := Quad.ext_byte fun i hi => by
    simp only [circulantMul, Quad.byte_make _ hi, Quad.byte_xor _ _ hi, quadDot_xor]
  map_scale c a := Quad.ext_byte fun i hi => by
    simp only [circulantMul, Quad.byte_make _ hi, byte_quadScale _ _ hi, quadDot_scale]

theorem circulantMul_mix (a : Quad) : circulantMul #v[2, 3, 1, 1] a = mixColumn a := by
  refine Quad.ext_byte fun i hi => ?_
  interval_cases i <;> simp [circulantMul, mixColumn, Quad.make, Quad.byte, quadDot, gmul_one]

theorem circulantMul_invMix (a : Quad) : circulantMul #v[14, 11, 13, 9] a = invMixColumn a := rfl

theorem quadLinear_mixColumn : QuadLinear mixColumn :=
  funext circulantMul_mix ▸ quadLinear_circulantMul #v[2, 3, 1, 1]

theorem quadLinear_invMixColumn : QuadLinear invMixColumn :=
  funext circulantMul_invMix ▸ quadLinear_circulantMul #v[14, 11, 13, 9]

@[simp] theorem invMixColumn_mixColumn (a : Quad) : invMixColumn (mixColumn a) = a :=
  (quadLinear_invMixColumn.comp quadLinear_mixColumn).eq_self (by decide) a

@[simp] theorem mixColumn_invMixColumn (a : Quad) : mixColumn (invMixColumn a) = a :=
  (quadLinear_mixColumn.comp quadLinear_invMixColumn).eq_self (by decide) a

theorem column_mixColumns (s : Block) {c : Nat} (h : c < 4) : column (mixColumns s) c = mixColumn (column s c) :=
  column_ofColumns _ h

theorem column_invMixColumns (s : Block) {c : Nat} (h : c < 4) : column (invMixColumns s) c = invMixColumn (column s c) :=
  column_ofColumns _ h

theorem ext_column {s t : Block} (h : ∀ c < 4, column s c = column t c) : s = t := by
  rw [← ofColumns_column s, ← ofColumns_column t, ofColumns_congr h]

@[simp] theorem invMixColumns_mixColumns (s : Block) : invMixColumns (mixColumns s) = s :=
  ext_column fun c hc => by rw [column_invMixColumns _ hc, column_mixColumns _ hc, invMixColumn_mixColumn]

@[simp] theorem mixColumns_invMixColumns (s : Block) : mixColumns (invMixColumns s) = s :=
  ext_column fun c hc => by rw [column_mixColumns _ hc, column_invMixColumns _ hc, mixColumn_invMixColumn]

/-- Settles O37, column by column: a byte of the result is a byte of the result's column. -/
theorem mixColumnsAndItsInverse : Obligations.MixColumnsAndItsInverse := by
  refine ⟨?_, invMixColumns_mixColumns, by decide +kernel⟩
  rintro s c hc _ _ _ _ rfl rfl rfl rfl
  have hmix {r : Nat} (hr : r < 4) : (mixColumns s).byte (4 * c + r) = (mixColumn (column s c)).byte r := by
    rw [← byte_column _ _ hr, column_mixColumns s hc]
  have hinv {r : Nat} (hr : r < 4) : (invMixColumns s).byte (4 * c + r) = (invMixColumn (column s c)).byte r := by
    rw [← byte_column _ _ hr, column_invMixColumns s hc]
  exact ⟨hmix (r := 0) (by decide), hmix (by decide), hmix (by decide), hmix (by decide), hinv (r := 0) (by decide),
    hinv (by decide), hinv (by decide), hinv (by decide)⟩

/-! ## The block functions (R121, R125, R126) -/

/-- A round of R125 undoes the round of R121 with the same key, up to the last `SubBytes` and `ShiftRows`, which R125 undoes
at the start of its next round. -/
theorem decRound_encRound (rk s : Block) :
    decRound rk (shiftRows (subBytes (encRound rk s))) = shiftRows (subBytes s) := by
  simp [decRound, encRound]

theorem encRound_decRound (rk s : Block) :
    encRound rk (invSubBytes (invShiftRows (decRound rk s))) = invSubBytes (invShiftRows s) := by
  simp [decRound, encRound]

theorem decRounds_encRounds (ws : List Quad) (n : Nat) (s : Block) :
    decRounds ws n (shiftRows (subBytes (encRounds ws n s))) = shiftRows (subBytes s) := by
  induction n with
  | zero => rfl
  | succ n ih => rw [encRounds, decRounds, decRound_encRound, ih]

theorem encRounds_decRounds (ws : List Quad) (n : Nat) : ∀ s : Block,
    encRounds ws n (invSubBytes (invShiftRows (decRounds ws n s))) = invSubBytes (invShiftRows s) := by
  induction n with
  | zero => exact fun _ => rfl
  | succ n ih =>
    intro s
    rw [decRounds, encRounds, ih, encRound_decRound]

theorem aesDecBlock_aesEncBlock (k b : Block) : aesDecBlock k (aesEncBlock k b) = b := by
  simp [aesDecBlock, aesEncBlock, decRounds_encRounds]

theorem aesEncBlock_aesDecBlock (k b : Block) : aesEncBlock k (aesDecBlock k b) = b := by
  simp [aesDecBlock, aesEncBlock, encRounds_decRounds]

theorem aesEncBlock_bijective (k : Block) : Function.Bijective (aesEncBlock k) :=
  Function.bijective_iff_has_inverse.2 ⟨aesDecBlock k, aesDecBlock_aesEncBlock k, aesEncBlock_aesDecBlock k⟩

/-- The states between the rounds `n` down to 1 of R125, numbered by the round that made them. -/
theorem exists_decRounds_states (ws : List Quad) (n : Nat) : ∀ s : Block, ∃ y : Nat → Block, y (n + 1) = s ∧
    (∀ r, 1 ≤ r → r ≤ n → y r = decRound (roundKey ws r) (y (r + 1))) ∧ decRounds ws n s = y 1 := by
  induction n with
  | zero => exact fun s => ⟨fun _ => s, rfl, fun r h1 h0 => absurd h1 (by omega), rfl⟩
  | succ n ih =>
    intro s
    obtain ⟨y, htop, hround, hlast⟩ := ih (decRound (roundKey ws (n + 1)) s)
    have hbelow {r : Nat} (h : r ≤ n + 1) : Function.update y (n + 2) s r = y r := Function.update_of_ne (by omega) ..
    refine ⟨Function.update y (n + 2) s, Function.update_self .., fun r h1 hr => ?_, ?_⟩
    · rw [hbelow hr]
      obtain rfl | hlt := hr.eq_or_lt
      · rw [htop, Function.update_self]
      · rw [hround r h1 (by omega), hbelow (by omega)]
    · rw [hbelow (by omega), decRounds, hlast]

/-- Settles O38: the rounds of the model are the states asked for, and each direction undoes the other round by round. -/
theorem blockCipherDirectionsUndoEachOther : Obligations.BlockCipherDirectionsUndoEachOther := by
  refine ⟨fun k b => ⟨fun r => encRounds (keyWords k) r (addRoundKey b (roundKey (keyWords k) 0)), rfl, ?_, rfl⟩,
    fun k b => ?_, fun k => ⟨aesDecBlock_aesEncBlock k, aesEncBlock_aesDecBlock k, aesEncBlock_bijective k⟩,
    by decide +kernel⟩
  · intro r h1 _
    obtain ⟨n, rfl⟩ := Nat.exists_eq_add_of_le' h1
    rfl
  · obtain ⟨y, htop, hround, hlast⟩ := exists_decRounds_states (keyWords k) 9 (addRoundKey b (roundKey (keyWords k) 10))
    refine ⟨y, htop, hround, ?_⟩
    rw [aesDecBlock, hlast]

end Sys2Proof.Machine

/-! SUPPORT. The family of spec/44_ecb_sequencer.md: the functions `EcbEnc` (O39) and `EcbDec` (O40), and the commands
`ECBENC` (O41) and `ECBDEC` (O42), which do the same to `data()` in place. -/

namespace Sys2Proof.Machine

/-! ## Sequences of whole blocks (R140) -/

theorem byte_blockAt (d : List Byte) (j : Nat) {i : Nat} (h : i < 16) :
    (blockAt d j).byte i = d.getD (16 * j + i) 0x00#8 := Block.byte_make _ h

/-- An aligned sequence is given by its blocks. -/
theorem eq_of_blockAt_eq {d e : List Byte} (haligned : d.length % 16 = 0) (hlen : d.length = e.length)
    (h : ∀ j < d.length / 16, blockAt d j = blockAt e j) : d = e := by
  refine List.ext_getElem hlen fun i hd he => ?_
  have hbyte := congrArg (·.byte (i % 16)) (h (i / 16) (by omega))
  simp only [byte_blockAt _ _ (Nat.mod_lt i (by decide : 0 < 16)), Nat.div_add_mod] at hbyte
  rwa [List.getD_eq_getElem _ _ hd, List.getD_eq_getElem _ _ he] at hbyte

/-- The sequence of the blocks `b 0` to `b (n - 1)`. -/
def joinBlocks (b : Nat → Block) (n : Nat) : List Byte := (List.range n).flatMap fun j => (b j).bytes

theorem joinBlocks_succ (b : Nat → Block) (n : Nat) : joinBlocks b (n + 1) = joinBlocks b n ++ (b n).bytes := by
  simp [joinBlocks, List.range_succ]

theorem length_joinBlocks (b : Nat → Block) (n : Nat) : (joinBlocks b n).length = 16 * n := by
  simp [joinBlocks, Nat.mul_comm]

theorem getD_joinBlocks (b : Nat → Block) {n j i : Nat} (hj : j < n) (hi : i < 16) :
    (joinBlocks b n).getD (16 * j + i) 0x00#8 = (b j).byte i := by
  induction n with
  | zero => exact absurd hj (Nat.not_lt_zero j)
  | succ n ih =>
    have hlen := length_joinBlocks b n
    rw [joinBlocks_succ]
    obtain rfl | hlt := (Nat.le_of_lt_succ hj).eq_or_lt
    · rw [List.getD_append_right _ _ _ _ (by omega), hlen, Nat.add_sub_cancel_left, Block.getD_bytes]
    · rw [List.getD_append _ _ _ _ (by omega), ih hlt]

theorem blockAt_joinBlocks (b : Nat → Block) {n j : Nat} (hj : j < n) : blockAt (joinBlocks b n) j = b j :=
  Block.ext_byte fun _ hi => (byte_blockAt _ _ hi).trans (getD_joinBlocks b hj hi)

/-! ## Block by block (R140, R141, R145) -/

theorem ecbMap_eq_joinBlocks (f : Block → Block) (d : List Byte) :
    ecbMap f d = joinBlocks (fun j => f (blockAt d j)) (d.length / 16) := rfl

theorem length_ecbMap (f : Block → Block) {d : List Byte} (haligned : d.length % 16 = 0) :
    (ecbMap f d).length = d.length := by
  rw [ecbMap_eq_joinBlocks, length_joinBlocks]
  omega

theorem blockAt_ecbMap (f : Block → Block) (d : List Byte) {j : Nat} (hj : j < d.length / 16) :
    blockAt (ecbMap f d) j = f (blockAt d j) := blockAt_joinBlocks _ hj

/-- Block functions that undo each other do so block by block. -/
theorem ecbMap_ecbMap_of_leftInverse {f g : Block → Block} (hfg : Function.LeftInverse g f) {d : List Byte}
    (haligned : d.length % 16 = 0) : ecbMap g (ecbMap f d) = d := by
  have hlen := length_ecbMap f haligned
  have haligned' : (ecbMap f d).length % 16 = 0 := hlen ▸ haligned
  have hlen' := (length_ecbMap g haligned').trans hlen
  refine eq_of_blockAt_eq (hlen' ▸ haligned) hlen' fun j hj => ?_
  rw [hlen'] at hj
  rw [blockAt_ecbMap g _ (hlen ▸ hj), blockAt_ecbMap f d hj, hfg]

theorem ecbDec_ecbEnc (k : Block) {d : List Byte} (haligned : d.length % 16 = 0) : ecbDec k (ecbEnc k d) = d :=
  ecbMap_ecbMap_of_leftInverse (aesDecBlock_aesEncBlock k) haligned

theorem ecbEnc_ecbDec (k : Block) {d : List Byte} (haligned : d.length % 16 = 0) : ecbEnc k (ecbDec k d) = d :=
  ecbMap_ecbMap_of_leftInverse (aesEncBlock_aesDecBlock k) haligned

/-- Settles O39: equal blocks are encrypted to equal blocks because each is encrypted on its own. -/
theorem ecbWorksBlockByBlock : Obligations.EcbWorksBlockByBlock := by
  refine fun k d haligned => ⟨length_ecbMap _ haligned, fun j hj => blockAt_ecbMap _ d hj, fun e _ i hi j hj heq => ?_⟩
  calc blockAt (ecbEnc k d) i
    _ = aesEncBlock k (blockAt d i) := blockAt_ecbMap _ d hi
    _ = aesEncBlock k (blockAt e j) := by rw [heq]
    _ = blockAt (ecbEnc k e) j := (blockAt_ecbMap _ e hj).symm

/-- Settles O40, from the inverse laws of the block functions. -/
theorem ecbDirectionsUndoEachOther : Obligations.EcbDirectionsUndoEachOther :=
  fun k d haligned => ⟨fun _ hj => blockAt_ecbMap _ d hj, length_ecbMap _ haligned, ecbDec_ecbEnc k haligned,
    ecbEnc_ecbDec k haligned⟩

/-! ## The sequencer's walk in place (R142 to R144) -/

theorem readBlock_ecbInPlace (f : Block → Block) (s : State) {j : Nat} (hj : j < s.dlen / 16) :
    (ecbInPlace f s).dmem.readBlock j = f (s.dmem.readBlock j) := by
  refine Block.ext_byte fun i hi => ?_
  have hdiv : (16 * j + i) / 16 = j := by omega
  have hmod : (16 * j + i) % 16 = i := by omega
  rw [Memory.readBlock, Block.byte_make _ hi, read_ecbInPlace, if_pos (by omega), hdiv, hmod]

theorem read_ecbInPlace_of_dlen_le (f : Block → Block) (s : State) {a : Nat} (ha : s.dlen ≤ a) :
    (ecbInPlace f s).dmem.read a = s.dmem.read a := by
  rw [read_ecbInPlace, if_neg (by omega)]

theorem data_ecbInPlace (f : Block → Block) {s : State} (haligned : s.dlen % 16 = 0) :
    data (ecbInPlace f s) = ecbMap f (data s) := by
  have hlen : (data s).length = s.dlen := length_data s
  have hlen' : (data (ecbInPlace f s)).length = s.dlen := length_data _
  refine eq_of_blockAt_eq (hlen' ▸ haligned) ?_ fun j hj => ?_
  · rw [hlen', length_ecbMap f (hlen ▸ haligned), hlen]
  · rw [hlen'] at hj
    have hin : 16 * j + 16 ≤ s.dlen := by omega
    rw [← readBlock_eq_blockAt (ecbInPlace f s) hin, readBlock_ecbInPlace f s hj, readBlock_eq_blockAt s hin,
      blockAt_ecbMap f _ (hlen.symm ▸ hj)]

/-! ## `ECBENC` and `ECBDEC` (R142, R143) -/

theorem sequencerBody_of_unready (f : Block → Block → Block) {s : State}
    (hunready : s.kvalid = false ∨ s.dlen % 16 ≠ 0) : sequencerBody f s = withFault s 0x01#8 := if_pos hunready

theorem sequencerBody_of_ready (f : Block → Block → Block) {s : State} (hkey : s.kvalid = true)
    (haligned : s.dlen % 16 = 0) : sequencerBody f s = answerOK (ecbInPlace (f s.kreg) s) :=
  if_neg (by simp [hkey, haligned])

theorem exec_ecbenc_of_ready {s : State} (h : s.err = 0x00#8) (hkey : s.kvalid = true) (haligned : s.dlen % 16 = 0) :
    exec .ecbenc s = .next (answerOK (ecbInPlace (aesEncBlock s.kreg) s)) := by
  rw [exec_ok rfl h, sequencerBody_of_ready _ hkey haligned]

theorem exec_ecbdec_of_ready {s : State} (h : s.err = 0x00#8) (hkey : s.kvalid = true) (haligned : s.dlen % 16 = 0) :
    exec .ecbdec s = .next (answerOK (ecbInPlace (aesDecBlock s.kreg) s)) := by
  rw [exec_ok rfl h, sequencerBody_of_ready _ hkey haligned]

/-- `ECBENC` leaves a key and an aligned length, so `ECBDEC` can follow it, and restores the data (R143). -/
theorem ecbdec_restores_data_after_ecbenc {s : State} (h : s.err = 0x00#8) (hkey : s.kvalid = true)
    (haligned : s.dlen % 16 = 0) :
    ∃ u v, exec .ecbenc s = .next u ∧ exec .ecbdec u = .next v ∧ data v = data s := by
  refine ⟨_, _, exec_ecbenc_of_ready h hkey haligned, exec_ecbdec_of_ready h hkey haligned, ?_⟩
  calc data (ecbInPlace (aesDecBlock s.kreg) (ecbInPlace (aesEncBlock s.kreg) s))
    _ = ecbDec s.kreg (data (ecbInPlace (aesEncBlock s.kreg) s)) := data_ecbInPlace _ haligned
    _ = ecbDec s.kreg (ecbEnc s.kreg (data s)) := congrArg _ (data_ecbInPlace _ haligned)
    _ = data s := ecbDec_ecbEnc _ ((length_data s).symm ▸ haligned)

/-- Settles O41, by the two outcomes of the sequencer. -/
theorem ecbencEncryptsTheDataInPlace : Obligations.EcbencEncryptsTheDataInPlace := by
  refine ⟨rfl, ignoredWhenFaulted nofun nofun, fun s h => ⟨fun hunready => ?_, fun hkey haligned => ?_⟩⟩
  · rw [exec_ok rfl h, sequencerBody_of_unready _ hunready]
  · exact ⟨_, exec_ecbenc_of_ready h hkey haligned, data_ecbInPlace _ haligned, fun _ => readBlock_ecbInPlace _ s,
      fun _ => read_ecbInPlace_of_dlen_le _ s, rfl, rfl, ⟨rfl, rfl, rfl⟩, h, rfl, rfl, rfl⟩

/-- Settles O42, by the two outcomes of the sequencer, and the inverse law for `ECBENC` before it. -/
theorem ecbdecDecryptsTheDataInPlace : Obligations.EcbdecDecryptsTheDataInPlace := by
  refine ⟨rfl, ignoredWhenFaulted nofun nofun, fun s h => ⟨fun hunready => ?_, fun hkey haligned => ?_⟩⟩
  · rw [exec_ok rfl h, sequencerBody_of_unready _ hunready]
  · exact ⟨_, exec_ecbdec_of_ready h hkey haligned, data_ecbInPlace _ haligned, fun _ => readBlock_ecbInPlace _ s,
      fun _ => read_ecbInPlace_of_dlen_le _ s, rfl, rfl, ⟨rfl, rfl, rfl⟩, h, ⟨rfl, rfl, rfl⟩,
      ecbdec_restores_data_after_ecbenc h hkey haligned⟩

end Sys2Proof.Machine

/-! SUPPORT. The family of spec/45_encrypt_decrypt.md: the functions `Encrypt` and `Decrypt` (O45, O46), and the commands
`ENCRYPT` (O43) and `DECRYPT` (O44), which do the same to `data()` in place. -/

namespace Sys2Proof.Machine

/-! ## `Encrypt` (R150) -/

theorem encryptCall_of_nonempty {p key : List Byte} (hp : p ≠ []) (hkey : key ≠ []) :
    encryptCall p key = .bytes (ecbEnc (foldKey key) (pad p)) := if_neg (by simp [hp, hkey])

/-- Where `Encrypt` answers bytes, they are the encryption of the padded plaintext. -/
theorem eq_of_encryptCall {p key c : List Byte} (h : encryptCall p key = .bytes c) :
    c = ecbEnc (foldKey key) (pad p) := by
  rw [encryptCall] at h
  split at h <;> cases h
  rfl

/-- A padded sequence is made of whole blocks, one more than the plaintext has (R101). -/
theorem length_pad_eq_mul (d : List Byte) : (pad d).length = 16 * (d.length / 16 + 1) :=
  (length_pad d).trans (add_padLen d.length)

theorem aligned_pad (d : List Byte) : (pad d).length % 16 = 0 := by rw [length_pad_eq_mul, Nat.mul_mod_right]

theorem length_ecbEnc_pad (k : Block) (d : List Byte) : (ecbEnc k (pad d)).length = 16 * (d.length / 16 + 1) :=
  (length_ecbMap _ (aligned_pad d)).trans (length_pad_eq_mul d)

/-! ## `Decrypt` (R151) -/

theorem decryptCall_of_aligned {c key : List Byte} (hc : c ≠ []) (hkey : key ≠ []) (haligned : c.length % 16 = 0) :
    decryptCall c key = unpad (ecbDec (foldKey key) c) := if_neg (by simp [hc, hkey, haligned])

/-- Where `Decrypt` answers bytes, the ciphertext is aligned, and they are what `unpad` answers. -/
theorem unpad_of_decryptCall {c key d : List Byte} (h : decryptCall c key = .bytes d) :
    c.length % 16 = 0 ∧ unpad (ecbDec (foldKey key) c) = .bytes d := by
  rw [decryptCall] at h
  split at h
  · cases h
  · next hready => exact ⟨by omega, h⟩

/-- `unpad` drops as many bytes as the last byte says, at least one. -/
theorem length_of_unpad {d r : List Byte} (h : unpad d = .bytes r) :
    r.length + (lastByte d).toNat = d.length ∧ r.length < d.length := by
  obtain ⟨n, hpos, hle, rfl⟩ := (unpad_eq_bytes_iff d r).1 h
  have hn : (BitVec.ofNat 8 n).toNat = n := Nat.mod_eq_of_lt (by omega)
  rw [lastByte_append_replicate r _ hpos, hn, List.length_append, List.length_replicate]
  omega

/-- Settles O45: the cipher keeps the length of what `pad` made, and of what `unpad` gets. -/
theorem resultLengths : Obligations.ResultLengths := by
  refine ⟨fun p key c hc => ?encrypt, fun c key d hd => ?decrypt⟩
  case encrypt =>
    have hlen := length_ecbEnc_pad (foldKey key) p
    rw [← eq_of_encryptCall hc] at hlen
    omega
  case decrypt =>
    obtain ⟨haligned, hunpad⟩ := unpad_of_decryptCall hd
    have hlen : (ecbDec (foldKey key) c).length = c.length := length_ecbMap _ haligned
    have hdrop := length_of_unpad hunpad
    rwa [lastByte, hlen] at hdrop

/-- Settles O46: each of the two stages of `Decrypt` undoes one of `Encrypt`'s. -/
theorem decryptUndoesEncrypt : Obligations.DecryptUndoesEncrypt := by
  refine fun p key hp hkey => ⟨ecbEnc (foldKey key) (pad p), encryptCall_of_nonempty hp hkey, ?_⟩
  have hlen := length_ecbEnc_pad (foldKey key) p
  have hne : ecbEnc (foldKey key) (pad p) ≠ [] := List.ne_nil_of_length_pos (by omega)
  calc decryptCall (ecbEnc (foldKey key) (pad p)) key
    _ = unpad (ecbDec (foldKey key) (ecbEnc (foldKey key) (pad p))) := decryptCall_of_aligned hne hkey (by omega)
    _ = unpad (pad p) := congrArg unpad (ecbDec_ecbEnc _ (aligned_pad p))
    _ = .bytes p := unpad_pad p

/-! ## `ENCRYPT` (R152) -/

theorem data_ne_nil {s : State} (h : s.dlen ≠ 0) : data s ≠ [] := fun hnil => h (by rw [← length_data, hnil]; rfl)

/-- The state after an `ENCRYPT` that raises no fault. -/
def encrypted (s : State) : State := answerOK (ecbInPlace (aesEncBlock s.kreg) (padInPlace s))

theorem encryptBody_of_unready {s : State} (hunready : s.dlen = 0 ∨ s.kvalid = false) :
    encryptBody s = withFault s 0x01#8 := if_pos hunready

theorem encryptBody_of_full {s : State} (hlen : s.dlen ≠ 0) (hkey : s.kvalid = true)
    (hfull : s.cfg.dcap = some s.dlen) : encryptBody s = withFault s 0x08#8 :=
  (if_neg (by simp [hlen, hkey])).trans (if_pos ((bufferFull_iff s).2 hfull))

theorem encryptBody_of_room {s : State} (hlen : s.dlen ≠ 0) (hkey : s.kvalid = true)
    (hroom : s.cfg.dcap ≠ some s.dlen) : encryptBody s = encrypted s := by
  simpa [hlen, hkey, hroom, encrypted] using encryptBody_cases s

theorem err_encrypted (s : State) : (encrypted s).err = s.err := by simp [encrypted]

theorem sameKey_encrypted (s : State) : SameKey s (encrypted s) := by simp [SameKey, encrypted]

theorem answered_encrypted (s : State) : Answered s (encrypted s) 0x0000#16 :=
  ⟨rfl, by simp [encrypted], by simp [encrypted]⟩

theorem dlen_encrypted (s : State) : (encrypted s).dlen = 16 * (s.dlen / 16 + 1) := add_padLen s.dlen

theorem aligned_padInPlace (s : State) : (padInPlace s).dlen % 16 = 0 := by
  rw [padInPlace_dlen, add_padLen, Nat.mul_mod_right]

theorem data_encrypted (s : State) : data (encrypted s) = ecbEnc s.kreg (pad (data s)) := by
  rw [← data_padInPlace]
  exact data_ecbInPlace _ (aligned_padInPlace s)

/-- `ENCRYPT` stores only below the new `DLEN` (R152). -/
theorem read_encrypted_of_dlen_le (s : State) {a : Nat} (ha : (encrypted s).dlen ≤ a) :
    (encrypted s).dmem.read a = s.dmem.read a := by
  have hpadded : s.dlen + padLen s.dlen ≤ a := ha
  exact (read_ecbInPlace_of_dlen_le _ (padInPlace s) ha).trans (by rw [read_padInPlace, if_neg (by omega)])

/-- After `ENCRYPT` the buffer is not empty, its length is a multiple of 16, and its first byte is still to be read. -/
theorem flags_encrypted (s : State) : (flags (encrypted s)).getLsbD 1 = true ∧
    (flags (encrypted s)).getLsbD 2 = true ∧ (flags (encrypted s)).getLsbD 3 = true := by
  have hrptr : (encrypted s).rptr = 0 := rfl
  obtain ⟨-, hDNE, hALN, hRAV, -⟩ := flags_bits (encrypted s)
  rw [hDNE, hALN, hRAV, flagDNE, flagALN, flagRAV, hrptr, dlen_encrypted]
  simp

/-- `ENCRYPT` is `PAD` then `ECBENC`, but for the one response of each (R152). -/
theorem encrypted_eq_pad_ecbenc {s : State} (h : s.err = 0x00#8) (hkey : s.kvalid = true)
    (hroom : s.cfg.dcap ≠ some s.dlen) : ∃ u v, exec .pad s = .next u ∧ exec .ecbenc u = .next v ∧
      { v with responses := (encrypted s).responses } = encrypted s := by
  refine ⟨answerOK (padInPlace s), _, ?_, exec_ecbenc_of_ready h hkey (aligned_padInPlace s), rfl⟩
  rw [exec_ok rfl h, padBody_of_room hroom]

/-- Settles O43, by the three outcomes of `ENCRYPT`. -/
theorem encryptCommandComputesEncrypt : Obligations.EncryptCommandComputesEncrypt := by
  refine ⟨rfl, ignoredWhenFaulted nofun nofun, fun s h => ⟨fun hunready => ?unready, fun hlen hkey hfull => ?full,
    fun hlen hkey hroom => ?room⟩⟩
  case unready => rw [exec_ok rfl h, encryptBody_of_unready hunready]
  case full => rw [exec_ok rfl h, encryptBody_of_full hlen hkey hfull]
  case room =>
    obtain ⟨hDNE, hALN, hRAV⟩ := flags_encrypted s
    refine ⟨encrypted s, ?_, dlen_encrypted s, data_encrypted s, fun _ => read_encrypted_of_dlen_le s, rfl,
      sameKey_encrypted s, (err_encrypted s).trans h, answered_encrypted s, hDNE, hALN, hRAV, fun key hne hfold => ?_,
      encrypted_eq_pad_ecbenc h hkey hroom⟩
    · rw [exec_ok rfl h, encryptBody_of_room hlen hkey hroom]
    · rw [encryptCall_of_nonempty (data_ne_nil hlen) hne, hfold, data_encrypted]

/-! ## `DECRYPT` (R153) -/

/-- The state in which `DECRYPT` has decrypted the blocks and has the padding still to test. -/
def decryptedBlocks (s : State) : State := ecbInPlace (aesDecBlock s.kreg) s

theorem decryptBody_of_unready {s : State} (hunready : s.dlen = 0 ∨ s.kvalid = false ∨ s.dlen % 16 ≠ 0) :
    decryptBody s = withFault s 0x01#8 := if_pos hunready

theorem decryptBody_of_ready {s : State} (hlen : s.dlen ≠ 0) (hkey : s.kvalid = true) (haligned : s.dlen % 16 = 0) :
    decryptBody s = unpadInPlace (decryptedBlocks s) := by
  simpa [hlen, hkey, haligned, decryptedBlocks] using decryptBody_cases s

theorem data_decryptedBlocks {s : State} (haligned : s.dlen % 16 = 0) :
    data (decryptedBlocks s) = ecbDec s.kreg (data s) := data_ecbInPlace _ haligned

/-- `UNPAD` writes no byte, whether it raises the fault or not (R105). -/
theorem unpadInPlace_dmem (s : State) : (unpadInPlace s).dmem = s.dmem := by
  obtain ⟨-, h⟩ | ⟨p, -, h⟩ := unpadInPlace_cases s <;> rw [h] <;> rfl

/-- `UNPAD` resets `RPTR` or leaves it alone, so a zero `RPTR` stays zero. -/
theorem unpadInPlace_rptr {s : State} (h : s.rptr = 0) : (unpadInPlace s).rptr = 0 := by
  obtain ⟨-, hs⟩ | ⟨p, -, hs⟩ := unpadInPlace_cases s <;> rw [hs]
  · exact h
  · rfl

/-- `UNPAD` does not look at the responses given before it. -/
theorem unpadInPlace_answerOK (s : State) :
    { unpadInPlace (answerOK s) with responses := (unpadInPlace s).responses } = unpadInPlace s := by
  rw [unpadInPlace, unpadInPlace, answerOK_dmem, answerOK_dlen]
  cases trailer s.dmem s.dlen <;> rfl

/-- A good trailer is dropped from the length: its last byte says how many bytes (R105). -/
theorem unpadInPlace_dlen_of_not_badTrailer {s : State} (h : ¬ BadTrailer (data s)) :
    (unpadInPlace s).dlen + (s.dmem.read (s.dlen - 1)).toNat = s.dlen := by
  obtain ⟨hlen, -, hle, -⟩ := (not_badTrailer_iff _).1 h
  rw [length_data] at hlen hle
  rw [unpadInPlace_of_not_badTrailer h, ← lastByte_data hlen]
  exact Nat.sub_add_cancel hle

/-- In place, `UNPAD` computes `unpad`, and tells its outcome by `ERR`. -/
theorem unpad_data_eq {s : State} (h : s.err = 0x00#8) : unpad (data s) =
    if (unpadInPlace s).err = 0x00#8 then .bytes (data (unpadInPlace s)) else .error .invalidPadding := by
  by_cases hbad : BadTrailer (data s)
  · rw [unpad_of_badTrailer hbad, unpadInPlace_of_badTrailer hbad]
    exact (if_neg (by decide : ¬ (0x02#8 : Byte) = 0x00#8)).symm
  · rw [unpad_of_not_badTrailer hbad, length_data, ← data_setDlen_of_le (Nat.sub_le ..),
      unpadInPlace_of_not_badTrailer hbad]
    exact (if_pos h).symm

theorem decryptCall_data {s : State} (h : s.err = 0x00#8) (hlen : s.dlen ≠ 0) (haligned : s.dlen % 16 = 0)
    {key : List Byte} (hkey : key ≠ []) (hfold : foldKey key = s.kreg) :
    decryptCall (data s) key = if (unpadInPlace (decryptedBlocks s)).err = 0x00#8
      then .bytes (data (unpadInPlace (decryptedBlocks s))) else .error .invalidPadding := by
  rw [decryptCall_of_aligned (data_ne_nil hlen) hkey (by rwa [length_data]), hfold, ← data_decryptedBlocks haligned]
  exact unpad_data_eq h

/-- `DECRYPT` is `ECBDEC` then `UNPAD`, but for the one response of each (R153). -/
theorem decrypted_eq_ecbdec_unpad {s : State} (h : s.err = 0x00#8) (hkey : s.kvalid = true)
    (haligned : s.dlen % 16 = 0) : ∃ u v, exec .ecbdec s = .next u ∧ exec .unpad u = .next v ∧
      { v with responses := (unpadInPlace (decryptedBlocks s)).responses } = unpadInPlace (decryptedBlocks s) :=
  ⟨answerOK (decryptedBlocks s), _, exec_ecbdec_of_ready h hkey haligned, exec_ok rfl h, unpadInPlace_answerOK _⟩

/-- Settles O44: the fault before anything is changed, or the two outcomes of `UNPAD` on the decrypted blocks. -/
theorem decryptCommandComputesDecrypt : Obligations.DecryptCommandComputesDecrypt := by
  refine ⟨rfl, ignoredWhenFaulted nofun nofun, fun s h => ⟨fun hunready => ?unready, fun hlen hkey haligned => ?ready⟩⟩
  case unready => rw [exec_ok rfl h, decryptBody_of_unready hunready]
  case ready =>
    rw [exec_ok rfl h, decryptBody_of_ready hlen hkey haligned, ← data_decryptedBlocks haligned]
    refine ⟨_, rfl, unpadInPlace_rptr rfl, sameKey_unpadInPlace (decryptedBlocks s), ?_, fun a ha => ?_,
      fun hbad => ?_, fun hgood => ⟨?_, ?_, ?_⟩, fun _ => decryptCall_data h hlen haligned,
      decrypted_eq_ecbdec_unpad h hkey haligned⟩
    · rw [unpadInPlace_dmem]
      rfl
    · rw [unpadInPlace_dmem]
      exact read_ecbInPlace_of_dlen_le _ s ha
    · rw [unpadInPlace_of_badTrailer hbad]
      exact ⟨rfl, rfl, rfl, rfl, rfl⟩
    · rw [unpadInPlace_of_not_badTrailer hgood]
      exact h
    · rw [unpadInPlace_of_not_badTrailer hgood]
      exact ⟨rfl, rfl, rfl⟩
    · rw [unpadInPlace_dmem]
      exact unpadInPlace_dlen_of_not_badTrailer hgood

end Sys2Proof.Machine

/-! SUPPORT. The family of spec/46_control.md: the commands `NOP` (O13), `RST` (O14) and `STAT` (O15). -/

namespace Sys2Proof.Machine

/-! ## `NOP` (R165) -/

/-- A command that succeeds without a byte to return gives `OK` with data 0x00 (R64). -/
theorem answerOK_eq_withResponse (s : State) : answerOK s = withResponse s 0x0000#16 := rfl

/-- Settles O13: the all-zero word is the word of `NOP`, and the opcode of the all-ones word is not in the map. -/
theorem nopOnlyAnswers : Obligations.NopOnlyAnswers := by
  refine ⟨rfl, fun s h => ?_, ignoredWhenFaulted nofun nofun, decode_encode .nop, .unassignedOpcode, ?_⟩
  · rw [exec_ok rfl h, answerOK_eq_withResponse]
  · rw [decode_eq_unassignedOpcode_iff]
    decide

/-! ## `RST` (R166) -/

theorem exec_rst (s : State) : exec .rst s = .next (withResponse (wipe s) 0x0000#16) := exec_eq .rst s

/-- The wipe leaves only the two ports of the host, so a second one finds nothing to change. -/
theorem wipe_withResponse_wipe (s : State) (r : ResponseWord) :
    wipe (withResponse (wipe s) r) = withResponse (wipe s) r := rfl

/-- The flag byte of an empty buffer and an empty key has `ALN` only (R29). -/
theorem flags_of_wipedClean {t : State} (h : WipedClean t) : flags t = 0x04#8 := by
  obtain ⟨-, hkidx, hkvalid, -, hdlen, hrptr, -⟩ := h
  simp [flags, flagBit, flagDNE, flagALN, flagRAV, hkidx, hkvalid, hdlen, hrptr]

theorem rst_mem_noOperandOpcodes : 0x01#8 ∈ noOperandOpcodes := by decide

/-- `RST` with an operand is a reserved word (R67), not a reset. -/
theorem decode_rst_operand {xx : Byte} (h : xx ≠ 0x00#8) : decode (wordOf 0x01#8 xx) = .reserved .operandNotZero := by
  obtain ⟨hopc, hopd⟩ := Sys2Proof.Laws.Fields.fields_wordOf 0x01#8 xx
  rw [decode_eq_operandNotZero_iff, hopc, hopd]
  exact ⟨rst_mem_noOperandOpcodes, h⟩

/-- Settles O14: the wipe gives R33's values from every state, and wiping again changes nothing. -/
theorem rstWipesAllStateInEveryState : Obligations.RstWipesAllStateInEveryState := by
  refine ⟨rfl, fun s => ?_, fun xx h => ⟨.operandNotZero, decode_rst_operand h⟩⟩
  have hclean : WipedClean (withResponse (wipe s) 0x0000#16) := wipedClean_wipe s
  refine ⟨_, exec_rst s, hclean, ⟨rfl, rfl, rfl⟩, flags_of_wipedClean hclean, ?_⟩
  rw [exec_rst, wipe_withResponse_wipe]

/-! ## `STAT` (R167) -/

/-- `STAT` does not test for the faulted state. -/
theorem exec_stat (s : State) : exec .stat s = .next (withResponse s (s.err ++ flags s)) := exec_eq .stat s

/-- Settles O15: the answer after reset follows from the reset values of `ERR` and the flag byte. -/
theorem statReportsErrAndFlags : Obligations.StatReportsErrAndFlags := by
  refine ⟨rfl, exec_stat, fun c => ?_⟩
  rw [exec_stat, flags_of_wipedClean (wipedClean_resetOf c), resetOf_err]
  rfl

end Sys2Proof.Machine

/-! SUPPORT. The family of spec/60_exceptions.md: the exact causes of the faults that commands raise (O48, O49, O50),
fault entry (O51), and the faulted state with the way out of it (O52, O53). -/

namespace Sys2Proof.Machine

/-! ## The faults that commands raise (R191, R192, R195) -/

/-- The causes of a fault: in the non-faulted state `s` the command raises a fault of that kind. -/
inductive Raises (s : State) : Instr → FaultKind → Prop where
  | encryptUnready (hunready : s.dlen = 0 ∨ s.kvalid = false) : Raises s .encrypt .invalidInput
  | decryptUnready (hunready : s.dlen = 0 ∨ s.kvalid = false ∨ s.dlen % 16 ≠ 0) : Raises s .decrypt .invalidInput
  | ecbencUnready (hunready : s.kvalid = false ∨ s.dlen % 16 ≠ 0) : Raises s .ecbenc .invalidInput
  | ecbdecUnready (hunready : s.kvalid = false ∨ s.dlen % 16 ≠ 0) : Raises s .ecbdec .invalidInput
  | unpadBad (hbad : BadTrailer (data s)) : Raises s .unpad .invalidPadding
  | decryptBad (hlen : s.dlen ≠ 0) (hkey : s.kvalid = true) (haligned : s.dlen % 16 = 0)
      (hbad : BadTrailer (ecbDec s.kreg (data s))) : Raises s .decrypt .invalidPadding
  | dpushFull (b : Byte) (hfull : s.cfg.dcap = some s.dlen) : Raises s (.dpush b) .bufferOverflow
  | padFull (hfull : s.cfg.dcap = some s.dlen) : Raises s .pad .bufferOverflow
  | encryptFull (hlen : s.dlen ≠ 0) (hkey : s.kvalid = true) (hfull : s.cfg.dcap = some s.dlen) :
      Raises s .encrypt .bufferOverflow

/-- A command that raises a fault only enters it; but `DECRYPT` has decrypted the blocks when it finds the trailer bad
(R198). -/
theorem afterCommand_of_raises {i : Instr} {k : FaultKind} {s : State} (h : s.err = 0x00#8) (hr : Raises s i k) :
    afterCommand i s = withFault s k.code ∨ (i = .decrypt ∧ k = .invalidPadding ∧ s.dlen % 16 = 0 ∧
      afterCommand i s = withFault (decryptedBlocks s) k.code) := by
  cases hr with
  | encryptUnready hunready => exact .inl ((afterCommand_ok rfl h).trans (encryptBody_of_unready hunready))
  | decryptUnready hunready => exact .inl ((afterCommand_ok rfl h).trans (decryptBody_of_unready hunready))
  | ecbencUnready hunready => exact .inl ((afterCommand_ok rfl h).trans (sequencerBody_of_unready _ hunready))
  | ecbdecUnready hunready => exact .inl ((afterCommand_ok rfl h).trans (sequencerBody_of_unready _ hunready))
  | unpadBad hbad => exact .inl ((afterCommand_ok rfl h).trans (unpadInPlace_of_badTrailer hbad))
  | decryptBad hlen hkey haligned hbad =>
    rw [← data_decryptedBlocks haligned] at hbad
    refine .inr ⟨rfl, rfl, haligned, (afterCommand_ok rfl h).trans ?_⟩
    rw [decryptBody_of_ready hlen hkey haligned, unpadInPlace_of_badTrailer hbad]
    rfl
  | dpushFull b hfull => exact .inl ((afterCommand_ok rfl h).trans (dpushBody_of_full b hfull))
  | padFull hfull => exact .inl ((afterCommand_ok rfl h).trans (padBody_of_full hfull))
  | encryptFull hlen hkey hfull =>
    exact .inl ((afterCommand_ok rfl h).trans (encryptBody_of_full hlen hkey hfull))

theorem err_of_raises {i : Instr} {k : FaultKind} {s : State} (h : s.err = 0x00#8) (hr : Raises s i k) :
    (afterCommand i s).err = k.code := by
  obtain hs | ⟨-, -, -, hs⟩ := afterCommand_of_raises h hr <;> rw [hs] <;> rfl

/-- Without a cause the unpadding keeps `ERR`. -/
theorem unpadInPlace_err_of_not_badTrailer {s : State} (hgood : ¬ BadTrailer (data s)) :
    (unpadInPlace s).err = s.err := by
  rw [unpadInPlace_of_not_badTrailer hgood]
  rfl

/-- `Raises` names every cause: a command in the non-faulted state raises a fault or leaves `ERR` 0x00. -/
theorem raises_or_err_eq_zero (i : Instr) {s : State} (h : s.err = 0x00#8) :
    (∃ k, Raises s i k) ∨ (afterCommand i s).err = 0x00#8 := by
  cases i with
  | rst => exact .inr rfl
  | stat => exact .inr h
  | nop | rdlen | kclr | kpush | dclr =>
    right
    rw [afterCommand_ok rfl h]
    exact h
  | dpop =>
    right
    rw [afterCommand_ok rfl h]
    obtain ⟨-, hs⟩ | ⟨-, hs⟩ := dpopBody_cases s <;> rw [hs] <;> exact h
  | dpush b =>
    rw [afterCommand_ok rfl h]
    obtain ⟨hfull, -⟩ | ⟨-, hs⟩ := dpushBody_cases b s
    · exact .inl ⟨_, .dpushFull b hfull⟩
    · exact .inr (hs ▸ h)
  | pad =>
    rw [afterCommand_ok rfl h]
    obtain ⟨hfull, -⟩ | ⟨-, hs⟩ := padBody_cases s
    · exact .inl ⟨_, .padFull hfull⟩
    · exact .inr (hs ▸ h)
  | unpad =>
    rw [afterCommand_ok rfl h]
    by_cases hbad : BadTrailer (data s)
    · exact .inl ⟨_, .unpadBad hbad⟩
    · exact .inr ((unpadInPlace_err_of_not_badTrailer hbad).trans h)
  | ecbenc =>
    rw [afterCommand_ok rfl h]
    obtain ⟨hunready, -⟩ | ⟨-, -, hs⟩ := sequencerBody_cases aesEncBlock s
    · exact .inl ⟨_, .ecbencUnready hunready⟩
    · exact .inr (hs ▸ h)
  | ecbdec =>
    rw [afterCommand_ok rfl h]
    obtain ⟨hunready, -⟩ | ⟨-, -, hs⟩ := sequencerBody_cases aesDecBlock s
    · exact .inl ⟨_, .ecbdecUnready hunready⟩
    · exact .inr (hs ▸ h)
  | encrypt =>
    rw [afterCommand_ok rfl h]
    obtain ⟨hunready, -⟩ | ⟨hlen, hkey, hfull, -⟩ | ⟨-, -, -, hs⟩ := encryptBody_cases s
    · exact .inl ⟨_, .encryptUnready hunready⟩
    · exact .inl ⟨_, .encryptFull hlen hkey hfull⟩
    · exact .inr (hs ▸ h)
  | decrypt =>
    rw [afterCommand_ok rfl h]
    obtain ⟨hunready, -⟩ | ⟨hlen, hkey, haligned, hs⟩ := decryptBody_cases s
    · exact .inl ⟨_, .decryptUnready hunready⟩
    · by_cases hbad : BadTrailer (ecbDec s.kreg (data s))
      · exact .inl ⟨_, .decryptBad hlen hkey haligned hbad⟩
      · rw [← data_decryptedBlocks haligned] at hbad
        exact .inr (hs ▸ (unpadInPlace_err_of_not_badTrailer hbad).trans h)

theorem code_injective : Function.Injective FaultKind.code := by
  intro j k h
  cases j <;> cases k <;> simp [FaultKind.code] at h ⊢

/-- `ERR` after a command in the non-faulted state tells which fault it raised. -/
theorem err_eq_code_iff {i : Instr} {s t : State} (h : s.err = 0x00#8) (ht : exec i s = .next t) (k : FaultKind) :
    t.err = k.code ↔ Raises s i k := by
  obtain rfl : afterCommand i s = t := by simpa [exec_eq] using ht
  refine ⟨fun herr => ?_, err_of_raises h⟩
  obtain ⟨j, hj⟩ | hzero := raises_or_err_eq_zero i h
  · obtain rfl : j = k := code_injective ((err_of_raises h hj).symm.trans herr)
    exact hj
  · exact absurd (herr.symm.trans hzero) (by simp)

/-- Settles O48: the four commands that raise `InvalidInput`. -/
theorem invalidInputExactCauses : Obligations.InvalidInputExactCauses := by
  refine fun i s t h ht => (err_eq_code_iff h ht .invalidInput).trans ⟨fun hr => ?_, ?_⟩
  · cases hr with
    | encryptUnready hunready => exact .inl ⟨rfl, hunready⟩
    | decryptUnready hunready => exact .inr (.inl ⟨rfl, hunready⟩)
    | ecbencUnready hunready => exact .inr (.inr ⟨.inl rfl, hunready⟩)
    | ecbdecUnready hunready => exact .inr (.inr ⟨.inr rfl, hunready⟩)
  · rintro (⟨rfl, hunready⟩ | ⟨rfl, hunready⟩ | ⟨rfl | rfl, hunready⟩)
    · exact .encryptUnready hunready
    · exact .decryptUnready hunready
    · exact .ecbencUnready hunready
    · exact .ecbdecUnready hunready

/-- Settles O49: the two commands that raise `InvalidPadding`. -/
theorem invalidPaddingExactCauses : Obligations.InvalidPaddingExactCauses := by
  refine fun i s t h ht => (err_eq_code_iff h ht .invalidPadding).trans ⟨fun hr => ?_, ?_⟩
  · cases hr with
    | unpadBad hbad => exact .inl ⟨rfl, hbad⟩
    | decryptBad hlen hkey haligned hbad => exact .inr ⟨rfl, hlen, hkey, haligned, hbad⟩
  · rintro (⟨rfl, hbad⟩ | ⟨rfl, hlen, hkey, haligned, hbad⟩)
    · exact .unpadBad hbad
    · exact .decryptBad hlen hkey haligned hbad

/-- Settles O50: the three commands that raise `BufferOverflow`. -/
theorem bufferOverflowExactCauses : Obligations.BufferOverflowExactCauses := by
  refine fun i s t h ht => (err_eq_code_iff h ht .bufferOverflow).trans ⟨fun hr => ?_, ?_⟩
  · cases hr with
    | dpushFull b hfull => exact .inl ⟨⟨b, rfl⟩, hfull⟩
    | padFull hfull => exact .inr (.inl ⟨rfl, hfull⟩)
    | encryptFull hlen hkey hfull => exact .inr (.inr ⟨rfl, hlen, hkey, hfull⟩)
  · rintro (⟨⟨b, rfl⟩, hfull⟩ | ⟨rfl, hfull⟩ | ⟨rfl, hlen, hkey, hfull⟩)
    · exact .dpushFull b hfull
    · exact .padFull hfull
    · exact .encryptFull hlen hkey hfull

/-! ## Fault entry (R198) -/

/-- Settles O51: a reserved word only enters the fault, a command does what `afterCommand_of_raises` says. -/
theorem faultEntryChangesOnlyErr : Obligations.FaultEntryChangesOnlyErr := by
  intro s t w rest hin h hstep hne
  cases hd : decode w with
  | reserved why =>
    obtain rfl : withFault (setInputs rest s) 0x09#8 = t := by simpa [step_reserved_ok hin hd h] using hstep
    exact ⟨rfl, .inl rfl⟩
  | command i =>
    obtain rfl : afterCommand i (setInputs rest s) = t := by simpa [step_command hin hd] using hstep
    have hok : (setInputs rest s).err = 0x00#8 := h
    obtain ⟨k, hk⟩ := (raises_or_err_eq_zero i hok).resolve_right hne
    obtain hs | ⟨rfl, rfl, haligned, hs⟩ := afterCommand_of_raises hok hk
    · rw [hs]
      exact ⟨rfl, .inl rfl⟩
    · rw [hs]
      have hw : w = 0x5100#16 := (encode_of_decode hd).symm
      exact ⟨rfl, .inr ⟨hw, rfl, rfl, data_decryptedBlocks haligned, fun _ => read_ecbInPlace_of_dlen_le _ _⟩⟩

/-! ## The faulted state (R199, R200) -/

theorem step_rst {s : State} {rest : List HostInput} (h : s.inputs = .command 0x0100#16 :: rest) :
    step s = .next (answerOK (wipe (setInputs rest s))) := step_command h (decode_encode .rst)

theorem step_stat {s : State} {rest : List HostInput} (h : s.inputs = .command 0x0200#16 :: rest) :
    step s = .next (withResponse (setInputs rest s) (s.err ++ flags s)) := step_command h (decode_encode .stat)

/-- Every word but those of `RST` and `STAT`, reserved words too, is ignored in the faulted state (R199). -/
theorem step_ignored {s : State} {w : CommandWord} {rest : List HostInput} (hin : s.inputs = .command w :: rest)
    (h : s.err ≠ 0x00#8) (hrst : w ≠ 0x0100#16) (hstat : w ≠ 0x0200#16) :
    step s = .next (ignoreWord (setInputs rest s)) := by
  have hfaulted : (setInputs rest s).err ≠ 0x00#8 := h
  cases hd : decode w with
  | reserved why => rw [step_reserved hin hd, reservedWord_faulted hfaulted]
  | command i =>
    have hword : encode i = w := encode_of_decode hd
    have hr : i ≠ .rst := fun hi => hrst (hword.symm.trans (congrArg encode hi))
    have hs : i ≠ .stat := fun hi => hstat (hword.symm.trans (congrArg encode hi))
    rw [step_command hin hd, afterCommand_faulted hr hs hfaulted]

/-- Settles O52: `STAT` answers with the flag byte, every other word is ignored. -/
theorem faultedStateIgnoresEveryWordButRst : Obligations.FaultedStateIgnoresEveryWordButRst := by
  intro s w rest hin h hrst
  by_cases hw : w = 0x0200#16
  · subst hw
    exact step_stat hin
  · rw [step_ignored hin h hrst hw, if_neg hw]
    rfl

/-- Settles O53: with `ERR` not 0x00 only a reset writes `ERR` (O54), and both resets wipe. -/
theorem onlyResetLeavesTheFaultedState : Obligations.OnlyResetLeavesTheFaultedState := by
  intro s t h hstep hne
  obtain ⟨hzero, -⟩ | ⟨-, x, rest, hin, hx⟩ := errIsWrittenOnlyByFaultsAndResets s t hstep hne
  · exact absurd hzero h
  · refine ⟨?_, x, rest, hin, hx⟩
    obtain rfl | ⟨a, rfl⟩ := hx
    · obtain rfl : answerOK (wipe (setInputs rest s)) = t := by simpa [step_rst hin] using hstep
      exact wipedClean_wipe (setInputs rest s)
    · obtain rfl : wipe (setInputs rest s) = t := by simpa [step_reset hin] using hstep
      exact wipedClean_wipe (setInputs rest s)

end Sys2Proof.Machine

/-! SUPPORT. The family of spec/70_reset_and_hazards.md: the two resets have the same effect (O11). -/

namespace Sys2Proof.Machine

/-- `RST` in the place of the host's next input: the wipe of the same state, and its answer. -/
theorem step_rst_in_place (s : State) (rest : List HostInput) :
    step { s with inputs := .command 0x0100#16 :: rest } =
      .next (withResponse (wipe (setInputs rest s)) 0x0000#16) :=
  (step_rst rfl).trans (congrArg _ (answerOK_eq_withResponse (wipe (setInputs rest s))))

/-- Settles O11: both steps wipe the state whose inputs are the rest, and only `RST` answers. -/
theorem hardwareResetAndRstLeaveTheSameState : Obligations.HardwareResetAndRstLeaveTheSameState := by
  intro s rest a hin
  exact ⟨wipe (setInputs rest s), step_reset hin, wipedClean_wipe (setInputs rest s), rfl, step_rst_in_place s rest⟩

end Sys2Proof.Machine

/-! SUPPORT. Whole-machine rules: decoding and encoding as one relation (O1, O4), what one step and a list of words do
(O5, O6, O7, O12), and the invariant of spec/10_state.md R30 (O9, O10). -/

namespace Sys2Proof.Machine

/-! ## Decoding and encoding (R61, R63) -/

/-- Every operand is a byte by its type (R62), so every command is well formed. -/
theorem wellFormed_eq_true (i : Instr) : i.wellFormed = true := by cases i <;> rfl

/-- Settles O1, from the two directions of the opcode map. -/
theorem decodeAndEncodeAgree : Obligations.DecodeAndEncodeAgree :=
  ⟨fun i _ => decode_encode i, fun _ i h => ⟨wellFormed_eq_true i, encode_of_decode h⟩⟩

/-- Settles O4: seven words are those of their commands, and of the two others one has the opcode of `RST` with an
operand, one an opcode that is not in the map. -/
theorem wordsOfEachFamilyDecode : Obligations.WordsOfEachFamilyDecode := by
  refine ⟨decode_encode .nop, decode_encode (.rdlen 0x02#8), decode_encode (.kpush 0x6D#8),
    decode_encode (.dpush 0x48#8), decode_encode .unpad, decode_encode .ecbenc, decode_encode .decrypt,
    decode_rst_operand (xx := 0x01#8) (by decide), ?_⟩
  rw [decode_eq_unassignedOpcode_iff]
  decide

/-! ## One step (R66) -/

/-- The state after a command word: that of its command, or of a reserved encoding. -/
def afterWord (w : CommandWord) (s : State) : State :=
  match decode w with
  | .command i => afterCommand i s
  | .reserved _ => reservedWord s

theorem afterWord_of_command {w : CommandWord} {i : Instr} (h : decode w = .command i) (s : State) :
    afterWord w s = afterCommand i s := by rw [afterWord, h]

theorem afterWord_of_reserved {w : CommandWord} {why : ReservedWhy} (h : decode w = .reserved why) (s : State) :
    afterWord w s = reservedWord s := by rw [afterWord, h]

/-- What holds of every command and of a reserved encoding holds of every word. -/
theorem afterWord_induction {P : (State → State) → Prop} (hcommand : ∀ i, P (afterCommand i))
    (hreserved : P reservedWord) (w : CommandWord) : P (afterWord w) := by
  cases hd : decode w with
  | command i =>
    have hw : afterWord w = afterCommand i := funext (afterWord_of_command hd)
    exact hw ▸ hcommand i
  | reserved why =>
    have hw : afterWord w = reservedWord := funext (afterWord_of_reserved hd)
    exact hw ▸ hreserved

/-- The state after an input of the host, taken off its list. -/
def afterInput : HostInput → State → State
  | .command w => afterWord w
  | .reset _ => wipe

theorem step_cons {s : State} {x : HostInput} {rest : List HostInput} (h : s.inputs = x :: rest) :
    step s = .next (afterInput x (setInputs rest s)) := by
  cases x with
  | reset a => exact step_reset h
  | command w =>
    cases hd : decode w with
    | command i => rw [step_command h hd, afterInput, afterWord_of_command hd]
    | reserved why => rw [step_reserved h hd, afterInput, afterWord_of_reserved hd]

/-- A step takes the next input, or finds none and changes nothing. -/
theorem step_cases {s t : State} (h : step s = .next t) :
    (s.inputs = [] ∧ t = s) ∨
    ∃ x rest, s.inputs = x :: rest ∧ t = afterInput x (setInputs rest s) := by
  match hin : s.inputs with
  | [] => exact .inl ⟨rfl, by simpa [step_idle hin, eq_comm] using h⟩
  | x :: rest => exact .inr ⟨x, rest, rfl, by simpa [step_cons hin, eq_comm] using h⟩

/-- Settles O5, from the equation of a step on a command word. -/
theorem stepRunsTheDecodedCommand : Obligations.StepRunsTheDecodedCommand :=
  fun s _ rest i hin hd => (step_command hin hd).trans (exec_eq i (setInputs rest s)).symm

/-- Settles O12, from the equation of a step on a reset input. -/
theorem hardwareResetAbandonsTheCommand : Obligations.HardwareResetAbandonsTheCommand :=
  ⟨wipedClean_resetOf Config.standard, fun _ _ _ hin => step_reset hin⟩

/-! ## One response for each command word (R60, R229) -/

/-- `body` gives one response, and keeps the capacity and the inputs still to come. -/
def Answers (body : State → State) : Prop := ∀ s, ∃ r, Answered s (body s) r

theorem answered_answer {s t : State} (c d : Byte) (hresponses : t.responses = s.responses)
    (hinputs : t.inputs = s.inputs) (hcfg : t.cfg = s.cfg) : ∃ r, Answered s (answer c d t) r :=
  ⟨responseWord c d, by rw [answer_responses, hresponses], hinputs, hcfg⟩

theorem answered_raiseFault (k : FaultKind) (s : State) : ∃ r, Answered s (raiseFault k s) r :=
  answered_answer k.code 0x00#8 rfl rfl rfl

theorem answers_ite {p : State → Prop} [DecidablePred p] {f g : State → State} (hf : Answers f) (hg : Answers g) :
    Answers fun s => if p s then f s else g s := by
  intro s
  by_cases h : p s
  · simpa only [if_pos h] using hf s
  · simpa only [if_neg h] using hg s

theorem answers_unlessFaulted {body : State → State} (hbody : Answers body) : Answers (unlessFaulted body) :=
  answers_ite hbody fun _ => answered_answer _ _ rfl rfl rfl

theorem answers_dpushBody (b : Byte) : Answers (dpushBody b) :=
  answers_ite (answered_raiseFault _) fun _ => answered_answer _ _ rfl rfl rfl

theorem answers_dpopBody : Answers dpopBody :=
  answers_ite (fun _ => answered_answer _ _ rfl rfl rfl) fun _ => answered_answer _ _ rfl rfl rfl

theorem answers_padBody : Answers padBody :=
  answers_ite (answered_raiseFault _) fun _ => answered_answer _ _ rfl rfl rfl

theorem answers_unpadInPlace : Answers unpadInPlace := by
  intro s
  obtain ⟨-, h⟩ | ⟨p, -, h⟩ := unpadInPlace_cases s <;> rw [h]
  · exact answered_raiseFault _ s
  · exact answered_answer _ _ rfl rfl rfl

theorem answers_sequencerBody (f : Block → Block → Block) : Answers (sequencerBody f) :=
  answers_ite (answered_raiseFault _) fun _ => answered_answer _ _ rfl rfl rfl

theorem answers_encryptBody : Answers encryptBody :=
  answers_ite (answered_raiseFault _)
    (answers_ite (answered_raiseFault _) fun _ => answered_answer _ _ rfl rfl rfl)

/-- The blocks are decrypted without a response, so the one of the unpadding is the only one. -/
theorem answers_decryptBody : Answers decryptBody :=
  answers_ite (answered_raiseFault _) fun s => answers_unpadInPlace (ecbInPlace (aesDecBlock s.kreg) s)

theorem answers_afterCommand (i : Instr) : Answers (afterCommand i) := by
  cases i with
  | rst | stat => exact fun s => answered_answer _ _ rfl rfl rfl
  | nop | rdlen | kclr | kpush | dclr =>
    refine answers_unlessFaulted ?_
    exact fun s => answered_answer _ _ rfl rfl rfl
  | dpush b => exact answers_unlessFaulted (answers_dpushBody b)
  | dpop => exact answers_unlessFaulted answers_dpopBody
  | pad => exact answers_unlessFaulted answers_padBody
  | unpad => exact answers_unlessFaulted answers_unpadInPlace
  | ecbenc => exact answers_unlessFaulted (answers_sequencerBody aesEncBlock)
  | ecbdec => exact answers_unlessFaulted (answers_sequencerBody aesDecBlock)
  | encrypt => exact answers_unlessFaulted answers_encryptBody
  | decrypt => exact answers_unlessFaulted answers_decryptBody

theorem answers_reservedWord : Answers reservedWord := answers_unlessFaulted (answered_raiseFault .illegalCommand)

theorem answers_afterWord (w : CommandWord) : Answers (afterWord w) :=
  afterWord_induction answers_afterCommand answers_reservedWord w

/-- Settles O6, by what the step finds at the command port: nothing, a reset input, or a command word. -/
theorem everyStepCompletesWithOneResponsePerCommand : Obligations.EveryStepCompletesWithOneResponsePerCommand := by
  intro s
  match hin : s.inputs with
  | [] => exact ⟨s, step_idle hin, hin, rfl, fun _ => rfl, nofun, nofun⟩
  | .reset a :: rest => exact ⟨_, step_cons hin, rfl, rfl, nofun, nofun, fun _ _ _ => rfl⟩
  | .command w :: rest =>
    obtain ⟨r, hresponses, hinputs, hcfg⟩ := answers_afterWord w (setInputs rest s)
    exact ⟨_, step_cons hin, hinputs, hcfg, nofun, fun _ _ _ => ⟨r, hresponses⟩, nofun⟩

/-! ## A list of words (R52) -/

theorem keepsInputs_reservedWord : KeepsInputs reservedWord := keepsInputs_unlessFaulted fun _ _ => rfl

theorem keepsInputs_afterWord (w : CommandWord) : KeepsInputs (afterWord w) :=
  afterWord_induction keepsInputs_afterCommand keepsInputs_reservedWord w

/-- The state after a list of words. -/
def runWords (ws : List CommandWord) (s : State) : State := ws.foldl (fun s w => afterWord w s) s

theorem runWords_cons (w : CommandWord) (ws : List CommandWord) (s : State) :
    runWords (w :: ws) s = runWords ws (afterWord w s) := rfl

theorem runWords_append (u v : List CommandWord) (s : State) : runWords (u ++ v) s = runWords v (runWords u s) :=
  List.foldl_append

theorem submit_cons (w : CommandWord) (ws : List CommandWord) (s : State) :
    submit (w :: ws) s = submit ws (afterWord w s) := by
  have hstep : step (setInputs (.command w :: ws.map .command) s) =
      .next (setInputs (ws.map .command) (afterWord w s)) := by
    rw [step_cons rfl, ← keepsInputs_afterWord]
    rfl
  exact run_succ_of_step hstep ws.length

/-- Submitting a list of words runs it to its end, whatever the words are. -/
theorem submit_eq_runWords (ws : List CommandWord) (s : State) : submit ws s = .next (setInputs [] (runWords ws s)) := by
  induction ws generalizing s with
  | nil => rfl
  | cons w ws ih => rw [submit_cons, ih, runWords_cons]

/-- `submit` puts its words in the place of the inputs still to come. -/
theorem submit_setInputs (ws : List CommandWord) (l : List HostInput) (s : State) :
    submit ws (setInputs l s) = submit ws s := rfl

theorem length_responses_runWords (ws : List CommandWord) (s : State) :
    (runWords ws s).responses.length = s.responses.length + ws.length := by
  induction ws generalizing s with
  | nil => rfl
  | cons w ws ih =>
    obtain ⟨r, hresponses, -, -⟩ := answers_afterWord w s
    rw [runWords_cons, ih, hresponses, List.length_append, List.length_singleton, List.length_cons]
    omega

/-- Settles O7: the three submissions run the words of their lists in order. -/
theorem runningAListIsRunningItsPartsInOrder : Obligations.RunningAListIsRunningItsPartsInOrder := by
  intro u v s
  refine ⟨_, _, submit_eq_runWords u s, ?_, submit_eq_runWords (u ++ v) s, ?_⟩
  · rw [submit_setInputs, submit_eq_runWords, runWords_append]
  · rw [setInputs_responses, length_responses_runWords, List.length_append, Nat.add_assoc]

/-! ## The invariant (R30): the updates that keep it -/

/-- What holds at the start and is kept by every step holds after any number of steps. -/
theorem run_induction {P : State → Prop} (hstep : ∀ s t, P s → step s = .next t → P t) (k : Nat) {s t : State}
    (hs : P s) (h : Host.Core.run Sys2Proof.core k s = .next t) : P t := by
  induction k generalizing s with
  | zero =>
    cases h
    exact hs
  | succ k ih =>
    obtain ⟨u, hu, -⟩ := everyStepCompletesWithOneResponsePerCommand s
    exact ih (hstep s u hs hu) (run_succ_of_step hu k ▸ h)

theorem CoreInv.setInputs {s : State} (h : CoreInv s) (l : List HostInput) : CoreInv (setInputs l s) :=
  ⟨h.capacityLegal, h.memoryCanonical, h.memoryWithin, h.readPointerInData, h.dataFits, h.emptyKeyIsZero, h.errLegal⟩

theorem CoreInv.answer {s : State} (h : CoreInv s) (c d : Byte) : CoreInv (answer c d s) :=
  ⟨h.capacityLegal, h.memoryCanonical, h.memoryWithin, h.readPointerInData, h.dataFits, h.emptyKeyIsZero, h.errLegal⟩

theorem CoreInv.raiseFault {s : State} (h : CoreInv s) {k : FaultKind} (hk : legalErr k.code = true) :
    CoreInv (raiseFault k s) :=
  ⟨h.capacityLegal, h.memoryCanonical, h.memoryWithin, h.readPointerInData, h.dataFits, h.emptyKeyIsZero, hk⟩

theorem CoreInv.setKey {s : State} (h : CoreInv s) (kreg : Block) (kidx : BitVec 4) (kvalid : Bool)
    (hempty : kvalid = false → kidx = 0x0#4 ∧ kreg = Block.rep 0x00#8) : CoreInv (setKey kreg kidx kvalid s) :=
  ⟨h.capacityLegal, h.memoryCanonical, h.memoryWithin, h.readPointerInData, h.dataFits, hempty, h.errLegal⟩

/-- The three items of the data buffer are written together, since the clauses on them depend on one another. -/
theorem CoreInv.setBuffer {s : State} (h : CoreInv s) {m : Memory} {dlen rptr : Nat} (hwf : m.wf = true)
    (hwithin : m.within s.cfg = true) (hrptr : rptr ≤ dlen) (hfits : s.cfg.holds dlen = true) :
    CoreInv (setRptr rptr (setDlen dlen (setDmem m s))) :=
  ⟨h.capacityLegal, hwf, hwithin, hrptr, hfits, h.emptyKeyIsZero, h.errLegal⟩

/-- A shorter length, or the same one, keeps the bytes where they are. -/
theorem CoreInv.setLengths {s : State} (h : CoreInv s) {dlen rptr : Nat} (hrptr : rptr ≤ dlen) (hle : dlen ≤ s.dlen) :
    CoreInv (setRptr rptr (setDlen dlen s)) :=
  h.setBuffer h.memoryCanonical h.memoryWithin hrptr (Config.holds_mono h.dataFits hle)

/-- Settles O9, from the reset values. -/
theorem resetStateMeetsTheInvariant : Obligations.ResetStateMeetsTheInvariant := by
  intro c hlegal
  have hfits : c.holds 0 = true := by
    obtain ⟨_ | n⟩ := c
    · rfl
    · exact decide_eq_true (Nat.zero_le n)
  exact ⟨hlegal, rfl, rfl, le_rfl, hfits, fun _ => ⟨rfl, rfl⟩, rfl⟩

theorem CoreInv.wipe {s : State} (h : CoreInv s) : CoreInv (wipe s) := by
  obtain ⟨hlegal, hwf, hwithin, hrptr, hfits, hempty, herr⟩ := resetStateMeetsTheInvariant s.cfg h.capacityLegal
  exact ⟨hlegal, hwf, hwithin, hrptr, hfits, hempty, herr⟩

/-! ## The invariant: the commands keep it -/

/-- A buffer that is not full holds one byte more. -/
theorem holds_succ_of_room {c : Config} {n : Nat} (hfits : c.holds n = true) (hroom : c.dcap ≠ some n) :
    c.holds (n + 1) = true := by
  obtain ⟨_ | m⟩ := c
  · rfl
  · have hne : m ≠ n := fun h => hroom (congrArg some h)
    have hle : n ≤ m := of_decide_eq_true hfits
    exact decide_eq_true (by omega)

theorem CoreInv.padInPlace {s : State} (h : CoreInv s) (hroom : s.cfg.dcap ≠ some s.dlen) :
    CoreInv (padInPlace s) := by
  have hfits := holds_add_padLen h.capacityLegal h.dataFits hroom
  refine h.setBuffer (Memory.wf_writeSeq _ _ h.memoryCanonical) ?_ (Nat.zero_le _) hfits
  exact Memory.within_writeSeq _ _ h.memoryWithin (by rwa [length_padBytes])

/-- The whole blocks lie in the valid data, and so below `DCAP`. -/
theorem CoreInv.ecbInPlace {s : State} (h : CoreInv s) (f : Block → Block) : CoreInv (ecbInPlace f s) := by
  have hblocks : 16 * blockCount s ≤ s.dlen := Nat.mul_div_le s.dlen 16
  exact h.setBuffer (Memory.wf_mapBlocks f h.memoryCanonical _)
    (Memory.within_mapBlocks f h.memoryWithin _ (Config.holds_mono h.dataFits hblocks)) (Nat.zero_le _) h.dataFits

/-- `body` keeps the invariant. -/
def KeepsInv (body : State → State) : Prop := ∀ s, CoreInv s → CoreInv (body s)

theorem keepsInv_unlessFaulted {body : State → State} (hbody : KeepsInv body) : KeepsInv (unlessFaulted body) := by
  intro s hs
  by_cases h : s.err = 0x00#8
  · exact unlessFaulted_ok body h ▸ hbody s hs
  · exact unlessFaulted_faulted body h ▸ hs.answer s.err 0x00#8

theorem keepsInv_dpushBody (b : Byte) : KeepsInv (dpushBody b) := by
  intro s hs
  obtain ⟨-, h⟩ | ⟨hroom, h⟩ := dpushBody_cases b s <;> rw [h]
  · exact hs.raiseFault rfl
  · have hfits := holds_succ_of_room hs.dataFits hroom
    exact (hs.setBuffer (Memory.wf_write _ _ hs.memoryCanonical) (Memory.within_write b hs.memoryWithin hfits)
      (Nat.le_succ_of_le hs.readPointerInData) hfits).answer codeOK 0x00#8

theorem keepsInv_dpopBody : KeepsInv dpopBody := by
  intro s hs
  obtain ⟨-, h⟩ | ⟨hunread, h⟩ := dpopBody_cases s <;> rw [h]
  · exact hs.answer codeEMPTY 0x00#8
  · exact (hs.setLengths hunread le_rfl).answer codeOK _

theorem keepsInv_padBody : KeepsInv padBody := by
  intro s hs
  obtain ⟨-, h⟩ | ⟨hroom, h⟩ := padBody_cases s <;> rw [h]
  · exact hs.raiseFault rfl
  · exact (hs.padInPlace hroom).answer codeOK 0x00#8

theorem keepsInv_unpadInPlace : KeepsInv unpadInPlace := by
  intro s hs
  obtain ⟨-, h⟩ | ⟨p, -, h⟩ := unpadInPlace_cases s <;> rw [h]
  · exact hs.raiseFault rfl
  · exact (hs.setLengths (Nat.zero_le _) (Nat.sub_le ..)).answer codeOK 0x00#8

theorem keepsInv_sequencerBody (f : Block → Block → Block) : KeepsInv (sequencerBody f) := by
  intro s hs
  obtain ⟨-, h⟩ | ⟨-, -, h⟩ := sequencerBody_cases f s <;> rw [h]
  · exact hs.raiseFault rfl
  · exact (hs.ecbInPlace _).answer codeOK 0x00#8

theorem keepsInv_encryptBody : KeepsInv encryptBody := by
  intro s hs
  obtain ⟨-, h⟩ | ⟨-, -, -, h⟩ | ⟨-, -, hroom, h⟩ := encryptBody_cases s <;> rw [h]
  · exact hs.raiseFault rfl
  · exact hs.raiseFault rfl
  · exact ((hs.padInPlace hroom).ecbInPlace _).answer codeOK 0x00#8

theorem keepsInv_decryptBody : KeepsInv decryptBody := by
  intro s hs
  obtain ⟨-, h⟩ | ⟨-, -, -, h⟩ := decryptBody_cases s <;> rw [h]
  · exact hs.raiseFault rfl
  · exact keepsInv_unpadInPlace _ (hs.ecbInPlace _)

theorem keepsInv_afterCommand (i : Instr) : KeepsInv (afterCommand i) := by
  cases i with
  | rst => exact fun s hs => hs.wipe.answer codeOK 0x00#8
  | stat => exact fun s hs => hs.answer s.err (flags s)
  | nop => exact keepsInv_unlessFaulted fun s hs => hs.answer codeOK 0x00#8
  | rdlen n => exact keepsInv_unlessFaulted fun s hs => hs.answer codeOK (lengthByte s.dlen n)
  | kclr => exact keepsInv_unlessFaulted fun s hs => (hs.setKey _ _ _ fun _ => ⟨rfl, rfl⟩).answer codeOK 0x00#8
  | kpush b => exact keepsInv_unlessFaulted fun s hs => (hs.setKey _ _ true nofun).answer codeOK 0x00#8
  | dclr =>
    exact keepsInv_unlessFaulted fun s hs => (hs.setLengths le_rfl (Nat.zero_le _)).answer codeOK 0x00#8
  | dpush b => exact keepsInv_unlessFaulted (keepsInv_dpushBody b)
  | dpop => exact keepsInv_unlessFaulted keepsInv_dpopBody
  | pad => exact keepsInv_unlessFaulted keepsInv_padBody
  | unpad => exact keepsInv_unlessFaulted keepsInv_unpadInPlace
  | ecbenc => exact keepsInv_unlessFaulted (keepsInv_sequencerBody aesEncBlock)
  | ecbdec => exact keepsInv_unlessFaulted (keepsInv_sequencerBody aesDecBlock)
  | encrypt => exact keepsInv_unlessFaulted keepsInv_encryptBody
  | decrypt => exact keepsInv_unlessFaulted keepsInv_decryptBody

theorem keepsInv_reservedWord : KeepsInv reservedWord := keepsInv_unlessFaulted fun _ hs => hs.raiseFault rfl

theorem keepsInv_afterInput (x : HostInput) : KeepsInv (afterInput x) := by
  cases x with
  | reset a => exact fun s hs => hs.wipe
  | command w => exact afterWord_induction keepsInv_afterCommand keepsInv_reservedWord w

theorem coreInv_of_step (s t : State) (hs : CoreInv s) (hstep : step s = .next t) : CoreInv t := by
  obtain ⟨-, rfl⟩ | ⟨x, rest, -, rfl⟩ := step_cases hstep
  · exact hs
  · exact keepsInv_afterInput x _ (hs.setInputs rest)

/-- Settles O10: every step keeps the invariant, and the reset state meets it. -/
theorem everyStepKeepsTheInvariant : Obligations.EveryStepKeepsTheInvariant :=
  ⟨coreInv_of_step, fun c l k _ hlegal hrun =>
    run_induction coreInv_of_step k ((resetStateMeetsTheInvariant c hlegal).setInputs l) hrun⟩

end Sys2Proof.Machine

/-! SUPPORT. Bytes at or above `DLEN` are unobservable (O56): a relation between two states that every step keeps. -/

namespace Sys2Proof.Machine

/-! ## Two states that differ only at or above `DLEN` (R57) -/

/-- The second state is the first with other bytes of `DMEM` at or above `DLEN`. -/
def DifferAboveDlen (s s' : State) : Prop := ∃ m, s' = setDmem m s ∧ ∀ a < s.dlen, m.read a = s.dmem.read a

/-- `body` takes two such states to two such states. -/
def KeepsDifference (body : State → State) : Prop := ∀ s s', DifferAboveDlen s s' → DifferAboveDlen (body s) (body s')

theorem data_of_differAboveDlen {s s' : State} (h : DifferAboveDlen s s') : data s' = data s := by
  obtain ⟨m, rfl, hbelow⟩ := h
  exact data_congr rfl hbelow

/-- An update that neither looks at the memory nor writes it, and does not raise `DLEN`. -/
theorem keepsDifference_of_dmem_eq {f : State → State} (hf : ∀ m s, f (setDmem m s) = setDmem m (f s))
    (hdmem : ∀ s, (f s).dmem = s.dmem) (hdlen : ∀ s, (f s).dlen ≤ s.dlen) : KeepsDifference f := by
  rintro s s' ⟨m, rfl, hbelow⟩
  refine ⟨m, hf m s, fun a ha => ?_⟩
  rw [hdmem, hbelow a (ha.trans_le (hdlen s))]

theorem keepsDifference_comp {f g : State → State} (hg : KeepsDifference g) (hf : KeepsDifference f) :
    KeepsDifference fun s => g (f s) := fun s s' h => hg _ _ (hf s s' h)

theorem keepsDifference_ite {p : State → Prop} [DecidablePred p] {f g : State → State}
    (hp : ∀ m s, p (setDmem m s) ↔ p s) (hf : KeepsDifference f) (hg : KeepsDifference g) :
    KeepsDifference fun s => if p s then f s else g s := by
  intro s s' h
  have hps : p s' ↔ p s := by
    obtain ⟨m, rfl, -⟩ := h
    exact hp m s
  by_cases hs : p s
  · simpa only [if_pos hs, if_pos (hps.2 hs)] using hf s s' h
  · simpa only [if_neg hs, if_neg (mt hps.1 hs)] using hg s s' h

theorem keepsDifference_answerOK : KeepsDifference answerOK :=
  keepsDifference_of_dmem_eq (fun _ _ => rfl) (fun _ => rfl) fun _ => le_rfl

theorem keepsDifference_raiseFault (k : FaultKind) : KeepsDifference (raiseFault k) :=
  keepsDifference_of_dmem_eq (fun _ _ => rfl) (fun _ => rfl) fun _ => le_rfl

theorem keepsDifference_unlessFaulted {body : State → State} (hbody : KeepsDifference body) :
    KeepsDifference (unlessFaulted body) :=
  keepsDifference_ite (fun _ _ => Iff.rfl) hbody
    (keepsDifference_of_dmem_eq (fun _ _ => rfl) (fun _ => rfl) fun _ => le_rfl)

/-- A wipe leaves nothing of the difference. -/
theorem keepsDifference_wipe : KeepsDifference wipe := by
  rintro s _ ⟨m, rfl, -⟩
  exact ⟨[], rfl, fun _ _ => rfl⟩

/-! ## The commands -/

/-- `DPUSH` writes the byte at `DLEN` in both states, so they agree below the new `DLEN`. -/
theorem keepsDifference_pushByte (b : Byte) : KeepsDifference (pushByte b) := by
  rintro s _ ⟨m, rfl, hbelow⟩
  refine ⟨m.write s.dlen b, rfl, fun a ha => ?_⟩
  have hle : a ≤ s.dlen := Nat.le_of_lt_succ ha
  rw [read_pushByte, Memory.read_write]
  refine if_ctx_congr Iff.rfl (fun _ => rfl) fun hne => hbelow a (lt_of_le_of_ne hle hne)

/-- `DPOP` returns a byte below `DLEN`, or none. -/
theorem keepsDifference_dpopBody : KeepsDifference dpopBody := by
  rintro s _ ⟨m, rfl, hbelow⟩
  by_cases hempty : s.dlen ≤ s.rptr
  · rw [dpopBody_of_empty hempty, dpopBody_of_empty (s := setDmem m s) hempty]
    exact ⟨m, rfl, hbelow⟩
  · have hunread : s.rptr < s.dlen := not_le.1 hempty
    rw [dpopBody_of_unread hunread, dpopBody_of_unread (s := setDmem m s) hunread, setDmem_dmem, setDmem_rptr,
      hbelow _ hunread]
    exact ⟨m, rfl, hbelow⟩

theorem keepsDifference_padInPlace : KeepsDifference padInPlace := by
  rintro s _ ⟨m, rfl, hbelow⟩
  refine ⟨(padInPlace (setDmem m s)).dmem, rfl, fun a ha => ?_⟩
  rw [padInPlace_dlen] at ha
  rw [read_padInPlace, read_padInPlace]
  refine if_ctx_congr Iff.rfl (fun _ => rfl) fun hout => hbelow a ?_
  have : ¬ (s.dlen ≤ a ∧ a < s.dlen + padLen s.dlen) := hout
  omega

/-- The block sequencer reads only whole blocks of the valid data (R144). -/
theorem keepsDifference_ecbInPlace (f : Block → Block) : KeepsDifference (ecbInPlace f) := by
  rintro s s' h
  have hdata := data_of_differAboveDlen h
  obtain ⟨m, rfl, hbelow⟩ := h
  refine ⟨(ecbInPlace f (setDmem m s)).dmem, rfl, fun a ha => ?_⟩
  rw [read_ecbInPlace, read_ecbInPlace]
  refine if_ctx_congr Iff.rfl (fun hblock => ?_) fun _ => hbelow a ha
  have hin : 16 * (a / 16) + 16 ≤ s.dlen := by
    have : a < 16 * (s.dlen / 16) := hblock
    omega
  rw [readBlock_eq_blockAt (setDmem m s) hin, readBlock_eq_blockAt s hin, hdata]

/-- The unpadding decides by `data()`, and drops from the length what the last byte of `data()` says. -/
theorem keepsDifference_unpadInPlace : KeepsDifference unpadInPlace := by
  intro s s' h
  have hdata := data_of_differAboveDlen h
  by_cases hbad : BadTrailer (data s)
  · rw [unpadInPlace_of_badTrailer hbad, unpadInPlace_of_badTrailer (hdata ▸ hbad)]
    exact keepsDifference_raiseFault .invalidPadding s s' h
  · rw [unpadInPlace_of_not_badTrailer hbad, unpadInPlace_of_not_badTrailer (hdata ▸ hbad), hdata]
    obtain ⟨m, rfl, hbelow⟩ := h
    exact ⟨m, rfl, fun a ha => hbelow a (ha.trans_le (Nat.sub_le ..))⟩

/-- The block function depends on the cipher key, which is not in `DMEM`. -/
theorem keepsDifference_ecbUnderKey (f : Block → Block → Block) :
    KeepsDifference fun s => ecbInPlace (f (cipherKey s)) s := by
  intro s s' h
  have hkey : cipherKey s' = cipherKey s := by
    obtain ⟨m, rfl, -⟩ := h
    rfl
  simpa only [hkey] using keepsDifference_ecbInPlace (f (cipherKey s)) s s' h

theorem keepsDifference_dpushBody (b : Byte) : KeepsDifference (dpushBody b) :=
  keepsDifference_ite (fun _ _ => Iff.rfl) (keepsDifference_raiseFault _) (keepsDifference_pushByte b)

theorem keepsDifference_padBody : KeepsDifference padBody :=
  keepsDifference_ite (fun _ _ => Iff.rfl) (keepsDifference_raiseFault _)
    (keepsDifference_comp keepsDifference_answerOK keepsDifference_padInPlace)

theorem keepsDifference_sequencerBody (f : Block → Block → Block) : KeepsDifference (sequencerBody f) :=
  keepsDifference_ite (fun _ _ => Iff.rfl) (keepsDifference_raiseFault _)
    (keepsDifference_comp keepsDifference_answerOK (keepsDifference_ecbUnderKey f))

theorem keepsDifference_encryptBody : KeepsDifference encryptBody :=
  keepsDifference_ite (fun _ _ => Iff.rfl) (keepsDifference_raiseFault _)
    (keepsDifference_ite (fun _ _ => Iff.rfl) (keepsDifference_raiseFault _)
      (keepsDifference_comp keepsDifference_answerOK
        (keepsDifference_comp (g := fun s => ecbInPlace (aesEncBlock (cipherKey s)) s)
          (keepsDifference_ecbUnderKey aesEncBlock) keepsDifference_padInPlace)))

theorem keepsDifference_decryptBody : KeepsDifference decryptBody :=
  keepsDifference_ite (fun _ _ => Iff.rfl) (keepsDifference_raiseFault _)
    (keepsDifference_comp keepsDifference_unpadInPlace (keepsDifference_ecbUnderKey aesDecBlock))

theorem keepsDifference_afterCommand (i : Instr) : KeepsDifference (afterCommand i) := by
  cases i with
  | rst => exact keepsDifference_comp (g := answerOK) keepsDifference_answerOK keepsDifference_wipe
  | stat => exact keepsDifference_of_dmem_eq (fun _ _ => rfl) (fun _ => rfl) fun _ => le_rfl
  | nop | rdlen | kclr | kpush =>
    refine keepsDifference_unlessFaulted (keepsDifference_of_dmem_eq ?_ ?_ ?_)
    · exact fun _ _ => rfl
    · exact fun _ => rfl
    · exact fun _ => le_rfl
  | dclr =>
    exact keepsDifference_unlessFaulted
      (keepsDifference_of_dmem_eq (fun _ _ => rfl) (fun _ => rfl) fun s => Nat.zero_le s.dlen)
  | dpush b => exact keepsDifference_unlessFaulted (keepsDifference_dpushBody b)
  | dpop => exact keepsDifference_unlessFaulted keepsDifference_dpopBody
  | pad => exact keepsDifference_unlessFaulted keepsDifference_padBody
  | unpad => exact keepsDifference_unlessFaulted keepsDifference_unpadInPlace
  | ecbenc => exact keepsDifference_unlessFaulted (keepsDifference_sequencerBody aesEncBlock)
  | ecbdec => exact keepsDifference_unlessFaulted (keepsDifference_sequencerBody aesDecBlock)
  | encrypt => exact keepsDifference_unlessFaulted keepsDifference_encryptBody
  | decrypt => exact keepsDifference_unlessFaulted keepsDifference_decryptBody

/-! ## Every step -/

theorem keepsDifference_reservedWord : KeepsDifference reservedWord :=
  keepsDifference_unlessFaulted (keepsDifference_raiseFault .illegalCommand)

theorem keepsDifference_afterInput (x : HostInput) : KeepsDifference (afterInput x) := by
  cases x with
  | reset a => exact keepsDifference_wipe
  | command w => exact afterWord_induction keepsDifference_afterCommand keepsDifference_reservedWord w

theorem keepsDifference_setInputs (l : List HostInput) : KeepsDifference (setInputs l) :=
  keepsDifference_of_dmem_eq (fun _ _ => rfl) (fun _ => rfl) fun _ => le_rfl

/-- Settles O56: the relation of the two states is one that every step keeps. -/
theorem bytesAboveDlenAreUnobservable : Obligations.BytesAboveDlenAreUnobservable := by
  intro s s' t hs' hbelow hstep
  have hdiffer : DifferAboveDlen s s' := ⟨s'.dmem, hs', hbelow⟩
  obtain ⟨t', hstep', m, rfl, hbelow'⟩ : ∃ t', step s' = .next t' ∧ DifferAboveDlen t t' := by
    have hinputs : s'.inputs = s.inputs := by rw [hs']
    obtain ⟨hin, rfl⟩ | ⟨x, rest, hin, rfl⟩ := step_cases hstep
    · exact ⟨s', step_idle (hinputs.trans hin), hdiffer⟩
    · exact ⟨_, step_cons (hinputs.trans hin),
        keepsDifference_afterInput x _ _ (keepsDifference_setInputs rest s s' hdiffer)⟩
  exact ⟨setDmem m t, hstep', rfl, hbelow'⟩

end Sys2Proof.Machine

/-! SUPPORT. Rules over all commands: who writes what (O55), and that `KREG` is never read back (O57). -/

namespace Sys2Proof.Machine

/-! ## The access table (R34) -/

theorem sameBytes_dpopBody (s : State) : SameBytes s (dpopBody s) := by
  obtain ⟨-, h⟩ | ⟨-, h⟩ := dpopBody_cases s <;> rw [h] <;> exact fun _ => rfl

theorem dpopBody_dlen (s : State) : (dpopBody s).dlen = s.dlen := by
  obtain ⟨-, h⟩ | ⟨-, h⟩ := dpopBody_cases s <;> rw [h] <;> rfl

theorem dpopBody_err (s : State) : (dpopBody s).err = s.err := by
  obtain ⟨-, h⟩ | ⟨-, h⟩ := dpopBody_cases s <;> rw [h] <;> rfl

theorem dpushBody_rptr (b : Byte) (s : State) : (dpushBody b s).rptr = s.rptr := by
  obtain ⟨-, h⟩ | ⟨-, h⟩ := dpushBody_cases b s <;> rw [h] <;> rfl

theorem sequencerBody_dlen (f : Block → Block → Block) (s : State) : (sequencerBody f s).dlen = s.dlen := by
  obtain ⟨-, h⟩ | ⟨-, -, h⟩ := sequencerBody_cases f s <;> rw [h] <;> rfl

/-- The commands that write no byte of `DMEM`. -/
theorem sameBytes_afterCommand {i : Instr} (hi : Aside i ∨ i = .dclr ∨ i = .dpop ∨ i = .unpad) {s : State}
    (h : s.err = 0x00#8) : SameBytes s (afterCommand i s) := by
  obtain haside | rfl | rfl | rfl := hi
  case inl =>
    obtain ⟨⟨hbytes, -, -⟩, -, -⟩ := afterCommand_aside haside h
    exact hbytes
  all_goals rw [afterCommand_ok rfl h]
  · exact fun _ => rfl
  · exact sameBytes_dpopBody s
  · exact fun a => by rw [unpadInPlace_dmem]

/-- The commands that do not write `DLEN`. -/
theorem dlen_afterCommand {i : Instr} (hi : Aside i ∨ i = .dpop ∨ i = .ecbenc ∨ i = .ecbdec) {s : State}
    (h : s.err = 0x00#8) : (afterCommand i s).dlen = s.dlen := by
  obtain haside | rfl | rfl | rfl := hi
  case inl =>
    obtain ⟨⟨-, hdlen, -⟩, -, -⟩ := afterCommand_aside haside h
    exact hdlen
  all_goals rw [afterCommand_ok rfl h]
  · exact dpopBody_dlen s
  · exact sequencerBody_dlen aesEncBlock s
  · exact sequencerBody_dlen aesDecBlock s

/-- The commands that do not write `RPTR`. -/
theorem rptr_afterCommand {i : Instr} (hi : Aside i ∨ ∃ b, i = .dpush b) {s : State} (h : s.err = 0x00#8) :
    (afterCommand i s).rptr = s.rptr := by
  obtain haside | ⟨b, rfl⟩ := hi
  · obtain ⟨⟨-, -, hrptr⟩, -, -⟩ := afterCommand_aside haside h
    exact hrptr
  · rw [afterCommand_ok rfl h, dpushBody_rptr]

/-- The commands that raise no fault. -/
theorem err_afterCommand {i : Instr} (hi : Aside i ∨ i = .rst ∨ i = .dclr ∨ i = .dpop) {s : State}
    (h : s.err = 0x00#8) : (afterCommand i s).err = 0x00#8 := by
  obtain haside | rfl | rfl | rfl := hi
  · obtain ⟨-, herr, -⟩ := afterCommand_aside haside h
    exact herr
  · rfl
  · rw [afterCommand_ok rfl h]
    exact h
  · rw [afterCommand_ok rfl h, dpopBody_err, h]

/-- Settles O55: each column of the table by the commands it leaves to the others. -/
theorem commandsWriteOnlyTheirState : Obligations.CommandsWriteOnlyTheirState := by
  intro i s t h hexec
  obtain rfl : afterCommand i s = t := by simpa [exec_eq] using hexec
  obtain ⟨r, -, hinputs, hcfg⟩ := answers_afterCommand i s
  refine ⟨fun hr hc hp => sameKey_afterCommand hr hc hp s, fun hi => sameBytes_afterCommand ?_ h,
    fun hi => dlen_afterCommand ?_ h, fun hi => rptr_afterCommand ?_ h, fun hi => err_afterCommand ?_ h, hcfg, hinputs⟩
  all_goals
    simp only [List.mem_cons, List.not_mem_nil, or_false] at hi
    unfold Aside
    tauto

/-! ## Two states that differ only in `KREG` (R21, R209) -/

/-- The state with another accumulator. -/
def withKreg (k : Block) (s : State) : State := { s with kreg := k }

theorem withKreg_responses (k : Block) (s : State) : (withKreg k s).responses = s.responses := rfl

/-- The second state is the first with another accumulator. -/
def DifferInKreg (s s' : State) : Prop := ∃ k, s' = withKreg k s

/-- `body` takes two states that differ only in `KREG` to two such states. -/
def KeepsKregDifference (body : State → State) : Prop := ∀ k s, DifferInKreg (body s) (body (withKreg k s))

/-- `body` answers two states that differ only in `KREG` alike. -/
def HidesKreg (body : State → State) : Prop := ∀ k s, (body (withKreg k s)).responses = (body s).responses

theorem responses_of_differInKreg {s s' : State} (h : DifferInKreg s s') : s'.responses = s.responses := by
  obtain ⟨k, rfl⟩ := h
  rfl

/-- Two states that differ only in `KREG` take the same branch of a test that does not look at it. -/
theorem withKreg_ite (R : State → State → Prop) {p : State → Prop} [DecidablePred p] {f g : State → State}
    (hp : ∀ k s, p (withKreg k s) ↔ p s) (hf : ∀ k s, R (f s) (f (withKreg k s)))
    (hg : ∀ k s, R (g s) (g (withKreg k s))) (k : Block) (s : State) :
    R (if p s then f s else g s) (if p (withKreg k s) then f (withKreg k s) else g (withKreg k s)) := by
  by_cases h : p s
  · simpa only [if_pos h, if_pos ((hp k s).2 h)] using hf k s
  · simpa only [if_neg h, if_neg (mt (hp k s).1 h)] using hg k s

theorem keepsKregDifference_ite {p : State → Prop} [DecidablePred p] {f g : State → State}
    (hp : ∀ k s, p (withKreg k s) ↔ p s) (hf : KeepsKregDifference f) (hg : KeepsKregDifference g) :
    KeepsKregDifference fun s => if p s then f s else g s := withKreg_ite DifferInKreg hp hf hg

theorem hidesKreg_ite {p : State → Prop} [DecidablePred p] {f g : State → State}
    (hp : ∀ k s, p (withKreg k s) ↔ p s) (hf : HidesKreg f) (hg : HidesKreg g) :
    HidesKreg fun s => if p s then f s else g s :=
  withKreg_ite (fun s s' => s'.responses = s.responses) hp hf hg

theorem keepsKregDifference_unlessFaulted {body : State → State} (hbody : KeepsKregDifference body) :
    KeepsKregDifference (unlessFaulted body) :=
  keepsKregDifference_ite (fun _ _ => Iff.rfl) hbody fun k _ => ⟨k, rfl⟩

theorem hidesKreg_unlessFaulted {body : State → State} (hbody : HidesKreg body) : HidesKreg (unlessFaulted body) :=
  hidesKreg_ite (fun _ _ => Iff.rfl) hbody fun _ _ => rfl

theorem keepsKregDifference_unpadInPlace : KeepsKregDifference unpadInPlace := by
  intro k s
  have hdata : data (withKreg k s) = data s := rfl
  refine ⟨k, ?_⟩
  by_cases hbad : BadTrailer (data s)
  · rw [unpadInPlace_of_badTrailer hbad, unpadInPlace_of_badTrailer (hdata ▸ hbad)]
    rfl
  · rw [unpadInPlace_of_not_badTrailer hbad, unpadInPlace_of_not_badTrailer (hdata ▸ hbad)]
    rfl

/-- The commands that do not run the cipher. -/
theorem keepsKregDifference_afterCommand {i : Instr} (hi : i ∉ [Instr.ecbenc, .ecbdec, .encrypt, .decrypt]) :
    KeepsKregDifference (afterCommand i) := by
  cases i with
  | ecbenc | ecbdec | encrypt | decrypt => simp at hi
  | rst => exact fun k s => ⟨_, rfl⟩
  | stat => exact fun k s => ⟨k, rfl⟩
  | nop | rdlen | kclr | kpush | dclr =>
    refine keepsKregDifference_unlessFaulted ?_
    exact fun k s => ⟨_, rfl⟩
  | dpush | dpop | pad =>
    refine keepsKregDifference_unlessFaulted (keepsKregDifference_ite (fun _ _ => Iff.rfl) ?_ ?_)
    · exact fun k _ => ⟨k, rfl⟩
    · exact fun k _ => ⟨k, rfl⟩
  | unpad => exact keepsKregDifference_unlessFaulted keepsKregDifference_unpadInPlace

theorem hidesKreg_sequencerBody (f : Block → Block → Block) : HidesKreg (sequencerBody f) :=
  hidesKreg_ite (fun _ _ => Iff.rfl) (fun _ _ => rfl) fun _ _ => rfl

theorem hidesKreg_encryptBody : HidesKreg encryptBody := by
  refine hidesKreg_ite (fun _ _ => Iff.rfl) (fun _ _ => rfl)
    (hidesKreg_ite (fun _ _ => Iff.rfl) (fun _ _ => rfl) fun k s => ?_)
  rw [answerOK_responses, answerOK_responses, ecbInPlace_responses, ecbInPlace_responses, padInPlace_responses,
    padInPlace_responses, withKreg_responses]

/-- Every command but `DECRYPT`: the cipher writes `DMEM`, and these commands do not look at what it wrote. -/
theorem hidesKreg_afterCommand {i : Instr} (hi : i ≠ .decrypt) : HidesKreg (afterCommand i) := by
  by_cases hcipher : i ∈ [Instr.ecbenc, .ecbdec, .encrypt, .decrypt]
  · simp only [List.mem_cons, List.not_mem_nil, or_false, hi] at hcipher
    obtain rfl | rfl | rfl := hcipher
    · exact hidesKreg_unlessFaulted (hidesKreg_sequencerBody aesEncBlock)
    · exact hidesKreg_unlessFaulted (hidesKreg_sequencerBody aesDecBlock)
    · exact hidesKreg_unlessFaulted hidesKreg_encryptBody
  · exact fun k s => responses_of_differInKreg (keepsKregDifference_afterCommand hcipher k s)

/-- In the faulted state the key is out of reach of every command (R199). -/
theorem differInKreg_of_faulted (i : Instr) (k : Block) {s : State} (h : s.err ≠ 0x00#8) :
    DifferInKreg (afterCommand i s) (afterCommand i (withKreg k s)) := by
  by_cases hi : i ∈ [Instr.ecbenc, .ecbdec, .encrypt, .decrypt]
  · have hr : i ≠ .rst := by rintro rfl; simp at hi
    have hs : i ≠ .stat := by rintro rfl; simp at hi
    rw [afterCommand_faulted hr hs h, afterCommand_faulted hr hs (s := withKreg k s) h]
    exact ⟨k, rfl⟩
  · exact keepsKregDifference_afterCommand hi k s

/-- What `DECRYPT` answers in the non-faulted state: `InvalidInput` for a reason that is not in the key, and otherwise
one bit about the padding. -/
theorem responses_decryptBody (s : State) :
    ((s.dlen = 0 ∨ s.kvalid = false ∨ s.dlen % 16 ≠ 0) → (decryptBody s).responses = s.responses ++ [0x0100#16]) ∧
    (¬ (s.dlen = 0 ∨ s.kvalid = false ∨ s.dlen % 16 ≠ 0) →
      ∃ r ∈ [0x0000#16, 0x0200#16], (decryptBody s).responses = s.responses ++ [r]) := by
  obtain ⟨hunready, h⟩ | ⟨hlen, hkey, haligned, h⟩ := decryptBody_cases s <;> rw [h]
  · exact ⟨fun _ => rfl, fun hready => absurd hunready hready⟩
  · refine ⟨fun hunready => ?_, fun _ => ?_⟩
    · simp [hlen, hkey, haligned] at hunready
    · obtain ⟨-, hs⟩ | ⟨p, -, hs⟩ := unpadInPlace_cases (ecbInPlace (aesDecBlock s.kreg) s) <;> rw [hs]
      · exact ⟨0x0200#16, by simp, rfl⟩
      · exact ⟨0x0000#16, by simp, rfl⟩

/-- The responses of `DECRYPT` in two states that differ only in `KREG`. -/
theorem responses_decrypt_withKreg (k : Block) (s : State) :
    ∃ r r', (afterCommand .decrypt s).responses = s.responses ++ [r] ∧
      (afterCommand .decrypt (withKreg k s)).responses = s.responses ++ [r'] ∧ (s.err ≠ 0x00#8 → r = r') ∧
      (s.err = 0x00#8 → (r = 0x0100#16 ∧ r' = 0x0100#16) ∨
        (r ∈ [0x0000#16, 0x0200#16] ∧ r' ∈ [0x0000#16, 0x0200#16])) := by
  by_cases h : s.err = 0x00#8
  · have hk : (withKreg k s).err = 0x00#8 := h
    rw [afterCommand_ok rfl h, afterCommand_ok rfl hk]
    obtain ⟨hbad, hgood⟩ := responses_decryptBody s
    obtain ⟨hbad', hgood'⟩ := responses_decryptBody (withKreg k s)
    by_cases hunready : s.dlen = 0 ∨ s.kvalid = false ∨ s.dlen % 16 ≠ 0
    · exact ⟨_, _, hbad hunready, hbad' hunready, absurd h, fun _ => .inl ⟨rfl, rfl⟩⟩
    · obtain ⟨r, hr, hresponse⟩ := hgood hunready
      obtain ⟨r', hr', hresponse'⟩ := hgood' hunready
      exact ⟨r, r', hresponse, hresponse', absurd h, fun _ => .inr ⟨hr, hr'⟩⟩
  · have ignored {t : State} (ht : t.err ≠ 0x00#8) : afterCommand .decrypt t = ignoreWord t :=
      afterCommand_faulted (i := .decrypt) nofun nofun ht
    rw [ignored h, ignored (t := withKreg k s) h]
    exact ⟨_, _, rfl, rfl, fun _ => rfl, fun hok => absurd hok h⟩

/-- Settles O57, command by command, but for the padding that `DECRYPT` tests on what the key decrypted. -/
theorem keyRegistersAreNeverReadBack : Obligations.KeyRegistersAreNeverReadBack := by
  intro i s s' t hs' hexec
  obtain rfl : afterCommand i s = t := by simpa [exec_eq] using hexec
  obtain ⟨k, rfl⟩ : ∃ k, s' = withKreg k s := ⟨s'.kreg, hs'⟩
  refine ⟨_, exec_eq i _, fun hi => ?responses, fun hi => ?difference, ?decrypt⟩
  case responses =>
    obtain hi | hfaulted := hi
    · exact hidesKreg_afterCommand hi k s
    · exact responses_of_differInKreg (differInKreg_of_faulted i k hfaulted)
  case difference =>
    obtain ⟨k', hk'⟩ : DifferInKreg (afterCommand i s) (afterCommand i (withKreg k s)) := by
      obtain hi | hfaulted := hi
      · exact keepsKregDifference_afterCommand hi k s
      · exact differInKreg_of_faulted i k hfaulted
    rw [hk']
    rfl
  case decrypt =>
    rintro rfl
    exact responses_decrypt_withKreg k s

end Sys2Proof.Machine

/-! SUPPORT. Lists of commands: the four length bytes (O26), and `ENCRYPT` then `DECRYPT` (O47). -/

namespace Sys2Proof.Machine

theorem runCommands_append (is js : List Instr) (s : State) :
    runCommands (is ++ js) s = runCommands js (runCommands is s) := by
  induction is generalizing s with
  | nil => rfl
  | cons i is ih => exact ih (afterCommand i s)

/-! ## The four length bytes (R46) -/

/-- The commands of `LEN32` (R71). -/
def len32 : List Instr := [0x00#8, 0x01#8, 0x02#8, 0x03#8].map .rdlen

/-- The bytes 0 to 3 of a length, which `LEN32` reads. -/
def lengthBytes (n : Nat) : List Byte := [0x00#8, 0x01#8, 0x02#8, 0x03#8].map (lengthByte n)

theorem len32Words_eq : len32Words = len32.map encode := rfl

theorem afterCommand_rdlen_ok (i : Byte) {s : State} (h : s.err = 0x00#8) :
    afterCommand (.rdlen i) s = withResponse s (0x00#8 ++ lengthByte s.dlen i) :=
  (afterCommand_ok rfl h).trans rfl

/-- Reading length bytes answers them and changes nothing. -/
theorem runCommands_rdlen (is : List Byte) {s : State} (h : s.err = 0x00#8) :
    runCommands (is.map .rdlen) s = { s with responses := s.responses ++ okBytes (is.map (lengthByte s.dlen)) } := by
  induction is generalizing s with
  | nil => simp [runCommands, okBytes]
  | cons i is ih =>
    have hok : (withResponse s (0x00#8 ++ lengthByte s.dlen i)).err = 0x00#8 := h
    rw [List.map_cons, runCommands, afterCommand_rdlen_ok i h, ih hok]
    simp [withResponse, okBytes]

/-- A length below 2^32 is the little-endian value of its four bytes. -/
theorem eq_sum_lengthBytes {n : Nat} (h : n < 2 ^ 32) : n = (lengthByte n 0x00#8).toNat +
    256 * (lengthByte n 0x01#8).toNat + 65536 * (lengthByte n 0x02#8).toNat +
    16777216 * (lengthByte n 0x03#8).toNat := by
  simp [toNat_lengthByte]
  omega

/-- Settles O26, from the answers of `LEN32`. -/
theorem lengthBytesAreLittleEndian : Obligations.LengthBytesAreLittleEndian := by
  refine fun s h hlt => ⟨_, _, _, _, ?_, eq_sum_lengthBytes hlt⟩
  rw [len32Words_eq, submit_map_encode, len32, runCommands_rdlen _ h]
  rfl

/-! ## `ENCRYPT`, then `DECRYPT` (R183) -/

/-- On the way from `s` to `t` a command answered `OK` and left the data `d`, to be read from the first byte on. -/
structure Returned (s t : State) (d : List Byte) : Prop where
  data_eq : data t = d
  err_eq : t.err = 0x00#8
  rptr_eq : t.rptr = 0
  responses_eq : t.responses = s.responses ++ [0x0000#16]

/-- Where `unpad` finds a trailer in `data()`, `UNPAD` leaves what stands before it. -/
theorem returned_unpadInPlace {s : State} (h : s.err = 0x00#8) {d : List Byte} (hd : unpad (data s) = .bytes d) :
    Returned s (unpadInPlace s) d := by
  have hgood : ¬ BadTrailer (data s) := fun hbad => by simp [unpad_of_badTrailer hbad] at hd
  have herr : (unpadInPlace s).err = 0x00#8 := (unpadInPlace_err_of_not_badTrailer hgood).trans h
  have hdata : CallResult.bytes (data (unpadInPlace s)) = .bytes d := by
    rw [← hd, unpad_data_eq h, if_pos herr]
  refine ⟨CallResult.bytes.inj hdata, herr, ?_, ?_⟩ <;> rw [unpadInPlace_of_not_badTrailer hgood] <;> rfl

theorem SameKey.trans {s t u : State} (hst : SameKey s t) (htu : SameKey t u) : SameKey s u := by
  obtain ⟨hreg, hidx, hvalid⟩ := hst
  rwa [SameKey, ← hreg, ← hidx, ← hvalid]

theorem sameKey_decryptedBlocks (s : State) : SameKey s (decryptedBlocks s) := ⟨rfl, rfl, rfl⟩

/-- `DECRYPT` after `ENCRYPT` has the padded data back when it comes to the padding. -/
theorem data_decryptedBlocks_encrypted (s : State) : data (decryptedBlocks (encrypted s)) = pad (data s) := by
  have haligned : (encrypted s).dlen % 16 = 0 := by rw [dlen_encrypted, Nat.mul_mod_right]
  rw [data_decryptedBlocks haligned, data_encrypted, (sameKey_encrypted s).1, ecbDec_ecbEnc _ (aligned_pad _)]

theorem afterCommand_encrypt_of_room {s : State} (h : s.err = 0x00#8) (hkey : s.kvalid = true) (hlen : s.dlen ≠ 0)
    (hroom : s.cfg.dcap ≠ some s.dlen) : afterCommand .encrypt s = encrypted s := by
  rw [afterCommand_ok rfl h, encryptBody_of_room hlen hkey hroom]

theorem afterCommand_decrypt_of_ready {s : State} (h : s.err = 0x00#8) (hkey : s.kvalid = true) (hlen : s.dlen ≠ 0)
    (haligned : s.dlen % 16 = 0) : afterCommand .decrypt s = unpadInPlace (decryptedBlocks s) := by
  rw [afterCommand_ok rfl h, decryptBody_of_ready hlen hkey haligned]

/-- Settles O47: `ENCRYPT` leaves the machine ready for `DECRYPT`, whose unpadding finds the padded data. -/
theorem decryptAfterEncryptRestoresTheData : Obligations.DecryptAfterEncryptRestoresTheData := by
  intro s h hkey hlen hroom
  have hsame := sameKey_encrypted s
  obtain ⟨-, -, hvalid⟩ := sameKey_encrypted s
  have herr : (encrypted s).err = 0x00#8 := (err_encrypted s).trans h
  have hrun : runCommands [.encrypt, .decrypt] s = unpadInPlace (decryptedBlocks (encrypted s)) := by
    have hlen' := dlen_encrypted s
    rw [runCommands, runCommands, runCommands, afterCommand_encrypt_of_room h hkey hlen hroom,
      afterCommand_decrypt_of_ready herr (hvalid.trans hkey) (by omega) (by omega)]
  have hunpad : unpad (data (decryptedBlocks (encrypted s))) = .bytes (data s) := by
    rw [data_decryptedBlocks_encrypted, unpad_pad]
  obtain ⟨hdata, hok, -, hresponses⟩ := returned_unpadInPlace (s := decryptedBlocks (encrypted s)) herr hunpad
  refine ⟨_, submit_map_encode [.encrypt, .decrypt] s, ?_⟩
  rw [hrun]
  refine ⟨?_, hdata, ?_, ?_, hok⟩
  · rw [setInputs_responses, hresponses]
    exact (congrArg (· ++ _) (answered_encrypted s).1).trans (List.append_assoc ..)
  · rw [setInputs_dlen, ← length_data, hdata, length_data]
  · exact hsame.trans ((sameKey_decryptedBlocks _).trans (sameKey_unpadInPlace _))

end Sys2Proof.Machine

/-! SUPPORT. The transactions of spec/47_host_protocol.md, for `Encrypt` (O58), for `Decrypt` (O59), and for a text that
does not fit (O60). -/

namespace Sys2Proof.Machine

/-! ## The start of a transaction (R175 to R178) -/

/-- The commands that carry a byte of the key or of the data. -/
def Push (i : Instr) : Prop := (∃ b, i = .kpush b) ∨ ∃ b, i = .dpush b

/-- The commands that clear or load: where they raise no fault, they answer `OK` and no byte. -/
def Load (i : Instr) : Prop := i = .kclr ∨ i = .dclr ∨ Push i

theorem ne_rst_of_load {i : Instr} (hi : Load i) : i ≠ .rst := by
  obtain rfl | rfl | ⟨b, rfl⟩ | ⟨b, rfl⟩ := hi <;> nofun

theorem responses_afterCommand_load {i : Instr} (hi : Load i) {s : State} (h : (afterCommand i s).err = 0x00#8) :
    (afterCommand i s).responses = s.responses ++ [0x0000#16] := by
  have hs : s.err = 0x00#8 := err_eq_zero_of_afterCommand (ne_rst_of_load hi) h
  obtain rfl | rfl | ⟨b, rfl⟩ | ⟨b, rfl⟩ := hi
  case inr.inr.inr =>
    rw [afterCommand_ok rfl hs] at h ⊢
    obtain ⟨-, hfull⟩ | ⟨-, hpush⟩ := dpushBody_cases b s
    · rw [hfull] at h
      exact absurd h (by simp)
    · rw [hpush]
      rfl
  all_goals
    rw [afterCommand_ok rfl hs]
    rfl

theorem responses_runCommands_load {is : List Instr} (his : ∀ i ∈ is, Load i) {s : State}
    (h : (runCommands is s).err = 0x00#8) :
    (runCommands is s).responses = s.responses ++ List.replicate is.length 0x0000#16 := by
  induction is generalizing s with
  | nil => exact (List.append_nil _).symm
  | cons i is ih =>
    obtain ⟨hi, htail⟩ := List.forall_mem_cons.1 his
    have hfirst := err_eq_zero_of_runCommands (fun j hj => ne_rst_of_load (htail j hj)) h
    rw [runCommands, ih htail h, responses_afterCommand_load hi hfirst, List.append_assoc, List.length_cons,
      List.replicate_succ, List.singleton_append]

/-- From `s₀`, `n` commands that all answered `OK` have streamed in the key `key` and the data `d`. -/
structure Prepared (s₀ : State) (key d : List Byte) (n : Nat) (s : State) : Prop where
  key_folded : KeyFolded key s
  data_loaded : Loaded s₀.cfg d s
  responses_eq : s.responses = s₀.responses ++ List.replicate n 0x0000#16

/-- The start by `RST` from any state, or by `KCLR` and `DCLR` from a non-faulted one (R175, R178). -/
theorem prepared_of_start {first : List Instr} {s : State}
    (h : first = [.rst] ∨ (first = [.kclr, .dclr] ∧ s.err = 0x00#8)) :
    Prepared s [] [] first.length (runCommands first s) := by
  obtain rfl | ⟨rfl, herr⟩ := h
  · exact ⟨⟨rfl, rfl, rfl⟩, ⟨rfl, rfl, rfl, rfl⟩, rfl⟩
  · have hok : (answerOK (clearKey s)).err = 0x00#8 := herr
    rw [runCommands, runCommands, runCommands, afterCommand_kclr_ok herr, afterCommand_ok rfl hok]
    exact ⟨⟨rfl, rfl, rfl⟩, ⟨rfl, rfl, herr, rfl⟩, List.append_assoc ..⟩

/-- Pushes in any interleaving, as long as the data fit. -/
theorem Prepared.push {s₀ s : State} {key d : List Byte} {n : Nat} (h : Prepared s₀ key d n s) {is : List Instr}
    (his : ∀ i ∈ is, Push i) (hroom : s₀.cfg.holds (d ++ dataPushed is).length = true) :
    Prepared s₀ (key ++ keyPushed is) (d ++ dataPushed is) (n + is.length) (runCommands is s) := by
  have hpush : ∀ i ∈ is, i ≠ .rst ∧ i ≠ .kclr := fun i hi => by
    obtain ⟨b, rfl⟩ | ⟨b, rfl⟩ := his i hi <;> exact ⟨nofun, nofun⟩
  have haside : ∀ i ∈ is, Aside i ∨ ∃ b, i = .dpush b := fun i hi =>
    (his i hi).imp_left fun hkey => .inr (.inr (.inr (.inr hkey)))
  obtain ⟨hdata, hptr, herr, hcfg⟩ := loaded_runCommands haside h.data_loaded hroom
  refine ⟨keyFolded_runCommands hpush h.key_folded herr, ⟨hdata, hptr, herr, hcfg⟩, ?_⟩
  rw [responses_runCommands_load (fun i hi => .inr (.inr (his i hi))) herr, h.responses_eq, List.append_assoc,
    List.replicate_append_replicate]

/-- The start and the pushes of a transaction. -/
theorem prepared_of_pushes {first is : List Instr} {s : State}
    (hfirst : first = [.rst] ∨ (first = [.kclr, .dclr] ∧ s.err = 0x00#8)) (his : ∀ i ∈ is, Push i)
    (hroom : s.cfg.holds (dataPushed is).length = true) :
    Prepared s (keyPushed is) (dataPushed is) (first.length + is.length) (runCommands (first ++ is) s) := by
  rw [runCommands_append]
  exact (prepared_of_start hfirst).push his hroom

section
variable {s₀ s : State} {key d : List Byte} {n : Nat}

theorem Prepared.data_eq (h : Prepared s₀ key d n s) : data s = d := by
  obtain ⟨hdata, -, -, -⟩ := h.data_loaded
  exact hdata

theorem Prepared.err_eq (h : Prepared s₀ key d n s) : s.err = 0x00#8 := by
  obtain ⟨-, -, herr, -⟩ := h.data_loaded
  exact herr

theorem Prepared.cfg_eq (h : Prepared s₀ key d n s) : s.cfg = s₀.cfg := by
  obtain ⟨-, -, -, hcfg⟩ := h.data_loaded
  exact hcfg

theorem Prepared.dlen_eq (h : Prepared s₀ key d n s) : s.dlen = d.length := by rw [← length_data, h.data_eq]

theorem Prepared.kreg_eq (h : Prepared s₀ key d n s) : s.kreg = foldKey key := by
  obtain ⟨hreg, -, -⟩ := h.key_folded
  exact hreg

theorem Prepared.kvalid_iff (h : Prepared s₀ key d n s) : s.kvalid = true ↔ key ≠ [] := by
  obtain ⟨-, -, hvalid⟩ := h.key_folded
  rw [hvalid, decide_eq_true_iff, Nat.succ_le_iff, List.length_pos_iff]

theorem Prepared.kvalid_eq_false_iff (h : Prepared s₀ key d n s) : s.kvalid = false ↔ key = [] := by
  rw [← Bool.not_eq_true, h.kvalid_iff, not_not]

theorem Prepared.dlen_eq_zero_iff (h : Prepared s₀ key d n s) : s.dlen = 0 ↔ d = [] := by
  rw [h.dlen_eq, List.length_eq_zero_iff]

theorem Prepared.dlen_ne_zero_iff (h : Prepared s₀ key d n s) : s.dlen ≠ 0 ↔ d ≠ [] := h.dlen_eq_zero_iff.not

end

/-! ## The end of a transaction (R175 to R177) -/

/-- In the faulted state each word answers with `ERR` (R199). -/
theorem responses_runCommands_faulted {is : List Instr} (his : ∀ i ∈ is, i ≠ .rst ∧ i ≠ .stat) {s : State}
    (h : s.err ≠ 0x00#8) :
    (runCommands is s).responses = s.responses ++ List.replicate is.length (s.err ++ 0x00#8) := by
  induction is generalizing s with
  | nil => exact (List.append_nil _).symm
  | cons i is ih =>
    obtain ⟨⟨hr, hs⟩, htail⟩ := List.forall_mem_cons.1 his
    have hignored : (ignoreWord s).err ≠ 0x00#8 := h
    rw [runCommands, afterCommand_faulted hr hs h, ih htail hignored, ignoreWord_responses, List.append_assoc,
      List.length_cons, List.replicate_succ, List.singleton_append]
    rfl

/-- A command that raises a fault, and every word after it up to the next `RST`, answers with the fault's code. -/
theorem responses_of_raises {i : Instr} {k : FaultKind} {s : State} (h : s.err = 0x00#8) (hr : Raises s i k)
    {is : List Instr} (his : ∀ i ∈ is, i ≠ .rst ∧ i ≠ .stat) :
    (runCommands (i :: is) s).responses =
      s.responses ++ List.replicate (is.length + 1) (k.code ++ 0x00#8) := by
  have hi : i ≠ .rst := by
    rintro rfl
    cases hr
  have herr : (afterCommand i s).err = k.code := err_of_raises h hr
  have hfaulted : (afterCommand i s).err ≠ 0x00#8 := by simp [herr]
  obtain ⟨-, -, hresponse⟩ := (afterCommand_err hi s).resolve_left (h.symm ▸ hfaulted)
  rw [runCommands, responses_runCommands_faulted his hfaulted, hresponse, herr, List.append_assoc,
    List.singleton_append, List.replicate_succ]

theorem popAnswers_add_length (d : List Byte) (e : Nat) :
    popAnswers d (d.length + e) = okBytes d ++ List.replicate e 0x4000#16 := by
  have hlen : (okBytes d).length = d.length := List.length_map ..
  rw [popAnswers_eq_take d le_rfl, ← hlen, List.take_length_add_append, List.take_replicate]
  congr 2
  omega

/-- Reading from the first byte on answers all bytes, and then `EMPTY` as often as is read further (R92). -/
theorem responses_read {s : State} (h : s.err = 0x00#8) (hptr : s.rptr = 0) {d : List Byte} (hd : data s = d)
    (e : Nat) : (runCommands (List.replicate (d.length + e) .dpop) s).responses =
      s.responses ++ okBytes d ++ List.replicate e 0x4000#16 := by
  obtain ⟨rs, hread⟩ := readOut_runCommands (is := List.replicate (d.length + e) .dpop)
    (fun i hi => .inr (List.eq_of_mem_replicate hi)) h (hptr ▸ Nat.zero_le _)
  have hrs : rs = okBytes d ++ List.replicate e 0x4000#16 := by
    have hlen : rs.length = d.length + e := hread.length_eq.trans List.length_replicate
    have hpopped := hread.popped_eq
    rwa [popped_replicate hlen, pops_replicate, unread_of_rptr_zero hptr, hd, popAnswers_add_length] at hpopped
  rw [hread.responses_eq, hrs, List.append_assoc]

/-- A final `RST` answers `OK` and leaves all items zero. -/
theorem submit_then_rst (is : List Instr) (s : State) :
    ∃ t, submit (is.map encode ++ [encode .rst]) s = .next t ∧
      t.responses = (runCommands is s).responses ++ [0x0000#16] ∧ WipedClean t := by
  have hwords : is.map encode ++ [encode .rst] = (is ++ [Instr.rst]).map encode := by
    rw [List.map_append, List.map_singleton]
  refine ⟨_, hwords ▸ submit_map_encode (is ++ [Instr.rst]) s, ?_, ?_⟩ <;> rw [runCommands_append]
  · rfl
  · exact wipedClean_wipe (runCommands is s)

theorem dpop_ne_rst_stat {n : Nat} : ∀ i ∈ List.replicate n Instr.dpop, i ≠ .rst ∧ i ≠ .stat := by
  intro i hi
  obtain rfl := List.eq_of_mem_replicate hi
  exact ⟨nofun, nofun⟩

/-! ## The transaction for `Encrypt` (R175, R177) -/

theorem encryptCall_cases (p key : List Byte) :
    ((p = [] ∨ key = []) ∧ encryptCall p key = .error .invalidInput) ∨
    (p ≠ [] ∧ key ≠ [] ∧ encryptCall p key = .bytes (ecbEnc (foldKey key) (pad p))) := by
  by_cases h : p = [] ∨ key = []
  · exact .inl ⟨h, if_pos (by simpa using h)⟩
  · obtain ⟨hp, hkey⟩ := not_or.1 h
    exact .inr ⟨hp, hkey, encryptCall_of_nonempty hp hkey⟩

/-- Where `Encrypt` answers bytes, `ENCRYPT` returns them. -/
theorem Prepared.encrypt_of_bytes {s₀ s : State} {key d : List Byte} {n : Nat} (h : Prepared s₀ key d n s)
    (hroom : s₀.cfg.holds (d.length + 1) = true) {c : List Byte} (hc : encryptCall d key = .bytes c) :
    Returned s (afterCommand .encrypt s) c := by
  obtain ⟨-, herror⟩ | ⟨hd, hkey, -⟩ := encryptCall_cases d key
  · simp [herror] at hc
  · have hroom' : s.cfg.dcap ≠ some s.dlen := by
      rw [h.cfg_eq, h.dlen_eq]
      exact dcap_ne_of_holds hroom
    have hdata : data (encrypted s) = c := by rw [data_encrypted, h.kreg_eq, h.data_eq, eq_of_encryptCall hc]
    rw [afterCommand_encrypt_of_room h.err_eq (h.kvalid_iff.2 hkey) (h.dlen_ne_zero_iff.2 hd) hroom']
    exact ⟨hdata, (err_encrypted s).trans h.err_eq, rfl, (answered_encrypted s).1⟩

/-- Where `Encrypt` answers an error, it is `InvalidInput`, and `ENCRYPT` raises it. -/
theorem Prepared.encrypt_of_error {s₀ s : State} {key d : List Byte} {n : Nat} (h : Prepared s₀ key d n s)
    {k : FaultKind} (hk : encryptCall d key = .error k) : k = .invalidInput ∧ Raises s .encrypt .invalidInput := by
  obtain ⟨hempty, herror⟩ | ⟨-, -, hbytes⟩ := encryptCall_cases d key
  · refine ⟨by simpa [herror, eq_comm] using hk, .encryptUnready ?_⟩
    exact hempty.imp h.dlen_eq_zero_iff.2 h.kvalid_eq_false_iff.2
  · simp [hbytes] at hk

/-- Settles O58: the pushes prepare the state in which `ENCRYPT` does what `Encrypt` says. -/
theorem encryptTransactionReturnsEncrypt : Obligations.EncryptTransactionReturnsEncrypt := by
  rintro s first is _ _ hfirst his rfl rfl hroom
  have hprep := prepared_of_pushes hfirst his (Config.holds_mono hroom (Nat.le_succ _))
  have hwords (n : Nat) : (first ++ is ++ [Instr.encrypt]).map encode ++ readWords n ++ [encode .rst] =
      (first ++ is ++ Instr.encrypt :: List.replicate n .dpop).map encode ++ [encode .rst] := by simp [readWords_eq]
  refine ⟨fun c e hc => ?bytes, fun k n hk => ?error⟩
  case bytes =>
    obtain ⟨hdata, herr, hptr, hresponse⟩ := hprep.encrypt_of_bytes hroom hc
    obtain ⟨t, ht, hresponses, hclean⟩ :=
      submit_then_rst (first ++ is ++ Instr.encrypt :: List.replicate (c.length + e) .dpop) s
    refine ⟨t, (hwords _).symm ▸ ht, ?_, hclean⟩
    rw [hresponses, runCommands_append, runCommands, responses_read herr hptr hdata, hresponse, hprep.responses_eq]
  case error =>
    obtain ⟨rfl, hraises⟩ := hprep.encrypt_of_error hk
    obtain ⟨t, ht, hresponses, hclean⟩ := submit_then_rst (first ++ is ++ Instr.encrypt :: List.replicate n .dpop) s
    refine ⟨rfl, t, (hwords _).symm ▸ ht, ?_, hclean⟩
    rw [hresponses, runCommands_append, responses_of_raises hprep.err_eq hraises dpop_ne_rst_stat, hprep.responses_eq,
      List.length_replicate]
    rfl

/-! ## The transaction for `Decrypt` (R176, R177) -/

theorem decryptCall_cases (c key : List Byte) :
    ((c = [] ∨ key = [] ∨ c.length % 16 ≠ 0) ∧ decryptCall c key = .error .invalidInput) ∨
    (c ≠ [] ∧ key ≠ [] ∧ c.length % 16 = 0 ∧ decryptCall c key = unpad (ecbDec (foldKey key) c)) := by
  by_cases h : c = [] ∨ key = [] ∨ c.length % 16 ≠ 0
  · exact .inl ⟨h, if_pos (by simpa using h)⟩
  · simp only [not_or, not_not] at h
    obtain ⟨hc, hkey, haligned⟩ := h
    exact .inr ⟨hc, hkey, haligned, decryptCall_of_aligned hc hkey haligned⟩

/-- Where `Decrypt` answers bytes, `DECRYPT` returns them. -/
theorem Prepared.decrypt_of_bytes {s₀ s : State} {key c : List Byte} {n : Nat} (h : Prepared s₀ key c n s)
    {d : List Byte} (hd : decryptCall c key = .bytes d) : Returned s (afterCommand .decrypt s) d := by
  obtain ⟨-, herror⟩ | ⟨hc, hkey, haligned, hcall⟩ := decryptCall_cases c key
  · simp [herror] at hd
  · rw [← h.dlen_eq] at haligned
    have hunpad : unpad (data (decryptedBlocks s)) = .bytes d := by
      rw [data_decryptedBlocks haligned, h.kreg_eq, h.data_eq, ← hcall, hd]
    rw [afterCommand_decrypt_of_ready h.err_eq (h.kvalid_iff.2 hkey) (h.dlen_ne_zero_iff.2 hc) haligned]
    obtain ⟨hdata, herr, hptr, hresponse⟩ := returned_unpadInPlace (s := decryptedBlocks s) h.err_eq hunpad
    exact ⟨hdata, herr, hptr, hresponse⟩

/-- Where `Decrypt` answers an error, `DECRYPT` raises it. -/
theorem Prepared.decrypt_of_error {s₀ s : State} {key c : List Byte} {n : Nat} (h : Prepared s₀ key c n s)
    {k : FaultKind} (hk : decryptCall c key = .error k) : Raises s .decrypt k := by
  obtain ⟨hunready, herror⟩ | ⟨hc, hkey, haligned, hcall⟩ := decryptCall_cases c key
  · obtain rfl : k = .invalidInput := by simpa [herror, eq_comm] using hk
    rw [← h.dlen_eq] at hunready
    exact .decryptUnready (hunready.imp h.dlen_eq_zero_iff.2 (.imp_left h.kvalid_eq_false_iff.2))
  · obtain ⟨rfl, hbad⟩ := (unpad_eq_error_iff _ k).1 (hcall ▸ hk)
    rw [← h.dlen_eq] at haligned
    rw [← h.kreg_eq, ← h.data_eq] at hbad
    exact .decryptBad (h.dlen_ne_zero_iff.2 hc) (h.kvalid_iff.2 hkey) haligned hbad

/-- The kinds of fault that `DECRYPT` raises, with their codes. -/
theorem code_of_raises_decrypt {s : State} {k : FaultKind} (h : Raises s .decrypt k) :
    (k = .invalidInput ∧ k.code = 0x01#8) ∨ (k = .invalidPadding ∧ k.code = 0x02#8) := by
  cases h with
  | decryptUnready => exact .inl ⟨rfl, rfl⟩
  | decryptBad => exact .inr ⟨rfl, rfl⟩

/-- `LEN32`, then reading from the first byte on. -/
theorem responses_len32_read {s : State} (h : s.err = 0x00#8) (hptr : s.rptr = 0) {d : List Byte} (hd : data s = d)
    (e : Nat) : (runCommands (len32 ++ List.replicate (d.length + e) .dpop) s).responses =
      s.responses ++ okBytes (lengthBytes d.length) ++ okBytes d ++ List.replicate e 0x4000#16 := by
  have hbytes : [0x00#8, 0x01#8, 0x02#8, 0x03#8].map (lengthByte s.dlen) = lengthBytes d.length := by
    rw [← hd, length_data]
    rfl
  rw [runCommands_append, len32, runCommands_rdlen _ h, hbytes]
  exact responses_read (s := { s with responses := s.responses ++ okBytes (lengthBytes d.length) }) h hptr hd e

theorem len32_dpop_ne_rst_stat {n : Nat} : ∀ i ∈ len32 ++ List.replicate n Instr.dpop, i ≠ .rst ∧ i ≠ .stat := by
  intro i hi
  obtain hi | hi := List.mem_append.1 hi
  · obtain ⟨b, -, rfl⟩ := List.mem_map.1 hi
    exact ⟨nofun, nofun⟩
  · exact dpop_ne_rst_stat i hi

/-- Settles O59: the pushes prepare the state in which `DECRYPT` does what `Decrypt` says. -/
theorem decryptTransactionReturnsDecrypt : Obligations.DecryptTransactionReturnsDecrypt := by
  rintro s first is _ _ hfirst his rfl rfl hroom
  have hprep := prepared_of_pushes hfirst his hroom
  have hwords (n : Nat) :
      (first ++ is ++ [Instr.decrypt]).map encode ++ len32Words ++ readWords n ++ [encode .rst] =
        (first ++ is ++ Instr.decrypt :: (len32 ++ List.replicate n .dpop)).map encode ++ [encode .rst] := by
    simp [readWords_eq, len32Words_eq]
  refine ⟨fun d e hd hlt => ?bytes, fun k n hk => ?error⟩
  case bytes =>
    obtain ⟨hdata, herr, hptr, hresponse⟩ := hprep.decrypt_of_bytes hd
    obtain ⟨t, ht, hresponses, hclean⟩ :=
      submit_then_rst (first ++ is ++ Instr.decrypt :: (len32 ++ List.replicate (d.length + e) .dpop)) s
    refine ⟨t, _, _, _, _, (hwords _).symm ▸ ht, ?_, eq_sum_lengthBytes hlt, hclean⟩
    rw [hresponses, runCommands_append, runCommands, responses_len32_read herr hptr hdata, hresponse,
      hprep.responses_eq]
    rfl
  case error =>
    have hraises := hprep.decrypt_of_error hk
    obtain ⟨t, ht, hresponses, hclean⟩ :=
      submit_then_rst (first ++ is ++ Instr.decrypt :: (len32 ++ List.replicate n .dpop)) s
    refine ⟨k.code, code_of_raises_decrypt hraises, t, (hwords _).symm ▸ ht, ?_, hclean⟩
    have hlen : (len32 ++ List.replicate n Instr.dpop).length + 1 = n + 5 := by simp [len32]
    rw [hresponses, runCommands_append, responses_of_raises hprep.err_eq hraises len32_dpop_ne_rst_stat,
      hprep.responses_eq, hlen]

/-! ## Texts that do not fit (R177) -/

/-- `RST`, then the pushes of a key and of data, in this order. -/
def loadCommands (key d : List Byte) : List Instr := [.rst] ++ (key.map .kpush ++ d.map .dpush)

theorem keyPushed_kpush_dpush (key d : List Byte) : keyPushed (key.map .kpush ++ d.map .dpush) = key := by
  induction key with
  | nil =>
    induction d with
    | nil => rfl
    | cons b d ih => exact ih
  | cons b key ih => exact congrArg (b :: ·) ih

theorem dataPushed_kpush_dpush (key d : List Byte) : dataPushed (key.map .kpush ++ d.map .dpush) = d := by
  induction key with
  | nil =>
    induction d with
    | nil => rfl
    | cons b d ih => exact congrArg (b :: ·) ih
  | cons b key ih => exact ih

theorem prepared_loadCommands {s : State} {key d : List Byte} (hroom : s.cfg.holds d.length = true) :
    Prepared s key d (1 + key.length + d.length) (runCommands (loadCommands key d) s) := by
  have hpush : ∀ i ∈ key.map Instr.kpush ++ d.map .dpush, Push i := by
    intro i hi
    obtain hi | hi := List.mem_append.1 hi <;> obtain ⟨b, -, rfl⟩ := List.mem_map.1 hi
    · exact .inl ⟨b, rfl⟩
    · exact .inr ⟨b, rfl⟩
  have hprep := prepared_of_pushes (s := s) (.inl rfl) hpush (by rwa [dataPushed_kpush_dpush])
  rw [keyPushed_kpush_dpush, dataPushed_kpush_dpush] at hprep
  simpa [loadCommands, Nat.add_assoc] using hprep

/-- When the data are as many as the capacity, the buffer is full. -/
theorem Prepared.full {s₀ s : State} {key d : List Byte} {n : Nat} (h : Prepared s₀ key d n s)
    (hcap : s₀.cfg.dcap = some d.length) : s.cfg.dcap = some s.dlen := by rw [h.cfg_eq, h.dlen_eq, hcap]

theorem holds_of_dcap_eq {c : Config} {n : Nat} (h : c.dcap = some n) : c.holds n = true := by
  rw [Config.holds, h]
  exact decide_eq_true le_rfl

/-- The first byte too many raises `BufferOverflow`, and the rest of the text and the operation are ignored. -/
theorem responses_of_overlong {s : State} {key d rest : List Byte} {b : Byte} {op : Instr}
    (hcap : s.cfg.dcap = some d.length) (hop : op = .encrypt ∨ op = .decrypt) :
    (runCommands (loadCommands key d ++ .dpush b :: (rest.map .dpush ++ [op])) s).responses =
      s.responses ++ List.replicate (1 + key.length + d.length) 0x0000#16 ++
        List.replicate (rest.length + 2) 0x0800#16 := by
  have hprep := prepared_loadCommands (key := key) (holds_of_dcap_eq hcap)
  have hrest : ∀ i ∈ rest.map Instr.dpush ++ [op], i ≠ .rst ∧ i ≠ .stat := by
    intro i hi
    obtain hi | hi := List.mem_append.1 hi
    · obtain ⟨b, -, rfl⟩ := List.mem_map.1 hi
      exact ⟨nofun, nofun⟩
    · obtain rfl := List.mem_singleton.1 hi
      obtain rfl | rfl := hop <;> exact ⟨nofun, nofun⟩
  rw [runCommands_append, responses_of_raises hprep.err_eq (.dpushFull b (hprep.full hcap)) hrest, hprep.responses_eq,
    List.length_append, List.length_map, List.length_singleton]
  rfl

/-- With the buffer full `ENCRYPT` has no room for the padding, but tests for the key first (R152). -/
theorem responses_of_full_encrypt {s : State} {key d : List Byte} (hcap : s.cfg.dcap = some d.length) (hd : d ≠ []) :
    (runCommands (loadCommands key d ++ [.encrypt]) s).responses =
      s.responses ++ List.replicate (1 + key.length + d.length) 0x0000#16 ++
        [if key = [] then 0x0100#16 else 0x0800#16] := by
  have hprep := prepared_loadCommands (key := key) (holds_of_dcap_eq hcap)
  rw [runCommands_append]
  by_cases hkey : key = []
  · have hraises : Raises (runCommands (loadCommands key d) s) .encrypt .invalidInput :=
      .encryptUnready (.inr (hprep.kvalid_eq_false_iff.2 hkey))
    rw [responses_of_raises hprep.err_eq hraises (List.forall_mem_nil _), hprep.responses_eq, if_pos hkey]
    rfl
  · have hraises : Raises (runCommands (loadCommands key d) s) .encrypt .bufferOverflow :=
      .encryptFull (hprep.dlen_ne_zero_iff.2 hd) (hprep.kvalid_iff.2 hkey) (hprep.full hcap)
    rw [responses_of_raises hprep.err_eq hraises (List.forall_mem_nil _), hprep.responses_eq, if_neg hkey]
    rfl

/-- A legal capacity is not zero (R7). -/
theorem pos_of_legal {c : Config} {n : Nat} (hlegal : c.legal = true) (hcap : c.dcap = some n) : 0 < n := by
  rw [Config.legal, hcap] at hlegal
  simp only [Bool.and_eq_true, decide_eq_true_eq] at hlegal
  omega

theorem words_loadCommands (key d : List Byte) (op : Instr) :
    encode .rst :: keyWordsFor key ++ dataWordsFor d ++ [encode op] = (loadCommands key d ++ [op]).map encode := by
  simp [loadCommands, keyWordsFor, dataWordsFor, Function.comp_def]

/-- Settles O60: the text is what fills the buffer, and what is left of it when it is longer. -/
theorem oversizedTransactionsAreRefused : Obligations.OversizedTransactionsAreRefused := by
  intro s n p key op hlegal hcap hop
  refine ⟨fun hlong => ?overlong, fun hfull => ?full⟩
  case overlong =>
    obtain ⟨b, rest, hdrop⟩ : ∃ b rest, p.drop n = b :: rest :=
      List.exists_cons_of_ne_nil fun hnil => by simp at hnil; omega
    have hlen : (p.take n).length = n := List.length_take_of_le hlong.le
    have hrest : rest.length + 2 = p.length - n + 1 := by rw [← List.length_drop, hdrop, List.length_cons]
    have hlist : loadCommands key p ++ [op] =
        loadCommands key (p.take n) ++ .dpush b :: (rest.map .dpush ++ [op]) := by
      conv_lhs => rw [← List.take_append_drop n p, hdrop]
      simp [loadCommands]
    refine ⟨_, words_loadCommands key p op ▸ submit_map_encode _ s, ?_⟩
    rw [setInputs_responses, hlist, responses_of_overlong (hlen.symm ▸ hcap) hop, hlen, hrest]
  case full =>
    have hp : p ≠ [] := List.ne_nil_of_length_pos (hfull ▸ pos_of_legal hlegal hcap)
    refine ⟨_, words_loadCommands key p .encrypt ▸ submit_map_encode _ s, ?_⟩
    rw [setInputs_responses, responses_of_full_encrypt (hfull ▸ hcap) hp, hfull]

end Sys2Proof.Machine
